-- ==== Sys2Proof/Word.lean ====
section
/-! DEFINITION. The word types of the HEC (spec/00_scope.md R6, R7, R9): what the spec shifts, masks or lets
the host see as a word is a bit vector of the width the spec gives it. -/

namespace Sys2Proof

/-- The 32-bit host data word and the command word (R6 BUS_W, R90). -/
abbrev Word := BitVec 32

/-- One byte: a Symbol (R6 SYM_W, D1) or one packed byte of the stream. -/
abbrev Byte := BitVec 8

/-- A word index of the host port: byte address `a` is word index `a / 4`.  Address bits [1:0] do not exist on the
port (R6 ADDR_W, R63), so 16 bits are all the address there is and a misaligned access cannot be written down. -/
abbrev WordAddr := BitVec 16

/-- A node index (R6 IDX_W). -/
abbrev NodeIdx := BitVec 9

/-- A bit-string (R8): element 0 is the first bit. -/
abbrev Bits := List Bool

end Sys2Proof
end

