-- ==== Sys2Proof/Syntax.lean ====
section
/-! DEFINITION. The commands of the HEC: one constructor per row of spec/opcode_table.json (spec/30_encoding.md R95).
No command has an operand in its word (R90, R93). -/

namespace Sys2Proof

/-- The ten commands (R95). -/
inductive Instr where
  | nop
  | clear
  | count
  | build
  | gencodes
  | encode
  | decodeT
  | decodeC
  | metrics
  | compress
  deriving DecidableEq, Repr

end Sys2Proof
end

