-- ==== Sys2Proof/Decode.lean ====
section
/-! DEFINITION. The command word (spec/30_encoding.md R90 to R97): its three fields, the total decoder, the encoder,
and the host's view of the decoder.  The HEC fetches no bytes: a command is one 32-bit word handed over on the port
(R23, R103), so the decoder's input is that word. -/

namespace Sys2Proof

/-- OP, bits 7:0 (R90). -/
def opField (w : Word) : Byte := w.extractLsb' 0 8

/-- M, bit 8 (R90, R92). -/
def modeField (w : Word) : Bool := w.getLsbD 8

/-- ZERO, bits 31:9, reserved (R90). -/
def zeroField (w : Word) : BitVec 23 := w.extractLsb' 9 23

/-- Why a word is no command: the three clauses of R94. -/
inductive Illegal where
  /-- `w[31:9] != 0` -/
  | reservedBits
  /-- `w[7:0] > 0x08` -/
  | reservedOpcode
  /-- `w[8] = 1` with an OP other than `0x06` -/
  | modeBit
  deriving DecidableEq, Repr

/-- The command an OP byte with M = 0 names (R95). -/
def plainCommand (op : Nat) : Option Instr :=
  match op with
  | 0 => some .nop
  | 1 => some .clear
  | 2 => some .count
  | 3 => some .build
  | 4 => some .gencodes
  | 5 => some .encode
  | 6 => some .decodeT
  | 7 => some .metrics
  | 8 => some .compress
  | _ => none

/-- The decoder (R94), total on every 32-bit word: an illegal word is rejected by the name of the clause it breaks. -/
def decode (w : Word) : Except Illegal Instr :=
  if zeroField w ≠ 0#23 then .error .reservedBits
  else
    match plainCommand (opField w).toNat with
    | none => .error .reservedOpcode
    | some i =>
      if modeField w then
        if i = .decodeT then .ok .decodeC else .error .modeBit
      else .ok i

/-- OP of each command (R95). -/
def opcodeOf : Instr → Byte
  | .nop => 0x00#8
  | .clear => 0x01#8
  | .count => 0x02#8
  | .build => 0x03#8
  | .gencodes => 0x04#8
  | .encode => 0x05#8
  | .decodeT => 0x06#8
  | .decodeC => 0x06#8
  | .metrics => 0x07#8
  | .compress => 0x08#8

/-- M of each command (R92, R95). -/
def modeOf : Instr → Bool
  | .nop => false
  | .clear => false
  | .count => false
  | .build => false
  | .gencodes => false
  | .encode => false
  | .decodeT => false
  | .decodeC => true
  | .metrics => false
  | .compress => false

/-- The command word of each command: ZERO, M, OP from the top (R90). -/
def encode (i : Instr) : Word := 0#23 ++ BitVec.ofBool (modeOf i) ++ opcodeOf i

/-- The host's view of the decoder: `w` holds the row's `nbits` bits, every bit above them 0. -/
def decodeTableWord (nbits w : Nat) : Option Instr :=
  match decode (BitVec.ofNat 32 (w % 2 ^ nbits)) with
  | .ok i => some i
  | .error _ => none

end Sys2Proof
end

