-- ==== Sys2Proof/Config.lean ====
section
/-! DEFINITION. What one implementation of the HEC fixes (spec/00_scope.md R6) and the free value the spec leaves
open (spec/93_implementation_defined.md U4). -/

namespace Sys2Proof.Config

/-- The three buffer depths of R6, arguments of the model: "a model may take the three buffer depths as arguments".
D6 bounds each by 65536, which the type says. -/
structure Depths where
  ibuf : Fin 65537
  obuf : Fin 65537
  dbuf : Fin 65537
  deriving DecidableEq, Repr

/-- The default depths of R6. -/
def defaultDepths : Depths := ⟨65536, 65536, 65536⟩

/-- The constant of the ID register, ASCII "HEC1" (R24). -/
def idWord : Word := 0x48454331#32

/-- NULL, the node index that means "no node" (R6, R12). -/
def nullIdx : NodeIdx := 0x1FF#9

/-- What a buffer element that no entry lists reads as.  DESIGN CHOICE (notes/assumptions/1.md), unsafe only where a
claim is made about `State.reset` itself: the spec leaves buffer contents after reset unspecified (R302, U1); a Reset
event of the model brings its own arbitrary contents. -/
def unwritten : Byte := 0#8

/-- FREE VALUE (U4, D38; notes/assumptions/2.md): the word the `n`-th host read of data state while BUSY returns.
No body: nothing can be proved of it. -/
opaque busyWord : Nat → Word

end Sys2Proof.Config
end

