-- ==== Sys2Proof/Machine/Memory.lean ====
section
/-! DEFINITION. The byte buffers IBUF, OBUF and DBUF (spec/10_state.md R48 to R50): a sparse list of
(element index, byte), strictly rising, no entry equal to what an unlisted element reads as. -/

namespace Sys2Proof.Machine

/-- The contents of one buffer; the key is the element index of R62's abstract space. -/
abbrev Buffer := List Host.Cell

/-- `MemRead(space, i)` (R10, R78): one byte. -/
def Buffer.read : Buffer → Nat → Byte
  | [], _ => Config.unwritten
  | (a, v) :: m, i => if a = i then v else Buffer.read m i

/-- Put a cell at its place in a list that does not hold its index. -/
def Buffer.insert : Buffer → Host.Cell → Buffer
  | [], c => [c]
  | d :: m, c => if c.1 < d.1 then c :: d :: m else d :: Buffer.insert m c

/-- `MemWrite(space, i, v)` (R10, R78): that byte and no other; the canonical form is kept. -/
def Buffer.write (m : Buffer) (i : Nat) (v : Byte) : Buffer :=
  let rest : Buffer := m.filter (fun c => c.1 != i)
  if v = Config.unwritten then rest else rest.insert (i, v)

/-- The canonical form: indices strictly rising from `lo` and below `depth`, no entry an unlisted element's value. -/
def Buffer.wfFrom (depth : Nat) : Nat → Buffer → Bool
  | _, [] => true
  | lo, (a, v) :: m => decide (lo ≤ a) && decide (a < depth) && decide (v ≠ Config.unwritten)
      && Buffer.wfFrom depth (a + 1) m

/-- A buffer of `depth` elements in canonical form. -/
def Buffer.wf (depth : Nat) (m : Buffer) : Bool := Buffer.wfFrom depth 0 m

end Sys2Proof.Machine
end

