-- ==== Sys2Proof/Machine/Event.lean ====
section
/-! DEFINITION. What the outside does to the HEC (spec/10_state.md R20, R57): the host's four actions, the two ways a
CMD write can be followed (the host waits for BUSY = 0, or looks in while the command runs, R72, R310), and what the
host gets back.  The list of events is the "program" of R23. -/

namespace Sys2Proof.Machine

/-- One entry of the host's script. -/
inductive Event where
  /-- The reset event (R300).  It carries the contents the three buffers hold after it, which no rule fixes (R302,
  U1, the parameters INIT_IBUF, INIT_OBUF, INIT_DBUF of D37). -/
  | reset (ibuf obuf dbuf : Buffer)
  /-- `HostRead(a)` (R62). -/
  | read (a : WordAddr)
  /-- `HostWrite(a, w)` (R62); a write to CMD by a host that then waits for BUSY = 0 (R310): the command runs to
  completion before the next event. -/
  | write (a : WordAddr) (w : Word)
  /-- The host observes the interrupt line (R20, R284). -/
  | observeIrq
  /-- `HostWrite(CMD, w)` by a host that does not wait: the events after it fall while BUSY = 1 (R72), until `engine`
  events have completed the command. -/
  | start (w : Word)
  /-- The engine takes one of its own actions: one iteration of the loop the running command is in,
  one of its other statements, or its completion. -/
  | engine
  deriving DecidableEq, Repr

/-- What the host gets back from an observation. -/
inductive Answer where
  /-- The word a `HostRead` returned. -/
  | word (w : Word)
  /-- The level of `irq`. -/
  | line (high : Bool)
  deriving DecidableEq, Repr

end Sys2Proof.Machine
end

