-- ==== Sys2Proof/WellFormed.lean ====
section
/-! DEFINITION. Well-formedness of what comes from outside.  A command has no operand (spec/30_encoding.md R93), so
every `Instr` is well formed; a Reset event is well formed when the buffer contents it brings are canonical and fit
the depths. -/

namespace Sys2Proof

/-- Every command is well formed: there is no field to be wrong (R90, R93). -/
def Instr.wf : Instr → Bool
  | .nop => true
  | .clear => true
  | .count => true
  | .build => true
  | .gencodes => true
  | .encode => true
  | .decodeT => true
  | .decodeC => true
  | .metrics => true
  | .compress => true

/-- A script entry that brings data brings canonical buffers of the machine's depths. -/
def Machine.Event.wf (d : Config.Depths) : Machine.Event → Bool
  | .reset i o b => Machine.Buffer.wf d.ibuf.val i && Machine.Buffer.wf d.obuf.val o && Machine.Buffer.wf d.dbuf.val b
  | .read _ => true
  | .write _ _ => true
  | .observeIrq => true
  | .start _ => true
  | .engine => true

end Sys2Proof
end

