-- ==== Sys2Proof/Machine/State.lean ====
section
/-! DEFINITION. The state of the HEC (spec/10_state.md R21): its registers, the tables FT, NODE and CT, the buffers
IBUF, OBUF and DBUF, the hidden state of a running command, and the host's side of the port. -/

namespace Sys2Proof.Machine

/-- The five errors of R270; STATUS.ERR holds one of their codes or 0 (U6: codes 6 to 15 are never produced). -/
inductive ErrKind where
  | invariantViolation
  | corruptStream
  | overflow
  | badParam
  | illegalCmd
  deriving DecidableEq, Repr

/-- What a `raise E(info)` carries (R276). -/
structure Raise where
  kind : ErrKind
  info : Word
  deriving DecidableEq, Repr

/-- One TreeNode of the NODE memory (R43). -/
structure Node where
  leaf : Bool
  active : Bool
  sym : Byte
  weight : BitVec 40
  left : NodeIdx
  right : NodeIdx
  deriving DecidableEq, Repr

/-- The entry with all fields 0 (R43, R151). -/
def Node.empty : Node := ⟨false, false, 0#8, 0#40, 0#9, 0#9⟩

/-- One CT entry (R46): the code's length and its bits, `bits[j]` the j-th bit of the code. -/
structure Code where
  len : Byte
  bits : BitVec 255
  deriving DecidableEq, Repr

/-- No entry: LEN = 0, BITS = 0 (R46). -/
def Code.empty : Code := ⟨0#8, 0#255⟩

/-- Where a running command is inside the loop it is in: the variables of the command rules' pseudocode that are no
architectural state (R52 to R54).  All 0 or empty between two commands. -/
structure Cursor where
  /-- The variable of the `for` loop: `s`, `n`, `i` or `k` (R124, R140, R150, R180, R200, R220). -/
  idx : Nat
  /-- ENCODE's `nb`, the bits emitted (R53, R200); its low 3 bits are the fill count. -/
  nb : Nat
  /-- ENCODE's `acc`, the serial bit-buffer (R53, R200). -/
  acc : Byte
  /-- ENCODE's inner loop: the bits of the current symbol's code still to be emitted (R200). -/
  todo : Bits
  /-- GENCODES's stack: the subtrees still to be walked with their paths, the next one first (R52, R180). -/
  stack : List (NodeIdx × Bits)
  /-- DECODE's `n`, the symbols emitted (R54, R220). -/
  count : Nat
  /-- DECODE's `start`, the bit at which the current code began (R54, R220). -/
  start : Nat
  /-- DECODE.T's `cur` (R54, R221). -/
  cur : NodeIdx
  /-- DECODE.C's `acc`, the accumulated bit-string (R54, R224). -/
  path : Bits
  deriving DecidableEq, Repr

/-- The cursor before the first iteration of anything. -/
def Cursor.init : Cursor := ⟨0, 0, 0x00#8, [], [], 0, 0, 0#9, []⟩

/-- The hidden state of a running command (R51 to R54): the accepted word, which of its rule's loops and statements it is
at, the place inside it, and the error it raised, which completion will put on display (R122, R72 (a)).  The queue of R51
is no state of its own: the working collection is in NODE (R45). -/
structure Running where
  word : Word
  loop : Nat
  cursor : Cursor
  raised : Option Raise
  deriving DecidableEq, Repr

/-- The faults that stop the machine: NONE.  R270: every error is the outcome of a command, shown in STATUS.ERR, after
which the engine is idle; "there are no other exceptions". -/
inductive Fault where
  deriving DecidableEq, Repr

/-- The refusals of the model. -/
inductive Refusal where
  /-- Raised by an arm of `exec` whose instruction has no meaning yet; safe.  No arm of this model raises it. -/
  | notModelled (mnemonic : String)
  deriving DecidableEq, Repr

structure State where
  /-- STATUS.DONE (R22). -/
  done : Bool
  /-- STATUS.SERR (R22, R279). -/
  serr : Bool
  /-- STATUS.OVR (R22, R282). -/
  ovr : Bool
  /-- STATUS.ERR (R22, R270); `none` is code 0. -/
  err : Option ErrKind
  /-- STATUS.OP (R22). -/
  op : Byte
  /-- STATUS.STAGE (R22, R261). -/
  stage : BitVec 3
  /-- CTRL.IE (R26). -/
  ie : Bool
  /-- ERR_INFO (R27). -/
  errInfo : Word
  /-- IN_LEN (R28). -/
  inLen : BitVec 17
  /-- BIT_LEN (R29). -/
  bitLen : BitVec 20
  /-- DEC_LEN (R30). -/
  decLen : BitVec 17
  /-- NODE_CNT (R32). -/
  nodeCnt : BitVec 9
  /-- NLEAF (R33). -/
  nleaf : BitVec 9
  /-- ROOT (R34). -/
  root : NodeIdx
  /-- MET_ORIG_BITS (R35). -/
  metOrigBits : BitVec 20
  /-- MET_ENC_BITS (R36). -/
  metEncBits : BitVec 20
  /-- MET_DIFF (R37). -/
  metDiff : Word
  /-- MET_RED (R38). -/
  metRed : Word
  /-- FT (R41). -/
  ft : Vector Word 256
  /-- NODE (R42 to R45). -/
  node : Vector Node 511
  /-- CT (R46). -/
  ct : Vector Code 256
  /-- IBUF (R48). -/
  ibuf : Buffer
  /-- OBUF (R49). -/
  obuf : Buffer
  /-- DBUF (R50). -/
  dbuf : Buffer
  /-- The depths of R6, which CAP_IBUF, CAP_OBUF and CAP_DBUF show (R39).  No transition changes them. -/
  depths : Config.Depths
  /-- The running command, `none` while the engine is idle; STATUS.BUSY is `engine.isSome` (R22). -/
  engine : Option Running
  /-- The MODEL's own: the host's script, next event first (R23, R57). -/
  pending : List Event
  /-- The MODEL's own: what the host has been answered, newest first. -/
  answers : List Answer
  /-- The MODEL's own: how many unspecified words have been answered (U4), the argument of `Config.busyWord`. -/
  freeReads : Nat
  deriving DecidableEq, Repr

/-- The state after reset (R301) of a HEC with these depths whose buffers happen to hold `i`, `o`, `b` (R302) and whose
host has this script, these answers and this count of free words. -/
def State.afterReset (d : Config.Depths) (i o b : Buffer) (evs : List Event) (ans : List Answer) (free : Nat) : State where
  done := false
  serr := false
  ovr := false
  err := none
  op := 0#8
  stage := 0#3
  ie := false
  errInfo := 0#32
  inLen := 0#17
  bitLen := 0#20
  decLen := 0#17
  nodeCnt := 0#9
  nleaf := 0#9
  root := Config.nullIdx
  metOrigBits := 0#20
  metEncBits := 0#20
  metDiff := 0#32
  metRed := 0#32
  ft := Vector.replicate 256 0#32
  node := Vector.replicate 511 Node.empty
  ct := Vector.replicate 256 Code.empty
  ibuf := i
  obuf := o
  dbuf := b
  depths := d
  engine := none
  pending := evs
  answers := ans
  freeReads := free

/-- The machine right after reset (R301): the default depths, an empty script.  The buffers list nothing: DESIGN CHOICE
(notes/assumptions/1.md). -/
def State.reset : State := State.afterReset Config.defaultDepths [] [] [] [] [] 0

end Sys2Proof.Machine
end

