-- ==== Sys2Proof/Machine/Flags.lean ====
section
/-! DEFINITION. STATUS, CTRL and the interrupt line (spec/10_state.md R22, R26; spec/60_exceptions.md R270, R284).  The
HEC has no arithmetic condition codes (R22): these are all its flags. -/

namespace Sys2Proof.Machine

/-- STATUS.BUSY (R22): 1 while the engine is executing a command. -/
def State.busy (s : State) : Bool := s.engine.isSome

/-- The error codes of R270. -/
def errCode : Option ErrKind → BitVec 4
  | none => 0#4
  | some .invariantViolation => 1#4
  | some .corruptStream => 2#4
  | some .overflow => 3#4
  | some .badParam => 4#4
  | some .illegalCmd => 5#4

/-- The word STATUS reads as (R22): reserved, STAGE, OP, ERR, OVR, SERR, DONE, BUSY from the top. -/
def State.statusWord (s : State) : Word :=
  0#13 ++ s.stage ++ s.op ++ errCode s.err ++ BitVec.ofBool s.ovr ++ BitVec.ofBool s.serr
    ++ BitVec.ofBool s.done ++ BitVec.ofBool s.busy

/-- A host write to STATUS (R22, R70): the W1C bits 1, 2, 3 written as 1 are cleared, nothing else changes. -/
def State.writeStatus (s : State) (w : Word) : State :=
  { s with
    done := s.done && !w.getLsbD 1
    serr := s.serr && !w.getLsbD 2
    ovr := s.ovr && !w.getLsbD 3 }

/-- The word CTRL reads as (R26). -/
def State.ctrlWord (s : State) : Word := 0#31 ++ BitVec.ofBool s.ie

/-- The interrupt output (R284): `irq = CTRL.IE and STATUS.DONE`. -/
def State.irq (s : State) : Bool := s.ie && s.done

/-- OUT_BYTES (R31): `(BIT_LEN + 7) >> 3`, the bytes the stream occupies. -/
def State.outBytes (s : State) : Nat := (s.bitLen.toNat + 7) / 8

end Sys2Proof.Machine
end

