-- ==== Sys2Proof/Machine/Operands.lean ====
section
/-! DEFINITION. How the engine reads its implicit operands (spec/30_encoding.md R93; spec/20_memory.md R65, R77, R78):
table entries by index, buffer bytes by element index, the bits of the packed stream, the bit-string of a code. -/

namespace Sys2Proof.Machine

/-- `FT[s]` (R41, R77). -/
def ftAt (t : Vector Word 256) (s : Byte) : Word := t[s.toNat]'s.isLt

/-- `FT[s] <- v` (R77). -/
def ftSet (t : Vector Word 256) (s : Byte) (v : Word) : Vector Word 256 := t.set s.toNat v s.isLt

/-- `CT[s]` (R46, R77). -/
def ctAt (t : Vector Code 256) (s : Byte) : Code := t[s.toNat]'s.isLt

/-- `CT[s] <- c` (R77). -/
def ctSet (t : Vector Code 256) (s : Byte) (c : Code) : Vector Code 256 := t.set s.toNat c s.isLt

/-- `NODE[n]` (R42, R77).  There is no entry 511: the rules never produce that index; the model reads it as the all-zero
slot the host sees there (R60; notes/assumptions/6.md). -/
def nodeAt (t : Vector Node 511) (n : NodeIdx) : Node := t[n.toNat]?.getD Node.empty

/-- The symbol at element `i` of a buffer (R104): IBUF holds one Symbol per byte. -/
def symbolAt (m : Buffer) (i : Nat) : Byte := m.read i

/-- `bit(k)` (R65): `OBUF[k >> 3][7 - (k & 7)]`. -/
def streamBit (m : Buffer) (k : Nat) : Bool := (m.read (k / 8)).getLsbD (7 - k % 8)

/-- `code(s)` of an entry (R46): the bit-string of length LEN whose element `j` is `BITS[j]`. -/
def Code.str (c : Code) : Bits := (List.range c.len.toNat).map (fun j => c.bits.getLsbD j)

/-- BITS whose element `j` is `p[j]`, the others 0 (R46, R180). -/
def bitsOf : Bits → BitVec 255
  | [] => 0#255
  | b :: p => (bitsOf p <<< 1) ||| (BitVec.ofBool b).setWidth 255

/-- The entry that holds the bit-string `p` (R180): LEN = |p|, BITS[j] = p[j], other BITS 0. -/
def Code.ofBits (p : Bits) : Code := ⟨BitVec.ofNat 8 p.length, bitsOf p⟩

end Sys2Proof.Machine
end

