-- ==== Sys2Proof/Machine/Ops.lean ====
section
/-! DEFINITION. The life of a command (spec/40_control.md R120 to R126) and raising an error (spec/60_exceptions.md
R276): acceptance, body, completion.  There is no return instruction (R280): completion leaves the engine idle. -/

namespace Sys2Proof.Machine

/-- What a command, or a stage of COMPRESS, does as one function: the new data state, and the error it raised if it did
(R276: the statements after a `raise` do not run). -/
abbrev Body := State → State × Option Raise

/-- Acceptance of the word `w` (R120): DONE, ERR, ERR_INFO, STAGE to 0, OP to `w[7:0]`, BUSY to 1; SERR and OVR are not
changed. -/
def accept (w : Word) (s : State) : State :=
  { s with
    done := false
    err := none
    errInfo := 0#32
    op := opField w
    stage := 0#3
    engine := some ⟨w, 0, Cursor.init, none⟩ }

/-- Taking an error (R276, R277): the code and the detail word go on display; nothing is pushed, no mode changes. -/
def raiseErr (r : Raise) (s : State) : State := { s with err := some r.kind, errInfo := r.info }

/-- What completion displays (R122): the error raised, or the 0 of acceptance. -/
def display (r : Option Raise) (s : State) : State :=
  match r with
  | none => s
  | some r => raiseErr r s

/-- Completion (R122): the error, if one was raised, is put in ERR and ERR_INFO and sets SERR; BUSY to 0, DONE to 1. -/
def complete (r : Option Raise) (s : State) : State :=
  { display r s with
    engine := none
    done := true
    serr := s.serr || r.isSome }

/-- Bodies in sequence, stopping at the first that raises (R260, R276). -/
def runBodies : List Body → Body
  | [], s => (s, none)
  | b :: bs, s =>
    match b s with
    | (t, some r) => (t, some r)
    | (t, none) => runBodies bs t

/-- `exec(w, S)` of R126: acceptance, the command's body, completion, in one step. -/
def command (w : Word) (body : Body) (s : State) : State :=
  let r := body (accept w s)
  complete r.2 r.1

/-- The body of an illegal word (R96, R275): ILLEGAL_CMD with the full word, no data state changed. -/
def illegalBody (w : Word) : Body := fun s => (s, some ⟨.illegalCmd, w⟩)

/-- An illegal word written to CMD while idle (R96, R275). -/
def illegal (w : Word) (s : State) : State := command w (illegalBody w) s

end Sys2Proof.Machine
end

