-- ==== Sys2Proof/Machine/Loops.lean ====
section
/-! DEFINITION. The small steps of a running command (spec/10_state.md R57: "the loops of the command rules as its small
steps"): a command rule is a list of loops and of statements between loops, and one small step is one iteration of the
innermost loop the command is in, the test that ends a loop, or one statement.  Each works on State in place. -/

namespace Sys2Proof.Machine

/-- What one small step answers: the loop goes on, the command goes on behind it, or an error is raised (R276). -/
inductive LoopOut where
  | more (s : State) (c : Cursor)
  | leave (s : State) (c : Cursor)
  | raised (s : State) (r : Raise)
  deriving DecidableEq, Repr

/-- One loop, or one statement, of a command rule. -/
abbrev Loop := State → Cursor → LoopOut

/-- A statement: it is done once. -/
def statement (f : State → State) : Loop := fun s c => .leave (f s) c

/-- `if ... : raise ...` in front of a rule's first loop, which changes nothing. -/
def require (bad : State → Option Raise) : Loop := fun s c =>
  match bad s with
  | some r => .raised s r
  | none => .leave s c

/-- `for x in 0 .. n-1:  f x`. -/
def forLoop (n : State → Nat) (f : Nat → State → State) : Loop := fun s c =>
  if c.idx < n s then .more (f c.idx s) { c with idx := c.idx + 1 } else .leave s { c with idx := 0 }

/-- `NODE[i] <- all fields 0` (R124, R151). -/
def clearNode (i : Nat) (s : State) : State := { s with node := s.node.setIfInBounds i Node.empty }

/-- `FT[i] <- 0` (R124, R140). -/
def clearCount (i : Nat) (s : State) : State := { s with ft := ftSet s.ft (BitVec.ofNat 8 i) 0#32 }

/-- `CT[i].LEN <- 0; CT[i].BITS <- 0` (R124, R181). -/
def clearCode (i : Nat) (s : State) : State := { s with ct := ctSet s.ct (BitVec.ofNat 8 i) Code.empty }

/-- `NODE_CNT <- 0; NLEAF <- 0; ROOT <- NULL` (R124, R151). -/
def forgetTree (s : State) : State := { s with nodeCnt := 0#9, nleaf := 0#9, root := Config.nullIdx }

end Sys2Proof.Machine
end

