-- ==== Sys2Proof/Machine/Build.lean ====
section
/-! DEFINITION. BUILD, the tree builder (spec/42_build.md R150 to R158).  While BUILD runs the node memory is the list
of the nodes created so far, a node's index its place in it (R44); the entries above it are all zero (R151). -/

namespace Sys2Proof.Machine

/-- A leaf for symbol `s` with count `c` (R152). -/
def Node.newLeaf (s : Byte) (c : Word) : Node := ⟨true, true, s, c.setWidth 40, Config.nullIdx, Config.nullIdx⟩

/-- An internal node over `a` and `b` (R156). -/
def Node.newInternal (w : BitVec 40) (a b : Nat) : Node :=
  ⟨false, true, 0#8, w, BitVec.ofNat 9 a, BitVec.ofNat 9 b⟩

/-- Phase 2 (R152): one leaf per (symbol, count) pair with a non-zero count, ascending symbol value. -/
def leavesOf (ft : Vector Word 256) : List Node :=
  ft.toList.zipIdx.filterMap fun p => if p.1 = 0#32 then none else some (Node.newLeaf (BitVec.ofNat 8 p.2) p.1)

/-- The working collection (R45): the active nodes with their indices, in index order. -/
def working (ns : List Node) : List (Node × Nat) := ns.zipIdx.filter fun p => p.1.active

/-- `less(a, b)` (R11): by weight, then by creation order. -/
def lessNode (a b : Node × Nat) : Bool :=
  decide (a.1.weight < b.1.weight) || (decide (a.1.weight = b.1.weight) && decide (a.2 < b.2))

/-- The least element of a collection by `less` (R155). -/
def least : List (Node × Nat) → Option (Node × Nat)
  | [] => none
  | x :: xs =>
    match least xs with
    | none => some x
    | some y => if lessNode x y then some x else some y

/-- `NODE[m].ACTIVE <- 0` (R150, R156). -/
def deactivate (ns : List Node) (m : Nat) : List Node := ns.modify m fun n => { n with active := false }

/-- `ExtractMin()` (R150, R155): the least node of the working collection, and the nodes with it taken out. -/
def extractMin (ns : List Node) : Option ((Node × Nat) × List Node) :=
  match least (working ns) with
  | none => none
  | some m => some (m, deactivate ns m.2)

/-- One iteration of phase 3 (R155, R156); `none` when fewer than two nodes are left to merge (R157). -/
def mergeOnce (ns : List Node) : Option (List Node) :=
  match extractMin ns with
  | none => none
  | some (a, ns1) =>
    match extractMin ns1 with
    | none => none
    | some (b, ns2) => some (ns2 ++ [Node.newInternal (a.1.weight + b.1.weight) a.2 b.2])

/-- Phase 3 (R157): merge until one node remains, at most `fuel` times. -/
def mergeAll : Nat → List Node → List Node
  | 0, ns => ns
  | fuel + 1, ns =>
    match mergeOnce ns with
    | none => ns
    | some ns' => mergeAll fuel ns'

/-- The nodes BUILD makes of a frequency table: R157 bounds the merges by NLEAF - 1, at most 255. -/
def treeOf (ft : Vector Word 256) : List Node := mergeAll 256 (leavesOf ft)

/-- Phase 4 (R157): the index of the one node left, NULL when there is none (R153). -/
def rootOf (ns : List Node) : NodeIdx :=
  match working ns with
  | [] => Config.nullIdx
  | p :: _ => BitVec.ofNat 9 p.2

/-- The node memory that holds the nodes `ns`, every other entry all zero (R151). -/
def nodeMemory (ns : List Node) : Vector Node 511 :=
  ⟨((ns ++ List.replicate 511 Node.empty).take 511).toArray, by
    rw [List.size_toArray, List.length_take, List.length_append, List.length_replicate]; omega⟩

/-- BUILD's body (R150). -/
def buildBody : Body := fun s =>
  let ns := treeOf s.ft
  ({ s with
      node := nodeMemory ns
      nodeCnt := BitVec.ofNat 9 ns.length
      nleaf := BitVec.ofNat 9 (leavesOf s.ft).length
      root := rootOf ns }, none)

/-- The nodes created so far (R44). -/
def nodesOf (s : State) : List Node := s.node.toList.take s.nodeCnt.toNat

/-- The nodes created so far are now `ns`, the entries above them as they were (R44, R77). -/
def writeNodes (ns : List Node) (s : State) : State :=
  { s with
      node := Vector.ofFn fun i => (ns[i.val]?).getD s.node[i]
      nodeCnt := BitVec.ofNat 9 ns.length }

/-- One iteration of phase 2 (R150, R152). -/
def addLeaf (i : Nat) (s : State) : State :=
  let x := BitVec.ofNat 8 i
  if ftAt s.ft x = 0#32 then s else writeNodes (nodesOf s ++ [Node.newLeaf x (ftAt s.ft x)]) s

/-- `while |WC| > 1` (R150, R157): one merge. -/
def mergeLoop : Loop := fun s c =>
  match mergeOnce (nodesOf s) with
  | none => .leave s c
  | some ns => .more (writeNodes ns s) c

/-- BUILD's loops and statements (R150). -/
def buildLoops : List Loop :=
  [forLoop (fun _ => 511) clearNode,
    statement forgetTree,
    forLoop (fun _ => 256) addLeaf,
    statement fun s => { s with nleaf := s.nodeCnt },
    mergeLoop,
    statement fun s => { s with root := rootOf (nodesOf s) }]

/-- BUILD (R150). -/
def execBuild (s : State) : Host.Outcome State Fault Refusal := .next (command 0x00000003#32 buildBody s)

end Sys2Proof.Machine
end

