-- ==== Sys2Proof/Machine/Count.lean ====
section
/-! DEFINITION. COUNT, the frequency counter (spec/41_count.md R140 to R142). -/

namespace Sys2Proof.Machine

/-- `FT[s] <- FT[s] + 1` (R140, R141). -/
def bump (t : Vector Word 256) (s : Byte) : Vector Word 256 := ftSet t s (ftAt t s + 1#32)

/-- The table after the clear and the first `n` symbols of IBUF (R140). -/
def countTable (ibuf : Buffer) : Nat → Vector Word 256
  | 0 => Vector.replicate 256 0#32
  | n + 1 => bump (countTable ibuf n) (symbolAt ibuf n)

/-- COUNT's body (R140). -/
def countBody : Body := fun s =>
  if s.depths.ibuf.val < s.inLen.toNat then (s, some ⟨.badParam, s.inLen.setWidth 32⟩)
  else ({ s with ft := countTable s.ibuf s.inLen.toNat }, none)

/-- `if IN_LEN > IBUF_DEPTH: raise BAD_PARAM(IN_LEN)` (R140, R200, R274). -/
def inputTooLong (s : State) : Option Raise :=
  if s.depths.ibuf.val < s.inLen.toNat then some ⟨.badParam, s.inLen.setWidth 32⟩ else none

/-- COUNT's loops (R140). -/
def countLoops : List Loop :=
  [require inputTooLong,
    forLoop (fun _ => 256) clearCount,
    forLoop (fun s => s.inLen.toNat) fun i s => { s with ft := bump s.ft (symbolAt s.ibuf i) }]

/-- COUNT (R140). -/
def execCount (s : State) : Host.Outcome State Fault Refusal := .next (command 0x00000002#32 countBody s)

end Sys2Proof.Machine
end

