-- ==== Sys2Proof/Machine/Encode.lean ====
section
/-! DEFINITION. ENCODE, the bit packer (spec/44_encode.md R200 to R205). -/

namespace Sys2Proof.Machine

/-- The packer inside a running ENCODE (R53, R200): bits emitted, the byte being filled, OBUF, the error raised. -/
structure Pack where
  nb : Nat
  acc : Byte
  obuf : Buffer
  raised : Option Raise
  deriving DecidableEq, Repr

/-- `acc[k] <- b` (R200). -/
def setBit (acc : Byte) (k : Nat) (b : Bool) : Byte :=
  if b then acc ||| (1#8 <<< k) else acc &&& ~~~(1#8 <<< k)

/-- One bit into the serial bit-buffer (R200): first bit of a chunk to bit 7; a full byte goes to OBUF. -/
def packBit (p : Pack) (b : Bool) : Pack :=
  let acc := setBit p.acc (7 - p.nb % 8) b
  let nb := p.nb + 1
  if nb % 8 = 0 then { p with nb := nb, acc := 0x00#8, obuf := p.obuf.write (nb / 8 - 1) acc }
  else { p with nb := nb, acc := acc }

/-- The two tests before symbol `i`, whose value is `x`, is emitted (R200, R202): no entry is INVARIANT_VIOLATION, a code
that does not fit is OVERFLOW, in that order. -/
def symbolError (obufDepth : Nat) (ct : Vector Code 256) (i : Nat) (x : Byte) (nb : Nat) : Option Raise :=
  if (ctAt ct x).len = 0#8 then some ⟨.invariantViolation, BitVec.ofNat 32 i⟩
  else if 8 * obufDepth < nb + (ctAt ct x).len.toNat then some ⟨.overflow, BitVec.ofNat 32 i⟩
  else none

/-- Symbol `i`, whose value is `x`, into the packer (R200, R202); once an error is raised nothing more is done. -/
def packSymbol (obufDepth : Nat) (ct : Vector Code 256) (i : Nat) (x : Byte) (p : Pack) : Pack :=
  if p.raised.isSome then p
  else
    match symbolError obufDepth ct i x p.nb with
    | some r => { p with raised := some r }
    | none => (ctAt ct x).str.foldl packBit p

/-- The packer after the first `n` symbols of IBUF (R200). -/
def packSymbols (obufDepth : Nat) (ct : Vector Code 256) (ibuf obuf : Buffer) : Nat → Pack
  | 0 => ⟨0, 0x00#8, obuf, none⟩
  | i + 1 => packSymbol obufDepth ct i (symbolAt ibuf i) (packSymbols obufDepth ct ibuf obuf i)

/-- The last chunk, zero-padded on the right (R200, R201). -/
def flushed (p : Pack) : Buffer := if p.nb % 8 = 0 then p.obuf else p.obuf.write (p.nb / 8) p.acc

/-- ENCODE's body (R200, R202): a failed ENCODE leaves BIT_LEN = 0 and the complete bytes it had written. -/
def encodeBody : Body := fun s =>
  if s.depths.ibuf.val < s.inLen.toNat then (s, some ⟨.badParam, s.inLen.setWidth 32⟩)
  else
    let p := packSymbols s.depths.obuf.val s.ct s.ibuf s.obuf s.inLen.toNat
    match p.raised with
    | some r => ({ s with obuf := p.obuf, bitLen := 0#20 }, some r)
    | none => ({ s with obuf := flushed p, bitLen := BitVec.ofNat 20 p.nb }, none)

/-- The two loops over the symbols and over the bits of a code (R200): the next bit of the current code, or else the next
symbol with its two tests. -/
def encodeLoop : Loop := fun s c =>
  match c.todo with
  | b :: rest =>
    let p := packBit ⟨c.nb, c.acc, s.obuf, none⟩ b
    .more { s with obuf := p.obuf } { c with nb := p.nb, acc := p.acc, todo := rest }
  | [] =>
    if c.idx < s.inLen.toNat then
      let x := symbolAt s.ibuf c.idx
      match symbolError s.depths.obuf.val s.ct c.idx x c.nb with
      | some r => .raised { s with bitLen := 0#20 } r
      | none => .more s { c with idx := c.idx + 1, todo := (ctAt s.ct x).str }
    else .leave s { c with idx := 0 }

/-- `if (nb & 7) != 0: OBUF[nb >> 3] <- acc` (R200). -/
def flushLast : Loop := fun s c => .leave { s with obuf := flushed ⟨c.nb, c.acc, s.obuf, none⟩ } c

/-- `BIT_LEN <- nb` (R200); the bit-buffer is discarded (R53). -/
def setBitLen : Loop := fun s c => .leave { s with bitLen := BitVec.ofNat 20 c.nb } { c with nb := 0, acc := 0x00#8 }

/-- ENCODE's loops and statements (R200). -/
def encodeLoops : List Loop := [require inputTooLong, encodeLoop, flushLast, setBitLen]

/-- ENCODE (R200). -/
def execEncode (s : State) : Host.Outcome State Fault Refusal := .next (command 0x00000005#32 encodeBody s)

end Sys2Proof.Machine
end

