-- ==== Sys2Proof/Machine/Gencodes.lean ====
section
/-! DEFINITION. GENCODES, the code-table generator (spec/43_gencodes.md R180 to R184). -/

namespace Sys2Proof.Machine

/-- `Walk(n, path)` (R180), depth-first, left before right (R184).  A path has at most CODE_MAX = 255 turns (R161), so
`fuel` = 256 levels reach every node of a tree BUILD made (R186 (c)). -/
def walk (node : Vector Node 511) : Nat → NodeIdx → Bits → Vector Code 256 → Vector Code 256
  | 0, _, _, ct => ct
  | fuel + 1, n, path, ct =>
    if n = Config.nullIdx then ct
    else if (nodeAt node n).leaf then ctSet ct (nodeAt node n).sym (Code.ofBits path)
    else
      walk node fuel (nodeAt node n).right (path ++ [true])
        (walk node fuel (nodeAt node n).left (path ++ [false]) ct)

/-- The code table of a tree (R180): empty when there is no tree (R183), the one-bit code "0" when the root is a leaf
(R182), the paths from the root otherwise (R184). -/
def codeTable (node : Vector Node 511) (root : NodeIdx) : Vector Code 256 :=
  let empty : Vector Code 256 := Vector.replicate 256 Code.empty
  if root = Config.nullIdx then empty
  else if (nodeAt node root).leaf then ctSet empty (nodeAt node root).sym (Code.ofBits [false])
  else walk node 256 root [] empty

/-- GENCODES's body (R180). -/
def gencodesBody : Body := fun s => ({ s with ct := codeTable s.node s.root }, none)

/-- The two `if`s before the walk (R180): no tree leaves nothing to walk (R183), a leaf as the root gets the code "0"
(R182), else the walk begins at the root with the empty path (R184). -/
def beginWalk : Loop := fun s c =>
  if s.root = Config.nullIdx then .leave s c
  else if (nodeAt s.node s.root).leaf then
    .leave { s with ct := ctSet s.ct (nodeAt s.node s.root).sym (Code.ofBits [false]) } c
  else .leave s { c with stack := [(s.root, [])] }

/-- One call of `Walk(n, path)` (R180), the calls still to come on the stack (R52): the left subtree before the right.  No
path has more than CODE_MAX turns (R161; notes/assumptions/8.md). -/
def walkLoop : Loop := fun s c =>
  match c.stack with
  | [] => .leave s c
  | (n, path) :: rest =>
    if 256 ≤ path.length ∨ n = Config.nullIdx then .more s { c with stack := rest }
    else if (nodeAt s.node n).leaf then
      .more { s with ct := ctSet s.ct (nodeAt s.node n).sym (Code.ofBits path) } { c with stack := rest }
    else
      .more s { c with
        stack := ((nodeAt s.node n).left, path ++ [false]) :: ((nodeAt s.node n).right, path ++ [true]) :: rest }

/-- GENCODES's loops (R180). -/
def gencodesLoops : List Loop := [forLoop (fun _ => 256) clearCode, beginWalk, walkLoop]

/-- GENCODES (R180). -/
def execGencodes (s : State) : Host.Outcome State Fault Refusal := .next (command 0x00000004#32 gencodesBody s)

end Sys2Proof.Machine
end

