-- ==== Sys2Proof/Machine/Metrics.lean ====
section
/-! DEFINITION. METRICS, the metrics reporter (spec/46_metrics.md R250 to R256). -/

namespace Sys2Proof.Machine

/-- `originalBits - encodedBits` (R250), exact. -/
def reductionBits (ob eb : Nat) : Int := (ob : Int) - (eb : Int)

/-- The reduction in thousandths of a percent (R250, R253, R254): 0 for an empty input, else the greatest integer not
above `100000 x d / ob`. -/
def reduction (ob eb : Nat) : Int :=
  if ob = 0 then 0 else Int.fdiv (100000 * reductionBits ob eb) ob

/-- METRICS's body (R250). -/
def metricsBody : Body := fun s =>
  let ob := s.inLen.toNat * 8
  let eb := s.bitLen.toNat
  ({ s with
      metOrigBits := BitVec.ofNat 20 ob
      metEncBits := s.bitLen
      metDiff := BitVec.ofInt 32 (reductionBits ob eb)
      metRed := BitVec.ofInt 32 (max (reduction ob eb) (-2147483648)) }, none)

/-- METRICS has no loop (R250): it is one statement. -/
def metricsLoops : List Loop := [statement fun s => (metricsBody s).1]

/-- METRICS (R250). -/
def execMetrics (s : State) : Host.Outcome State Fault Refusal := .next (command 0x00000007#32 metricsBody s)

end Sys2Proof.Machine
end

