-- ==== Sys2Proof/Machine/Compress.lean ====
section
/-! DEFINITION. COMPRESS, the whole pipeline (spec/47_compress.md R260 to R264). -/

namespace Sys2Proof.Machine

/-- `STATUS.STAGE <- k; do X` (R260). -/
def inStage (k : BitVec 3) (b : Body) : Body := fun s => b { s with stage := k }

/-- The five stages, in order (R260). -/
def compressStages : List Body :=
  [inStage 0#3 countBody, inStage 1#3 buildBody, inStage 2#3 gencodesBody, inStage 3#3 encodeBody,
    inStage 4#3 metricsBody]

/-- COMPRESS's loops and statements (R260): `STATUS.STAGE <- k`, then those of stage `k`. -/
def compressLoops : List Loop :=
  statement (fun s => { s with stage := 0#3 }) :: countLoops
    ++ statement (fun s => { s with stage := 1#3 }) :: buildLoops
    ++ statement (fun s => { s with stage := 2#3 }) :: gencodesLoops
    ++ statement (fun s => { s with stage := 3#3 }) :: encodeLoops
    ++ statement (fun s => { s with stage := 4#3 }) :: metricsLoops

/-- COMPRESS (R260): the stages in order, stopping at the first that raises. -/
def execCompress (s : State) : Host.Outcome State Fault Refusal :=
  .next (command 0x00000008#32 (runBodies compressStages) s)

end Sys2Proof.Machine
end

