-- ==== Sys2Proof/Machine/Control.lean ====
section
/-! DEFINITION. NOP and CLEAR (spec/40_control.md R123, R124). -/

namespace Sys2Proof.Machine

/-- NOP's body (R123): nothing. -/
def nopBody : Body := fun s => (s, none)

/-- CLEAR's body (R124): every register and table to its reset value, CTRL, SERR and OVR to 0; the buffers keep their
contents. -/
def clearBody : Body := fun s =>
  ({ s with
      ft := Vector.replicate 256 0#32
      ct := Vector.replicate 256 Code.empty
      node := Vector.replicate 511 Node.empty
      nodeCnt := 0#9
      nleaf := 0#9
      root := Config.nullIdx
      inLen := 0#17
      bitLen := 0#20
      decLen := 0#17
      metOrigBits := 0#20
      metEncBits := 0#20
      metDiff := 0#32
      metRed := 0#32
      ie := false
      serr := false
      ovr := false }, none)

/-- NOP (R123). -/
def execNop (s : State) : Host.Outcome State Fault Refusal := .next (command 0x00000000#32 nopBody s)

/-- CLEAR (R124). -/
def execClear (s : State) : Host.Outcome State Fault Refusal := .next (command 0x00000001#32 clearBody s)

/-- CLEAR's loops and statements (R124), the statements in lines as the rule writes them. -/
def clearLoops : List Loop :=
  [forLoop (fun _ => 256) (fun i s => clearCode i (clearCount i s)),
    forLoop (fun _ => 511) clearNode,
    statement forgetTree,
    statement fun s => { s with inLen := 0#17, bitLen := 0#20, decLen := 0#17 },
    statement fun s => { s with metOrigBits := 0#20, metEncBits := 0#20, metDiff := 0#32, metRed := 0#32 },
    statement fun s => { s with ie := false },
    statement fun s => { s with serr := false },
    statement fun s => { s with ovr := false }]

end Sys2Proof.Machine
end

