-- ==== Sys2Proof/Machine/Unpack.lean ====
section
/-! DEFINITION. DECODE.T and DECODE.C, the bit unpacker (spec/45_decode.md R220 to R225): the frame both modes share,
the tree walk, and the match against the code table. -/

namespace Sys2Proof.Machine

/-- What one bit does in a mode (R220): the cursor moves on, a code ended at a symbol, or no code goes on so. -/
inductive Act (γ : Type) where
  | go (cur : γ)
  | emit (sym : Byte)
  | fail
  deriving DecidableEq, Repr

/-- The unpacker inside a running DECODE (R54, R220): symbols emitted, the bit at which the current code began, the
mode's cursor, DBUF, the error raised. -/
structure Unpack (γ : Type) where
  n : Nat
  start : Nat
  cur : γ
  dbuf : Buffer
  raised : Option Raise
  deriving DecidableEq, Repr

/-- `Fail()` (R220): CORRUPT_STREAM at the bit where the unresolved code began. -/
def failAt {γ : Type} (u : Unpack γ) : Unpack γ :=
  { u with raised := some ⟨.corruptStream, BitVec.ofNat 32 u.start⟩ }

/-- `Emit(sym)` at the bit `k` that ended the code (R220), the cursor back to its start. -/
def emitAt {γ : Type} (dbufDepth : Nat) (init : γ) (k : Nat) (sym : Byte) (u : Unpack γ) : Unpack γ :=
  if u.n = dbufDepth then { u with raised := some ⟨.overflow, BitVec.ofNat 32 u.start⟩ }
  else { u with n := u.n + 1, start := k + 1, cur := init, dbuf := u.dbuf.write u.n sym }

/-- Bit `k` of the stream, whose value is `b` (R220); once an error is raised nothing more is done. -/
def unpackBit {γ : Type} (dbufDepth : Nat) (act : γ → Bool → Act γ) (init : γ) (k : Nat) (b : Bool)
    (u : Unpack γ) : Unpack γ :=
  if u.raised.isSome then u
  else
    match act u.cur b with
    | .go c => { u with cur := c }
    | .emit sym => emitAt dbufDepth init k sym u
    | .fail => failAt u

/-- The unpacker after the first `k` bits of OBUF (R220). -/
def unpackBits {γ : Type} (dbufDepth : Nat) (act : γ → Bool → Act γ) (init : γ) (obuf dbuf : Buffer) :
    Nat → Unpack γ
  | 0 => ⟨0, 0, init, dbuf, none⟩
  | k + 1 => unpackBit dbufDepth act init k (streamBit obuf k) (unpackBits dbufDepth act init obuf dbuf k)

/-- The end of the stream (R220): a cursor in mid-code is a failure. -/
def endOfStream {γ : Type} (midCode : γ → Bool) (u : Unpack γ) : Unpack γ :=
  if u.raised.isNone && midCode u.cur then failAt u else u

/-- The frame of DECODE (R220, R225): a failed DECODE leaves DEC_LEN = 0 and the symbols it had emitted. -/
def unpackBody {γ : Type} (act : State → γ → Bool → Act γ) (init : State → γ) (midCode : State → γ → Bool) : Body :=
  fun s =>
    if 8 * s.depths.obuf.val < s.bitLen.toNat then (s, some ⟨.badParam, s.bitLen.setWidth 32⟩)
    else
      let u := endOfStream (midCode s)
        (unpackBits s.depths.dbuf.val (act s) (init s) s.obuf s.dbuf s.bitLen.toNat)
      match u.raised with
      | some r => ({ s with dbuf := u.dbuf, decLen := 0#17 }, some r)
      | none => ({ s with dbuf := u.dbuf, decLen := BitVec.ofNat 17 u.n }, none)

/-- `if BIT_LEN > 8 x OBUF_DEPTH: raise BAD_PARAM(BIT_LEN)` (R220, R274). -/
def streamTooLong (s : State) : Option Raise :=
  if 8 * s.depths.obuf.val < s.bitLen.toNat then some ⟨.badParam, s.bitLen.setWidth 32⟩ else none

/-- The loop over the bits (R220): one bit.  `get` and `put` say where the mode's cursor is kept. -/
def unpackLoop {γ : Type} (act : State → γ → Bool → Act γ) (init : State → γ) (get : Cursor → γ)
    (put : γ → Cursor → Cursor) : Loop := fun s c =>
  if c.idx < s.bitLen.toNat then
    let u := unpackBit s.depths.dbuf.val (act s) (init s) c.idx (streamBit s.obuf c.idx)
      ⟨c.count, c.start, get c, s.dbuf, none⟩
    match u.raised with
    | some r => .raised { s with dbuf := u.dbuf, decLen := 0#17 } r
    | none => .more { s with dbuf := u.dbuf } { put u.cur c with idx := c.idx + 1, count := u.n, start := u.start }
  else .leave s { c with idx := 0 }

/-- `if (mode-specific cursor is in mid-code): Fail()` (R220). -/
def unpackEnd {γ : Type} (midCode : State → γ → Bool) (get : Cursor → γ) : Loop := fun s c =>
  match (endOfStream (midCode s) ⟨c.count, c.start, get c, s.dbuf, none⟩).raised with
  | some r => .raised { s with decLen := 0#17 } r
  | none => .leave s c

/-- `DEC_LEN <- n` (R220); nothing of the cursor survives (R54). -/
def setDecLen : Loop := fun s c => .leave { s with decLen := BitVec.ofNat 17 c.count } Cursor.init

/-- The loops and statements of DECODE in either mode (R220). -/
def unpackLoops {γ : Type} (act : State → γ → Bool → Act γ) (init : State → γ) (midCode : State → γ → Bool)
    (get : Cursor → γ) (put : γ → Cursor → Cursor) : List Loop :=
  [require streamTooLong, fun s c => .leave s (put (init s) c), unpackLoop act init get put, unpackEnd midCode get,
    setDecLen]

/-- One bit of the walk over a full tree (R221). -/
def walkBit (node : Vector Node 511) (cur : NodeIdx) (b : Bool) : Act NodeIdx :=
  let next := if b then (nodeAt node cur).right else (nodeAt node cur).left
  if (nodeAt node next).leaf then .emit (nodeAt node next).sym else .go next

/-- DECODE.T's step (R221 to R223): no tree fails on any bit; a single leaf emits on 0 and fails on 1; a full tree is
walked. -/
def treeAct (s : State) (cur : NodeIdx) (b : Bool) : Act NodeIdx :=
  if s.nleaf = 0#9 then .fail
  else if s.nleaf = 1#9 then (if b then .fail else .emit (nodeAt s.node s.root).sym)
  else walkBit s.node cur b

/-- Whether an entry is the accumulated bit-string (R224). -/
def Code.matches (acc : Bits) (c : Code) : Bool := decide (c.len.toNat = acc.length) && decide (c.str = acc)

/-- `min(M)` (R224): the least symbol whose code is the accumulated bit-string. -/
def leastMatch (ct : Vector Code 256) (acc : Bits) : Option Byte :=
  (ct.toList.findIdx? (Code.matches acc)).map (BitVec.ofNat 8)

/-- DECODE.C's step (R224). -/
def tableAct (s : State) (acc : Bits) (b : Bool) : Act Bits :=
  match leastMatch s.ct (acc ++ [b]) with
  | some sym => .emit sym
  | none => .go (acc ++ [b])

/-- DECODE.T's body: the cursor is a node index, in mid-code when it is not ROOT (R221). -/
def decodeTBody : Body := unpackBody treeAct (fun s => s.root) (fun s cur => decide (cur ≠ s.root))

/-- DECODE.C's body: the cursor is a bit-string, in mid-code when it is not empty (R224). -/
def decodeCBody : Body := unpackBody tableAct (fun _ => []) (fun _ acc => !acc.isEmpty)

/-- DECODE.T's loops (R220, R221). -/
def decodeTLoops : List Loop :=
  unpackLoops treeAct (fun s => s.root) (fun s cur => decide (cur ≠ s.root)) Cursor.cur fun cur c => { c with cur := cur }

/-- DECODE.C's loops (R220, R224). -/
def decodeCLoops : List Loop :=
  unpackLoops tableAct (fun _ => []) (fun _ acc => !acc.isEmpty) Cursor.path fun acc c => { c with path := acc }

/-- DECODE.T (R221). -/
def execDecodeT (s : State) : Host.Outcome State Fault Refusal := .next (command 0x00000006#32 decodeTBody s)

/-- DECODE.C (R224). -/
def execDecodeC (s : State) : Host.Outcome State Fault Refusal := .next (command 0x00000106#32 decodeCBody s)

end Sys2Proof.Machine
end

