-- ==== Sys2Proof/Machine/Dispatch.lean ====
section
/-! DEFINITION. One arm per command: each calls the meaning of its instruction. -/

namespace Sys2Proof.Machine

def exec (i : Instr) (s : State) : Host.Outcome State Fault Refusal :=
  match i with
  | .nop => Sys2Proof.Machine.execNop s
  | .clear => Sys2Proof.Machine.execClear s
  | .count => Sys2Proof.Machine.execCount s
  | .build => Sys2Proof.Machine.execBuild s
  | .gencodes => Sys2Proof.Machine.execGencodes s
  | .encode => Sys2Proof.Machine.execEncode s
  | .decodeT => Sys2Proof.Machine.execDecodeT s
  | .decodeC => Sys2Proof.Machine.execDecodeC s
  | .metrics => Sys2Proof.Machine.execMetrics s
  | .compress => Sys2Proof.Machine.execCompress s

end Sys2Proof.Machine
end

