-- ==== Sys2Proof/Machine/Engine.lean ====
section
/-! DEFINITION. The engine as an agent that takes its own steps (spec/10_state.md R20, R57; spec/20_memory.md R72): between
two of its small steps the host may look in. -/

namespace Sys2Proof.Machine

/-- The loops and statements of a command's rule. -/
def loopsOf : Instr → List Loop
  | .nop => []
  | .clear => clearLoops
  | .count => countLoops
  | .build => buildLoops
  | .gencodes => gencodesLoops
  | .encode => encodeLoops
  | .decodeT => decodeTLoops
  | .decodeC => decodeCLoops
  | .metrics => metricsLoops
  | .compress => compressLoops

/-- Those of an accepted word: an illegal one raises ILLEGAL_CMD at decode (R120, R275, R278). -/
def loopsOfWord (w : Word) : List Loop :=
  match decode w with
  | .ok i => loopsOf i
  | .error _ => [require fun _ => some ⟨.illegalCmd, w⟩]

/-- One small step of the running command `r`, which is at the loop `l`. -/
def runLoop (l : Loop) (r : Running) (s : State) : State :=
  match l s r.cursor with
  | .more t c => { t with engine := some { r with cursor := c } }
  | .leave t c => { t with engine := some { r with loop := r.loop + 1, cursor := c } }
  | .raised t e => { t with engine := some { r with cursor := Cursor.init, raised := some e } }

/-- One action of the engine (R57): completion when an error was raised or the rule has run to its end (R122), else one
small step; nothing while idle. -/
def advance (s : State) : State :=
  match s.engine with
  | none => s
  | some r =>
    match r.raised, (loopsOfWord r.word)[r.loop]? with
    | some e, _ => complete (some e) s
    | none, none => complete none s
    | none, some l => runLoop l r s

/-- `k` actions of the engine with no host access between them. -/
def advanceMany : Nat → State → State
  | 0, s => s
  | k + 1, s => advanceMany k (advance s)

end Sys2Proof.Machine
end

