-- ==== Sys2Proof/Machine/Port.lean ====
section
/-! DEFINITION. The host port (spec/20_memory.md R60 to R72; spec/30_encoding.md R98 to R100): the address map, the
images of registers, tables and buffers, reads and writes while idle, and what an access does while BUSY = 1. -/

namespace Sys2Proof.Machine

/-- The 19 registers of R40. -/
inductive Reg where
  | id | cmd | status | ctrl | errInfo | inLen | bitLen | decLen | outBytes | nodeCnt | nleaf | root
  | metOrigBits | metEncBits | metDiff | metRed | capIbuf | capObuf | capDbuf
  deriving DecidableEq, Repr

/-- The registers in the order of their offsets: word `k` of the map is entry `k` (R40). -/
def regMap : List Reg :=
  [.id, .cmd, .status, .ctrl, .errInfo, .inLen, .bitLen, .decLen, .outBytes, .nodeCnt, .nleaf, .root,
    .metOrigBits, .metEncBits, .metDiff, .metRed, .capIbuf, .capObuf, .capDbuf]

/-- The three byte buffers. -/
inductive Space where
  | ibuf | obuf | dbuf
  deriving DecidableEq, Repr

/-- What a word of the map is: the abstract access `(space, index, word-within-element)` of R62. -/
inductive Loc where
  | reg (r : Reg)
  | ft (s : Byte)
  | node (n : NodeIdx) (k : Nat)
  | ct (s : Byte) (k : Nat)
  | buf (sp : Space) (word : Nat)
  | hole
  deriving DecidableEq, Repr

/-- The address map (R60, R61) over word indices, byte address `4 x w`. -/
def locate (a : WordAddr) : Loc :=
  let w := a.toNat
  if w < 256 then
    match regMap[w]? with
    | some r => .reg r
    | none => .hole
  else if w < 512 then .ft (BitVec.ofNat 8 (w - 256))
  else if w < 2048 then .hole
  else if w < 4092 then .node (BitVec.ofNat 9 ((w - 2048) / 4)) ((w - 2048) % 4)
  else if w < 4096 then .hole
  else if w < 8192 then
    if (w - 4096) % 16 < 9 then .ct (BitVec.ofNat 8 ((w - 4096) / 16)) ((w - 4096) % 16) else .hole
  else if w < 16384 then .hole
  else if w < 32768 then .buf .ibuf (w - 16384)
  else if w < 49152 then .buf .obuf (w - 32768)
  else .buf .dbuf (w - 49152)

/-- The word a register reads as (R22 to R39). -/
def readReg (s : State) : Reg → Word
  | .id => Config.idWord
  | .cmd => 0#32
  | .status => s.statusWord
  | .ctrl => s.ctrlWord
  | .errInfo => s.errInfo
  | .inLen => s.inLen.setWidth 32
  | .bitLen => s.bitLen.setWidth 32
  | .decLen => s.decLen.setWidth 32
  | .outBytes => BitVec.ofNat 32 s.outBytes
  | .nodeCnt => s.nodeCnt.setWidth 32
  | .nleaf => s.nleaf.setWidth 32
  | .root => s.root.setWidth 32
  | .metOrigBits => s.metOrigBits.setWidth 32
  | .metEncBits => s.metEncBits.setWidth 32
  | .metDiff => s.metDiff
  | .metRed => s.metRed
  | .capIbuf => BitVec.ofNat 32 s.depths.ibuf.val
  | .capObuf => BitVec.ofNat 32 s.depths.obuf.val
  | .capDbuf => BitVec.ofNat 32 s.depths.dbuf.val

/-- Word `k` of the image of a NODE entry (R98). -/
def Node.image (n : Node) (k : Nat) : Word :=
  match k with
  | 0 => 0#16 ++ n.sym ++ 0#6 ++ BitVec.ofBool n.active ++ BitVec.ofBool n.leaf
  | 1 => n.weight.extractLsb' 0 32
  | 2 => 0#24 ++ n.weight.extractLsb' 32 8
  | 3 => 0#7 ++ n.right ++ 0#7 ++ n.left
  | _ => 0#32

/-- Word `k` of the image of a CT entry (R99): word 0 is LEN, word `k` in 1 to 8 is `BITS[32k - 1 : 32(k - 1)]`, bit 31
of word 8 reading 0. -/
def Code.image (c : Code) (k : Nat) : Word :=
  if k = 0 then c.len.setWidth 32
  else if k < 9 then c.bits.extractLsb' (32 * (k - 1)) 32
  else 0#32

/-- A host write of word `k` of a CT entry (R99): the bits that do not exist are dropped. -/
def Code.writeWord (c : Code) (k : Nat) (w : Word) : Code :=
  if k = 0 then { c with len := w.extractLsb' 0 8 }
  else if k < 9 then
    let mask : BitVec 255 := (BitVec.allOnes 32).setWidth 255 <<< (32 * (k - 1))
    { c with bits := (c.bits &&& ~~~mask) ||| (w.setWidth 255 <<< (32 * (k - 1))) }
  else c

/-- The contents of a buffer. -/
def State.buffer (s : State) : Space → Buffer
  | .ibuf => s.ibuf
  | .obuf => s.obuf
  | .dbuf => s.dbuf

/-- The depth of a buffer (R6). -/
def State.depth (s : State) : Space → Nat
  | .ibuf => s.depths.ibuf.val
  | .obuf => s.depths.obuf.val
  | .dbuf => s.depths.dbuf.val

/-- Element `i` as the host sees it: an element at or above the depth does not exist and reads 0 (R61;
notes/assumptions/5.md). -/
def hostByte (depth : Nat) (m : Buffer) (i : Nat) : Byte := if i < depth then m.read i else 0#8

/-- A host write of element `i`; an element at or above the depth does not exist and ignores it (R61;
notes/assumptions/5.md). -/
def hostPut (depth : Nat) (m : Buffer) (i : Nat) (v : Byte) : Buffer := if i < depth then m.write i v else m

/-- Buffer word `k` (R64): byte `4k` in the low bits. -/
def bufferWord (depth : Nat) (m : Buffer) (k : Nat) : Word :=
  hostByte depth m (4 * k + 3) ++ hostByte depth m (4 * k + 2) ++ hostByte depth m (4 * k + 1)
    ++ hostByte depth m (4 * k)

/-- A host write of buffer word `k` (R64). -/
def putBufferWord (depth : Nat) (m : Buffer) (k : Nat) (w : Word) : Buffer :=
  hostPut depth
    (hostPut depth
      (hostPut depth (hostPut depth m (4 * k) (w.extractLsb' 0 8)) (4 * k + 1) (w.extractLsb' 8 8))
      (4 * k + 2) (w.extractLsb' 16 8))
    (4 * k + 3) (w.extractLsb' 24 8)

/-- The word at a place of the map while the engine is idle (R60 to R67). -/
def readLoc (s : State) : Loc → Word
  | .reg r => readReg s r
  | .ft x => ftAt s.ft x
  | .node n k => (nodeAt s.node n).image k
  | .ct x k => (ctAt s.ct x).image k
  | .buf sp k => bufferWord (s.depth sp) (s.buffer sp) k
  | .hole => 0#32

/-- `HostRead(a)` while idle (R62, R70): no side effect, one word. -/
def peek (s : State) (a : WordAddr) : Word := readLoc s (locate a)

/-- A host write to a register other than CMD (R70): a RW register stores its writable bits, STATUS clears its W1C bits,
a RO register ignores the write. -/
def writeReg (s : State) (w : Word) : Reg → State
  | .status => s.writeStatus w
  | .ctrl => { s with ie := w.getLsbD 0 }
  | .inLen => { s with inLen := w.extractLsb' 0 17 }
  | .bitLen => { s with bitLen := w.extractLsb' 0 20 }
  | .id => s
  | .cmd => s
  | .errInfo => s
  | .decLen => s
  | .outBytes => s
  | .nodeCnt => s
  | .nleaf => s
  | .root => s
  | .metOrigBits => s
  | .metEncBits => s
  | .metDiff => s
  | .metRed => s
  | .capIbuf => s
  | .capObuf => s
  | .capDbuf => s

/-- A host write to a place of the map other than CMD while idle (R60, R61, R70): FT, CT, IBUF and OBUF are RW, NODE and
DBUF are RO, holes ignore writes. -/
def writeLoc (s : State) (w : Word) : Loc → State
  | .reg r => writeReg s w r
  | .ft x => { s with ft := ftSet s.ft x w }
  | .node _ _ => s
  | .ct x k => { s with ct := ctSet s.ct x ((ctAt s.ct x).writeWord k w) }
  | .buf .ibuf k => { s with ibuf := putBufferWord s.depths.ibuf.val s.ibuf k w }
  | .buf .obuf k => { s with obuf := putBufferWord s.depths.obuf.val s.obuf k w }
  | .buf .dbuf _ => s
  | .hole => s

/-- `HostWrite(a, w)` with `a` not CMD, while idle (R57, R62, R70). -/
def poke (s : State) (a : WordAddr) (w : Word) : State := writeLoc s w (locate a)

/-- The registers whose reads stay correct while BUSY (R72 (a)). -/
def readableWhileBusy : Loc → Bool
  | .reg .id => true
  | .reg .status => true
  | .reg .ctrl => true
  | .reg .capIbuf => true
  | .reg .capObuf => true
  | .reg .capDbuf => true
  | _ => false

/-- The host is handed an answer. -/
def answer (a : Answer) (s : State) : State := { s with answers := a :: s.answers }

/-- A host read at any time (R62, R72): the correct word while idle and for the registers of R72 (a); otherwise an
unspecified one (U4, notes/assumptions/2.md), a fresh free value each time. -/
def hostRead (a : WordAddr) (s : State) : State :=
  if s.busy && !readableWhileBusy (locate a) then
    answer (.word (Config.busyWord s.freeReads)) { s with freeReads := s.freeReads + 1 }
  else answer (.word (peek s a)) s

/-- A host write while BUSY, to any address (R72 (c), R125): dropped, and OVR set. -/
def dropWrite (s : State) : State := { s with ovr := true }

/-- The host looks at the interrupt line (R20, R284). -/
def observeIrq (s : State) : State := answer (.line s.irq) s

/-- A CMD write by a host that does not wait (R72, R120, R125): accepted while idle, dropped while BUSY. -/
def startCommand (w : Word) (s : State) : State := if s.busy then dropWrite s else accept w s

/-- The word index of CMD, byte address `0x004` (R25). -/
def cmdAddr : WordAddr := 1#16

/-- The reset event (R300, R301): from any state, a running command abandoned without completion; the buffers hold what
the event brings (R302). -/
def resetTo (i o b : Buffer) (s : State) : State :=
  State.afterReset s.depths i o b s.pending s.answers s.freeReads

end Sys2Proof.Machine
end

