-- ==== Sys2Proof/Machine/Step.lean ====
section
/-! DEFINITION. One transition of the HEC (spec/10_state.md R57): the next event of the script, or, with none left, an
action of the engine.  The HEC fetches nothing (R23): its next instruction is the word of the next write to CMD. -/

namespace Sys2Proof.Machine

/-- `exec(w, S)` (R57, R126): the command the word names, or the illegal word's completion (R96). -/
def execWord (w : Word) (s : State) : Host.Outcome State Fault Refusal :=
  match decode w with
  | .ok i => exec i s
  | .error _ => .next (illegal w s)

/-- `HostWrite(a, w)` by a host that obeys R310: dropped while BUSY (R72); a command when `a` is CMD; else the write. -/
def hostWrite (a : WordAddr) (w : Word) (s : State) : Host.Outcome State Fault Refusal :=
  if s.busy then .next (dropWrite s)
  else if a = cmdAddr then execWord w s
  else .next (poke s a w)

/-- One event (R57). -/
def handle (e : Event) (s : State) : Host.Outcome State Fault Refusal :=
  match e with
  | .reset i o b => .next (resetTo i o b s)
  | .read a => .next (hostRead a s)
  | .write a w => hostWrite a w s
  | .observeIrq => .next (observeIrq s)
  | .start w => .next (startCommand w s)
  | .engine => .next (advance s)

/-- One step: the next event of the script; when the script is empty the engine goes on, and an idle HEC stays as it is
(R290, R303). -/
def step (s : State) : Host.Outcome State Fault Refusal :=
  match s.pending with
  | [] => .next (advance s)
  | e :: rest => handle e { s with pending := rest }

/-- `s` with the command word `w` next to be written to CMD, and the engine idle to accept it. -/
def State.withFetchWord (s : State) (nbits w : Nat) : State :=
  { s with
    engine := none
    pending := .write cmdAddr (BitVec.ofNat 32 (w % 2 ^ nbits)) :: s.pending }

end Sys2Proof.Machine
end

