-- ==== Sys2Proof/Safety.lean ====
section
/-! DEFINITION. The terms the statements use: completion with and without an error, what a table says of a symbol, the
stream of a sequence of symbols, the shape of a tree BUILD leaves, and the invariant of the machine. -/

namespace Sys2Proof.Machine

/-- `s` as a command with word `w` that raised nothing leaves its status (R120, R122, R126). -/
def State.completed (w : Word) (s : State) : State :=
  { s with
    done := true
    err := none
    errInfo := 0#32
    op := opField w
    stage := 0#3
    engine := none }

/-- `s` as a command with word `w` that raised `kind` with detail `info` leaves its status (R120, R122, R276). -/
def State.failed (w : Word) (kind : ErrKind) (info : Nat) (s : State) : State :=
  { s with
    done := true
    serr := true
    err := some kind
    errInfo := BitVec.ofNat 32 info
    op := opField w
    stage := 0#3
    engine := none }

/-- `#{ i | 0 <= i < n and IBUF[i] = x }` (R140). -/
def occurrences (ibuf : Buffer) (n : Nat) (x : Byte) : Nat :=
  ((List.range n).filter fun i => decide (symbolAt ibuf i = x)).length

/-- The first `n` symbols of a buffer. -/
def symbolsOf (m : Buffer) (n : Nat) : List Byte := (List.range n).map (symbolAt m)

/-- `code(x)` of a code table (R46). -/
def codeOf (ct : Vector Code 256) (x : Byte) : Bits := (ctAt ct x).str

/-- `code(x_0) ++ ... ++ code(x_{L-1})` (R101). -/
def streamOf (ct : Vector Code 256) (xs : List Byte) : Bits := xs.flatMap (codeOf ct)

/-- The first `n` bits of the packed stream in OBUF (R65). -/
def packedBits (obuf : Buffer) (n : Nat) : Bits := (List.range n).map (streamBit obuf)

/-- The sum of all `FT[s]` (R162). -/
def totalCount (ft : Vector Word 256) : Nat := (ft.toList.map BitVec.toNat).sum

/-- How many symbols have a non-zero count: the document's N (R33). -/
def distinctSymbols (ft : Vector Word 256) : Nat := (ft.toList.filter fun c => decide (c ≠ 0#32)).length

/-- The code table COUNT, BUILD and GENCODES make of the input in IBUF (R260). -/
def State.ownCodes (s : State) : Vector Code 256 :=
  let ns := treeOf (countTable s.ibuf s.inLen.toNat)
  codeTable (nodeMemory ns) (rootOf ns)

/-- No code of the table is a prefix of another symbol's (R185 (b)), for the symbols that have an entry. -/
def PrefixFree (ct : Vector Code 256) : Prop :=
  ∀ a b : Byte, a ≠ b → (ctAt ct a).len ≠ 0#8 → (ctAt ct b).len ≠ 0#8 → ¬ (codeOf ct a <+: codeOf ct b)

/-- The child a bit leads to (R180: 0 left, 1 right). -/
def childOf (node : Vector Node 511) (n : NodeIdx) (b : Bool) : NodeIdx :=
  if b then (nodeAt node n).right else (nodeAt node n).left

/-- The node a sequence of turns leads to, `none` where it would have to go on from a leaf (R180). -/
def descend (node : Vector Node 511) : NodeIdx → Bits → Option NodeIdx
  | n, [] => some n
  | n, b :: p => if (nodeAt node n).leaf then none else descend node (childOf node n b) p

/-- When BUILD created node `n`, node `m` was in the working collection (R45, R155): it is older than `n`, and no internal
node older than `n` has it as a child. -/
def State.waitsFor (s : State) (n m : NodeIdx) : Prop :=
  m.toNat < n.toNat ∧
    ∀ (p : NodeIdx) (b : Bool), s.nleaf.toNat ≤ p.toNat → p.toNat < n.toNat → childOf s.node p b ≠ m

/-- `less(a, b)` (R11) of two nodes of the NODE memory: by weight, then by creation order. -/
def State.less (s : State) (a b : NodeIdx) : Prop :=
  (nodeAt s.node a).weight.toNat < (nodeAt s.node b).weight.toNat ∨
    ((nodeAt s.node a).weight = (nodeAt s.node b).weight ∧ a.toNat < b.toNat)

/-- The shape of the node memory R47 and R56 (b), (c), (d), (f) give: what a BUILD leaves, and reset and CLEAR. -/
structure TreeShape (s : State) : Prop where
  /-- At most one leaf per symbol (R33). -/
  leavesBound : s.nleaf.toNat ≤ 256
  /-- `NODE_CNT = 2 x NLEAF - 1`, 0 without leaves (R160). -/
  count : s.nodeCnt.toNat = 2 * s.nleaf.toNat - 1
  /-- No leaves: no tree (R47, R153). -/
  rootNone : s.nleaf.toNat = 0 → s.root = Config.nullIdx
  /-- One leaf or more: the root is the last node created (R47, R157). -/
  rootLast : 1 ≤ s.nleaf.toNat → s.root.toNat = s.nodeCnt.toNat - 1
  /-- Entries `0 .. NLEAF-1` are leaves without children (R43, R152). -/
  leaves : ∀ n : NodeIdx, n.toNat < s.nleaf.toNat →
    (nodeAt s.node n).leaf = true ∧ (nodeAt s.node n).left = Config.nullIdx ∧
      (nodeAt s.node n).right = Config.nullIdx
  /-- Leaves stand in ascending symbol value (R152). -/
  ascending : ∀ m n : NodeIdx, m.toNat < n.toNat → n.toNat < s.nleaf.toNat →
    (nodeAt s.node m).sym.toNat < (nodeAt s.node n).sym.toNat
  /-- Entries `NLEAF .. NODE_CNT-1` are internal nodes over two different older nodes, whose weights they add (R156,
  R161). -/
  internals : ∀ n : NodeIdx, s.nleaf.toNat ≤ n.toNat → n.toNat < s.nodeCnt.toNat →
    (nodeAt s.node n).leaf = false ∧ (nodeAt s.node n).sym = 0#8 ∧
      (nodeAt s.node n).left.toNat < n.toNat ∧ (nodeAt s.node n).right.toNat < n.toNat ∧
      (nodeAt s.node n).left ≠ (nodeAt s.node n).right ∧
      (nodeAt s.node n).weight.toNat =
        (nodeAt s.node (nodeAt s.node n).left).weight.toNat + (nodeAt s.node (nodeAt s.node n).right).weight.toNat
  /-- Every node but the root is the child of an internal node (R56 (d), R161). -/
  hasParent : ∀ n : NodeIdx, n.toNat < s.nodeCnt.toNat → n ≠ s.root →
    ∃ p : NodeIdx, ∃ b : Bool, s.nleaf.toNat ≤ p.toNat ∧ p.toNat < s.nodeCnt.toNat ∧ childOf s.node p b = n
  /-- No node has more than one parent, nor is both children of one (R56 (d), R161). -/
  oneParent : ∀ p q : NodeIdx, ∀ b c : Bool, s.nleaf.toNat ≤ p.toNat → p.toNat < s.nodeCnt.toNat →
    s.nleaf.toNat ≤ q.toNat → q.toNat < s.nodeCnt.toNat → childOf s.node p b = childOf s.node q c → p = q ∧ b = c
  /-- Exactly the root is ACTIVE (R45, R56 (f)). -/
  active : ∀ n : NodeIdx, n.toNat < s.nodeCnt.toNat → ((nodeAt s.node n).active = true ↔ n = s.root)
  /-- Entries at and above NODE_CNT are all zero (R43, R151). -/
  unused : ∀ n : NodeIdx, s.nodeCnt.toNat ≤ n.toNat → nodeAt s.node n = Node.empty

/-- The buffers are canonical and hold nothing above their depths. -/
def State.memWf (s : State) : Bool :=
  Buffer.wf s.depths.ibuf.val s.ibuf && Buffer.wf s.depths.obuf.val s.obuf && Buffer.wf s.depths.dbuf.val s.dbuf

/-- What a state is but for what a host's accesses to a running HEC leave behind (R72): OVR, its script, its answers. -/
def State.withoutHost (s : State) : State := { s with ovr := false, pending := [], answers := [], freeReads := 0 }

/-- Whether the running command is one that writes NODE, NODE_CNT, NLEAF or ROOT (R124, R150, R260): between its small steps
they need not form a tree. -/
def State.rebuildsTree (s : State) : Bool :=
  match s.engine with
  | none => false
  | some r => decide (decode r.word = .ok .clear ∨ decode r.word = .ok .build ∨ decode r.word = .ok .compress)

/-- What ENCODE and DECODE have emitted so far, and the rest of the code ENCODE is emitting, fit their buffers (R200, R220,
R225). -/
def Cursor.fits (d : Config.Depths) (c : Cursor) : Prop :=
  c.nb + c.todo.length ≤ 8 * d.obuf.val ∧ c.count ≤ d.dbuf.val

/-- A running command is on its course: the host's accesses apart, the state is what some number of the engine's own actions
make of the acceptance of its word in an idle state with a tree of R47 (R72: "the running command is never disturbed"). -/
def State.onCourse (s : State) (w : Word) : Prop :=
  ∃ (s0 : State) (k : Nat), s0.busy = false ∧ TreeShape s0 ∧ s.withoutHost = (advanceMany k (accept w s0)).withoutHost

/-- The invariant of the machine. -/
structure Inv (s : State) : Prop where
  /-- Every buffer keeps its canonical form (R48 to R50, R78). -/
  mem : s.memWf = true
  /-- So does the contents every Reset event still to come brings (R302). -/
  script : ∀ e ∈ s.pending, Event.wf s.depths e = true
  /-- The node memory is one of the three kinds of R47, but while a command is rebuilding it. -/
  tree : s.rebuildsTree = false → TreeShape s
  /-- DEC_LEN counts symbols of DBUF (R30, R225). -/
  decLen : s.decLen.toNat ≤ s.depths.dbuf.val
  /-- STAGE is a stage of COMPRESS (R261). -/
  stage : s.stage.toNat ≤ 4
  /-- While BUSY, neither DONE nor an error is on display (R72 (a), R120). -/
  running : s.busy = true → s.done = false ∧ s.err = none
  /-- The place a running command has reached stays within the buffers. -/
  cursor : ∀ r, s.engine = some r → r.cursor.fits s.depths
  /-- Whatever the host does while it runs, a command stays on its course (R72). -/
  course : ∀ r, s.engine = some r → s.onCourse r.word

end Sys2Proof.Machine
end

