-- ==== Sys2Proof/Certificates/Slice0/Obligations.lean ====
section
/-! DEFINITION. The statements for the provers, each from a numbered rule of spec/ (or from a convention of the model, as
its docstring says). -/

open Sys2Proof Sys2Proof.Machine

/-! ### The command word -/

/-- R95: the ten command words of the opcode table, written out, are the ten commands. -/
def Obligations.CommandWordsDecodeAsTabulated : Prop :=
  decode 0x00000000#32 = .ok .nop ∧ decode 0x00000001#32 = .ok .clear ∧ decode 0x00000002#32 = .ok .count ∧
  decode 0x00000003#32 = .ok .build ∧ decode 0x00000004#32 = .ok .gencodes ∧ decode 0x00000005#32 = .ok .encode ∧
  decode 0x00000006#32 = .ok .decodeT ∧ decode 0x00000106#32 = .ok .decodeC ∧ decode 0x00000007#32 = .ok .metrics ∧
  decode 0x00000008#32 = .ok .compress

/-- The encoder and the decoder agree, both ways: each command's word decodes to it, and a word that decodes to a command
is that command's word, so every word has at most one meaning (R95: every bit of a command word is fixed). -/
def Obligations.DecodeAndEncodeAgree : Prop :=
  (∀ i : Instr, i.wf = true → decode (encode i) = .ok i) ∧
  (∀ (w : Word) (i : Instr), decode w = .ok i → encode i = w)

/-- R94: a word is illegal exactly when a reserved bit is set, the opcode is above 0x08, or M is set with an OP other than
0x06. -/
def Obligations.IllegalWordsAreThoseOfTheRule : Prop :=
  ∀ w : Word,
    (∃ e, decode w = .error e) ↔
      (w.extractLsb' 9 23 ≠ 0#23 ∨ 8 < (w.extractLsb' 0 8).toNat ∨
        (w.getLsbD 8 = true ∧ w.extractLsb' 0 8 ≠ 0x06#8))

/-! ### One step -/

/-- A step runs the decoded command: an idle HEC whose next event is a write of `w` to CMD, `w` decoding to `i`, steps as
`exec i` from the state with that event taken off the script (R25, R57). -/
def Obligations.StepRunsDecodedCommand : Prop :=
  (∀ (s : State) (w : Word) (i : Instr) (rest : List Event),
    s.busy = false → s.pending = .write 1#16 w :: rest → decode w = .ok i →
      step s = exec i { s with pending := rest }) ∧
  (∀ (s : State) (w : Word) (i : Instr), decode w = .ok i →
      step (s.withFetchWord 32 w.toNat) = exec i { s with engine := none })

/-- R275, R96: an illegal word written to CMD while idle completes with ILLEGAL_CMD, the word in ERR_INFO, its low byte in
OP, and no data state changed. -/
def Obligations.IllegalWordCompletesWithIllegalCmd : Prop :=
  ∀ (s : State) (w : Word) (rest : List Event),
    s.busy = false → s.pending = .write 1#16 w :: rest → (∀ i, decode w ≠ .ok i) →
      step s = .next (State.failed w .illegalCmd w.toNat { s with pending := rest }) ∧
      errCode (some ErrKind.illegalCmd) = 5#4

/-- R121, R270: every step answers a next state; no event, word or state stops the machine. -/
def Obligations.EveryStepAnswersNext : Prop :=
  ∀ s : State, ∃ t, step s = .next t

/-- R122, R126: every command from every state completes: DONE set, BUSY clear, OP the opcode, STAGE 0 unless the command
is COMPRESS, and the interrupt line at the level of IE (R284). -/
def Obligations.EveryCommandCompletes : Prop :=
  ∀ (i : Instr) (s : State), ∃ t, exec i s = .next t ∧ t.done = true ∧ t.busy = false ∧ t.op = opcodeOf i ∧
    (i ≠ .compress → t.stage = 0#3) ∧ (t.err = none → t.errInfo = 0#32) ∧ t.irq = t.ie

/-- R279: SERR is set by a completion with an error and kept by every other; CLEAR clears it. -/
def Obligations.StickyErrorFlag : Prop :=
  (∀ (i : Instr) (s t : State), i ≠ .clear → exec i s = .next t →
    t.serr = (s.serr || t.err.isSome) ∧ t.ovr = s.ovr ∧ t.ie = s.ie) ∧
  (∀ s t : State, exec .clear s = .next t → t.serr = false ∧ t.err = none)

/-! ### NOP and CLEAR -/

/-- R123: NOP writes the flags of acceptance and completion and nothing else. -/
def Obligations.NopWritesOnlyStatus : Prop :=
  ∀ s : State, exec .nop s = .next (State.completed 0x00000000#32 s)

/-- R124: CLEAR puts every register and table at its reset value and keeps IBUF, OBUF and DBUF. -/
def Obligations.ClearRestoresResetValues : Prop :=
  ∀ s : State, exec .clear s = .next (State.completed 0x00000001#32
    { s with
      ft := Vector.replicate 256 0#32
      ct := Vector.replicate 256 ⟨0#8, 0#255⟩
      node := Vector.replicate 511 ⟨false, false, 0#8, 0#40, 0#9, 0#9⟩
      nodeCnt := 0#9, nleaf := 0#9, root := 0x1FF#9, inLen := 0#17, bitLen := 0#20, decLen := 0#17
      metOrigBits := 0#20, metEncBits := 0#20, metDiff := 0#32, metRed := 0#32
      ie := false, serr := false, ovr := false })

/-! ### The length checks -/

/-- R274: COUNT, ENCODE and COMPRESS with IN_LEN above IBUF_DEPTH, and DECODE with BIT_LEN above 8 x OBUF_DEPTH, end with
BAD_PARAM, the length in ERR_INFO, before any data is touched; BUILD, GENCODES, METRICS, NOP and CLEAR never do. -/
def Obligations.LengthAboveBufferIsBadParam : Prop :=
  (∀ s : State, s.depths.ibuf.val < s.inLen.toNat →
    exec .count s = .next (State.failed 0x00000002#32 .badParam s.inLen.toNat s) ∧
    exec .encode s = .next (State.failed 0x00000005#32 .badParam s.inLen.toNat s) ∧
    exec .compress s = .next (State.failed 0x00000008#32 .badParam s.inLen.toNat s)) ∧
  (∀ s : State, 8 * s.depths.obuf.val < s.bitLen.toNat →
    exec .decodeT s = .next (State.failed 0x00000006#32 .badParam s.bitLen.toNat s) ∧
    exec .decodeC s = .next (State.failed 0x00000106#32 .badParam s.bitLen.toNat s)) ∧
  (∀ (i : Instr) (s t : State), i ∈ [Instr.build, .gencodes, .metrics, .nop, .clear] → exec i s = .next t →
    t.err = none) ∧
  errCode (some ErrKind.badParam) = 4#4

/-! ### COUNT -/

/-- R140: COUNT leaves in FT, for every symbol, how often it occurs in `IBUF[0 .. IN_LEN-1]`, and writes nothing else but
the status; with IN_LEN above IBUF_DEPTH it raises BAD_PARAM and leaves FT. -/
def Obligations.CountTabulatesOccurrences : Prop :=
  (∀ s : State, s.inLen.toNat ≤ s.depths.ibuf.val →
    ∃ ft : Vector Word 256, exec .count s = .next (State.completed 0x00000002#32 { s with ft := ft }) ∧
      ∀ x : Byte, (ftAt ft x).toNat = occurrences s.ibuf s.inLen.toNat x) ∧
  (∀ s : State, s.depths.ibuf.val < s.inLen.toNat →
    exec .count s = .next (State.failed 0x00000002#32 .badParam s.inLen.toNat s))

/-- R142 (c): after a COUNT with ERR = 0 the counts sum to IN_LEN. -/
def Obligations.CountSumsToInputLength : Prop :=
  ∀ s t : State, exec .count s = .next t → t.err = none → totalCount t.ft = s.inLen.toNat

/-! ### BUILD -/

/-- R152, R158: BUILD completes without an error from every state; NLEAF is the number of non-zero counts; the leaves are
exactly the (symbol, count) pairs; only NODE, NODE_CNT, NLEAF, ROOT and the status are written. -/
def Obligations.BuildMakesOneLeafPerSymbol : Prop :=
  ∀ s : State, ∃ (node : Vector Node 511) (cnt nl : BitVec 9) (root : NodeIdx),
    exec .build s = .next (State.completed 0x00000003#32
      { s with node := node, nodeCnt := cnt, nleaf := nl, root := root }) ∧
    nl.toNat = distinctSymbols s.ft ∧
    (∀ n : NodeIdx, n.toNat < nl.toNat →
      (nodeAt node n).leaf = true ∧ (nodeAt node n).weight = (ftAt s.ft (nodeAt node n).sym).setWidth 40 ∧
        ftAt s.ft (nodeAt node n).sym ≠ 0#32) ∧
    (∀ x : Byte, ftAt s.ft x ≠ 0#32 → ∃ n : NodeIdx, n.toNat < nl.toNat ∧ (nodeAt node n).sym = x)

/-- R153: BUILD on a table of zeros leaves no tree and raises nothing. -/
def Obligations.BuildOfEmptyTableLeavesNoTree : Prop :=
  ∀ s : State, (∀ x : Byte, ftAt s.ft x = 0#32) →
    exec .build s = .next (State.completed 0x00000003#32
      { s with node := Vector.replicate 511 ⟨false, false, 0#8, 0#40, 0#9, 0#9⟩
               nodeCnt := 0#9, nleaf := 0#9, root := 0x1FF#9 })

/-- R154: with exactly one non-zero count the tree is a single leaf, still active, and the root. -/
def Obligations.BuildOfOneSymbolIsSingleLeaf : Prop :=
  ∀ (s : State) (x : Byte), ftAt s.ft x ≠ 0#32 → (∀ y : Byte, y ≠ x → ftAt s.ft y = 0#32) →
    ∃ node : Vector Node 511,
      exec .build s = .next (State.completed 0x00000003#32
        { s with node := node, nodeCnt := 1#9, nleaf := 1#9, root := 0#9 }) ∧
      nodeAt node 0#9 = ⟨true, true, x, (ftAt s.ft x).setWidth 40, 0x1FF#9, 0x1FF#9⟩ ∧
      ∀ n : NodeIdx, n ≠ 0#9 → nodeAt node n = ⟨false, false, 0#8, 0#40, 0#9, 0#9⟩

/-- R56, R160: whatever FT holds, BUILD leaves a strictly binary tree (`TreeShape`: R56 (b), (c), (d), (f) and the leaves
in ascending symbol value), with one leaf for each symbol whose count is not zero (a), and the sum of all counts at the root
(e). -/
def Obligations.BuildLeavesStrictlyBinaryTree : Prop :=
  ∀ s : State, ∃ t, exec .build s = .next t ∧ TreeShape t ∧
    (∀ x : Byte, ftAt s.ft x ≠ 0#32 ↔ ∃ n : NodeIdx, n.toNat < t.nleaf.toNat ∧ (nodeAt t.node n).sym = x) ∧
    (1 ≤ t.nleaf.toNat → (nodeAt t.node t.root).weight.toNat = totalCount s.ft)

/-- R164: the weights of internal nodes do not fall in creation order. -/
def Obligations.InternalWeightsRiseInCreationOrder : Prop :=
  ∀ s t : State, exec .build s = .next t → ∀ m n : NodeIdx,
    t.nleaf.toNat ≤ m.toNat → n.toNat = m.toNat + 1 → n.toNat < t.nodeCnt.toNat →
      (nodeAt t.node m).weight.toNat ≤ (nodeAt t.node n).weight.toNat

/-- R155, R156 (and C1: the least on the left): one merge takes the least node `a` of the working collection and the least
node `b` of the rest, by weight and then by creation order, and appends an internal node over them, `a` on the left; and so
in the tree `exec .build` answers: when node `n` was created, LEFT of `n` was the least of the nodes then in the working
collection and RIGHT of `n` the least of the rest. -/
def Obligations.MergeTakesTheTwoLeastNodes : Prop :=
  (∀ ns : List Node, 2 ≤ (working ns).length →
    ∃ (a b : Node × Nat), a ∈ working ns ∧ b ∈ working ns ∧ a ≠ b ∧
      (∀ x ∈ working ns, x ≠ a → lessNode a x = true) ∧
      (∀ x ∈ working ns, x ≠ a → x ≠ b → lessNode b x = true) ∧
      mergeOnce ns = some (deactivate (deactivate ns a.2) b.2 ++
        [⟨false, true, 0#8, a.1.weight + b.1.weight, BitVec.ofNat 9 a.2, BitVec.ofNat 9 b.2⟩])) ∧
  (∀ s t : State, exec .build s = .next t → ∀ n : NodeIdx, t.nleaf.toNat ≤ n.toNat → n.toNat < t.nodeCnt.toNat →
    t.waitsFor n (nodeAt t.node n).left ∧ t.waitsFor n (nodeAt t.node n).right ∧
    (nodeAt t.node n).left ≠ (nodeAt t.node n).right ∧
    (∀ m : NodeIdx, t.waitsFor n m → m ≠ (nodeAt t.node n).left → t.less (nodeAt t.node n).left m) ∧
    (∀ m : NodeIdx, t.waitsFor n m → m ≠ (nodeAt t.node n).left → m ≠ (nodeAt t.node n).right →
      t.less (nodeAt t.node n).right m))

/-! ### GENCODES -/

/-- R180, R186 (d): GENCODES completes without an error from every state and writes nothing but CT and the status. -/
def Obligations.GencodesWritesOnlyTheCodeTable : Prop :=
  ∀ s : State, ∃ ct : Vector Code 256,
    exec .gencodes s = .next (State.completed 0x00000004#32 { s with ct := ct })

/-- R182, R183: with no tree the table is empty; with a single leaf its symbol gets the one-bit code "0" and no other
symbol has an entry. -/
def Obligations.GencodesOfSmallTrees : Prop :=
  (∀ s : State, s.root = 0x1FF#9 →
    exec .gencodes s = .next (State.completed 0x00000004#32 { s with ct := Vector.replicate 256 ⟨0#8, 0#255⟩ })) ∧
  (∀ s : State, s.root ≠ 0x1FF#9 → (nodeAt s.node s.root).leaf = true →
    ∃ ct : Vector Code 256, exec .gencodes s = .next (State.completed 0x00000004#32 { s with ct := ct }) ∧
      ctAt ct (nodeAt s.node s.root).sym = ⟨1#8, 0#255⟩ ∧
      ∀ y : Byte, y ≠ (nodeAt s.node s.root).sym → ctAt ct y = ⟨0#8, 0#255⟩)

/-- R180, R181, R184: on a full tree the code of each leaf's symbol is the path from the root to that leaf, and a symbol
that is no leaf's has no entry. -/
def Obligations.GencodesRecordsPathsToLeaves : Prop :=
  ∀ s : State, TreeShape s → 2 ≤ s.nleaf.toNat →
    ∃ ct : Vector Code 256, exec .gencodes s = .next (State.completed 0x00000004#32 { s with ct := ct }) ∧
      (∀ n : NodeIdx, n.toNat < s.nleaf.toNat →
        descend s.node s.root (codeOf ct (nodeAt s.node n).sym) = some n) ∧
      (∀ x : Byte, (∀ n : NodeIdx, n.toNat < s.nleaf.toNat → (nodeAt s.node n).sym ≠ x) →
        ctAt ct x = ⟨0#8, 0#255⟩)

/-- R185 (a): a code of a tree of two or more leaves has between 1 and NLEAF - 1 bits. -/
def Obligations.CodeLengthsAreBounded : Prop :=
  ∀ s t : State, TreeShape s → 2 ≤ s.nleaf.toNat → exec .gencodes s = .next t →
    ∀ n : NodeIdx, n.toNat < s.nleaf.toNat →
      1 ≤ (codeOf t.ct (nodeAt s.node n).sym).length ∧
        (codeOf t.ct (nodeAt s.node n).sym).length ≤ s.nleaf.toNat - 1

/-- R185 (b): the codes of two different symbols are not prefixes of one another. -/
def Obligations.GeneratedCodesArePrefixFree : Prop :=
  ∀ s t : State, TreeShape s → exec .gencodes s = .next t → PrefixFree t.ct

/-- R185 (e): after BUILD and GENCODES a symbol has an entry exactly when its count was not zero. -/
def Obligations.EntryExactlyForCountedSymbols : Prop :=
  ∀ s t u : State, exec .build s = .next t → exec .gencodes t = .next u →
    ∀ x : Byte, (ctAt u.ct x).len ≠ 0#8 ↔ ftAt s.ft x ≠ 0#32

/-! ### ENCODE -/

/-- R200, R201: when every symbol has an entry and the stream fits, ENCODE leaves in BIT_LEN the length of the stream and
in OBUF its bits, first bit in bit 7, zero-padded on the right; no byte past the last chunk is written, and nothing else
but the status. -/
def Obligations.EncodePacksTheStream : Prop :=
  ∀ s : State, s.inLen.toNat ≤ s.depths.ibuf.val →
    (∀ i, i < s.inLen.toNat → (ctAt s.ct (symbolAt s.ibuf i)).len ≠ 0#8) →
    (streamOf s.ct (symbolsOf s.ibuf s.inLen.toNat)).length ≤ 8 * s.depths.obuf.val →
    ∃ (obuf : Buffer) (nb : BitVec 20),
      exec .encode s = .next (State.completed 0x00000005#32 { s with obuf := obuf, bitLen := nb }) ∧
      nb.toNat = (streamOf s.ct (symbolsOf s.ibuf s.inLen.toNat)).length ∧
      packedBits obuf nb.toNat = streamOf s.ct (symbolsOf s.ibuf s.inLen.toNat) ∧
      (∀ k, nb.toNat ≤ k → k < 8 * ((nb.toNat + 7) / 8) → streamBit obuf k = false) ∧
      (∀ j, (nb.toNat + 7) / 8 ≤ j → obuf.read j = s.obuf.read j)

/-- R202 (2), R271: the first symbol without an entry, reached before the stream overflows, is INVARIANT_VIOLATION with its
index; BIT_LEN is 0, OBUF holds the complete bytes of the codes before it, and nothing else is changed. -/
def Obligations.EncodeStopsAtMissingEntry : Prop :=
  ∀ (s : State) (i : Nat), s.inLen.toNat ≤ s.depths.ibuf.val → i < s.inLen.toNat →
    (∀ j, j < i → (ctAt s.ct (symbolAt s.ibuf j)).len ≠ 0#8) →
    (streamOf s.ct (symbolsOf s.ibuf i)).length ≤ 8 * s.depths.obuf.val →
    (ctAt s.ct (symbolAt s.ibuf i)).len = 0#8 →
    ∃ obuf : Buffer,
      exec .encode s = .next (State.failed 0x00000005#32 .invariantViolation i
        { s with obuf := obuf, bitLen := 0#20 }) ∧
      (∀ k, k < 8 * ((streamOf s.ct (symbolsOf s.ibuf i)).length / 8) →
        some (streamBit obuf k) = (streamOf s.ct (symbolsOf s.ibuf i))[k]?) ∧
      (∀ j, (streamOf s.ct (symbolsOf s.ibuf i)).length / 8 ≤ j → obuf.read j = s.obuf.read j)

/-- R202 (3), R273: the first symbol whose code would carry the stream past `8 x OBUF_DEPTH` bits is OVERFLOW with its
index; BIT_LEN is 0, OBUF holds the complete bytes of the codes before it, and nothing else is changed. -/
def Obligations.EncodeStopsWhereTheStreamOverflows : Prop :=
  ∀ (s : State) (i : Nat), s.inLen.toNat ≤ s.depths.ibuf.val → i < s.inLen.toNat →
    (∀ j, j ≤ i → (ctAt s.ct (symbolAt s.ibuf j)).len ≠ 0#8) →
    (streamOf s.ct (symbolsOf s.ibuf i)).length ≤ 8 * s.depths.obuf.val →
    8 * s.depths.obuf.val < (streamOf s.ct (symbolsOf s.ibuf (i + 1))).length →
    ∃ obuf : Buffer,
      exec .encode s = .next (State.failed 0x00000005#32 .overflow i { s with obuf := obuf, bitLen := 0#20 }) ∧
      (∀ k, k < 8 * ((streamOf s.ct (symbolsOf s.ibuf i)).length / 8) →
        some (streamBit obuf k) = (streamOf s.ct (symbolsOf s.ibuf i))[k]?) ∧
      (∀ j, (streamOf s.ct (symbolsOf s.ibuf i)).length / 8 ≤ j → obuf.read j = s.obuf.read j)

/-! ### DECODE -/

/-- R228 (d), R79, R225: DECODE in either mode writes DBUF, DEC_LEN and the status and nothing else, of DBUF only elements
below its depth, and, when it raises nothing, only those below DEC_LEN. -/
def Obligations.DecodeWritesOnlyItsOutput : Prop :=
  ∀ (i : Instr) (s : State), i = .decodeT ∨ i = .decodeC →
    ∃ (t : State) (dbuf : Buffer) (n : BitVec 17), exec i s = .next t ∧
      (t = State.completed (encode i) { s with dbuf := dbuf, decLen := n } ∨
        ∃ kind info, t = State.failed (encode i) kind info { s with dbuf := dbuf, decLen := n }) ∧
      (∀ j, s.depths.dbuf.val ≤ j → dbuf.read j = s.dbuf.read j) ∧
      (t.err = none → n.toNat ≤ s.depths.dbuf.val ∧ ∀ j, n.toNat ≤ j → dbuf.read j = s.dbuf.read j)

/-- R228 (a): with BIT_LEN = 0 both modes complete with DEC_LEN = 0 and DBUF untouched, whatever NODE and CT hold. -/
def Obligations.DecodeOfEmptyStream : Prop :=
  ∀ s : State, s.bitLen = 0#20 →
    exec .decodeT s = .next (State.completed 0x00000006#32 { s with decLen := 0#17 }) ∧
    exec .decodeC s = .next (State.completed 0x00000106#32 { s with decLen := 0#17 })

/-- R223, R224: with no tree (mode T) or an empty table (mode C) any bit is CORRUPT_STREAM at bit 0, and DBUF is
untouched. -/
def Obligations.DecodeWithNothingToMatchIsCorrupt : Prop :=
  (∀ s : State, s.nleaf = 0#9 → 1 ≤ s.bitLen.toNat → s.bitLen.toNat ≤ 8 * s.depths.obuf.val →
    exec .decodeT s = .next (State.failed 0x00000006#32 .corruptStream 0 { s with decLen := 0#17 })) ∧
  (∀ s : State, (∀ x : Byte, (ctAt s.ct x).len = 0#8) → 1 ≤ s.bitLen.toNat →
    s.bitLen.toNat ≤ 8 * s.depths.obuf.val →
    exec .decodeC s = .next (State.failed 0x00000106#32 .corruptStream 0 { s with decLen := 0#17 }))

/-- R222, R228 (g): with a single-leaf tree every 0 bit is its symbol; a 1 bit is CORRUPT_STREAM at that bit; a 0 bit that
finds DBUF full is OVERFLOW at that bit. -/
def Obligations.DecodeOfSingleLeaf : Prop :=
  ∀ (s : State) (k : Nat), s.nleaf = 1#9 → s.bitLen.toNat ≤ 8 * s.depths.obuf.val → k ≤ s.bitLen.toNat →
    k ≤ s.depths.dbuf.val → (∀ j, j < k → streamBit s.obuf j = false) →
    ∃ dbuf : Buffer,
      (∀ j, j < k → dbuf.read j = (nodeAt s.node s.root).sym) ∧ (∀ j, k ≤ j → dbuf.read j = s.dbuf.read j) ∧
      (k = s.bitLen.toNat →
        exec .decodeT s = .next (State.completed 0x00000006#32 { s with dbuf := dbuf, decLen := BitVec.ofNat 17 k })) ∧
      (k < s.bitLen.toNat → streamBit s.obuf k = true →
        exec .decodeT s = .next (State.failed 0x00000006#32 .corruptStream k
          { s with dbuf := dbuf, decLen := 0#17 })) ∧
      (k < s.bitLen.toNat → streamBit s.obuf k = false → k = s.depths.dbuf.val →
        exec .decodeT s = .next (State.failed 0x00000006#32 .overflow k { s with dbuf := dbuf, decLen := 0#17 }))

/-- R221, R225 (3): with a full tree, a stream made of the paths to the leaves `ls`, in order, followed by a path `q` that
stops at an internal node, decodes to the symbols of `ls`; it completes when `q` is empty, and is CORRUPT_STREAM at the
first bit of `q` when it is not.  R225 (2), R273: where the symbols of `ls` fill DBUF, the path to one leaf more is OVERFLOW
at its first bit, whatever bits follow it. -/
def Obligations.DecodeWalksTheTree : Prop :=
  (∀ (s : State) (ls : List (NodeIdx × Bits)) (q : Bits), TreeShape s → 2 ≤ s.nleaf.toNat →
    s.bitLen.toNat ≤ 8 * s.depths.obuf.val → ls.length ≤ s.depths.dbuf.val →
    (∀ l ∈ ls, l.1.toNat < s.nleaf.toNat ∧ descend s.node s.root l.2 = some l.1) →
    (∃ m, descend s.node s.root q = some m ∧ (nodeAt s.node m).leaf = false) →
    packedBits s.obuf s.bitLen.toNat = ls.flatMap Prod.snd ++ q →
    ∃ dbuf : Buffer,
      (∀ j, j < ls.length → some (dbuf.read j) = (ls[j]?).map fun l => (nodeAt s.node l.1).sym) ∧
      (∀ j, ls.length ≤ j → dbuf.read j = s.dbuf.read j) ∧
      (q = [] → exec .decodeT s = .next (State.completed 0x00000006#32
        { s with dbuf := dbuf, decLen := BitVec.ofNat 17 ls.length })) ∧
      (q ≠ [] → exec .decodeT s = .next (State.failed 0x00000006#32 .corruptStream (ls.flatMap Prod.snd).length
        { s with dbuf := dbuf, decLen := 0#17 }))) ∧
  (∀ (s : State) (ls : List (NodeIdx × Bits)) (l : NodeIdx × Bits) (rest : Bits), TreeShape s → 2 ≤ s.nleaf.toNat →
    s.bitLen.toNat ≤ 8 * s.depths.obuf.val → ls.length = s.depths.dbuf.val →
    (∀ e ∈ ls ++ [l], e.1.toNat < s.nleaf.toNat ∧ descend s.node s.root e.2 = some e.1) →
    packedBits s.obuf s.bitLen.toNat = ls.flatMap Prod.snd ++ l.2 ++ rest →
    ∃ dbuf : Buffer,
      (∀ j, j < ls.length → some (dbuf.read j) = (ls[j]?).map fun e => (nodeAt s.node e.1).sym) ∧
      (∀ j, ls.length ≤ j → dbuf.read j = s.dbuf.read j) ∧
      exec .decodeT s = .next (State.failed 0x00000006#32 .overflow (ls.flatMap Prod.snd).length
        { s with dbuf := dbuf, decLen := 0#17 }))

/-- R224, R225 (3), R228 (f): mode C on any table.  A stream made of the codes of `xs`, in order, where the first prefix of
each code that is a code at all is that code and its symbol the least that has it, followed by bits `q` no prefix of which is
a code, decodes to `xs`; it completes when `q` is empty, and is CORRUPT_STREAM at the first bit of `q` when it is not.
R225 (2), R273: where `xs` fill DBUF, the code of one symbol more is OVERFLOW at its first bit, whatever bits follow it. -/
def Obligations.DecodeMatchesTheTable : Prop :=
  (∀ (s : State) (xs : List Byte) (q : Bits),
    (∀ x ∈ xs, codeOf s.ct x ≠ [] ∧ ∀ (r : Bits) (y : Byte), r ≠ [] → r <+: codeOf s.ct x → codeOf s.ct y = r →
      r = codeOf s.ct x ∧ x.toNat ≤ y.toNat) →
    (∀ (r : Bits) (y : Byte), r ≠ [] → r <+: q → codeOf s.ct y ≠ r) →
    s.bitLen.toNat ≤ 8 * s.depths.obuf.val → xs.length ≤ s.depths.dbuf.val →
    packedBits s.obuf s.bitLen.toNat = streamOf s.ct xs ++ q →
    ∃ dbuf : Buffer,
      (∀ j, j < xs.length → some (dbuf.read j) = xs[j]?) ∧ (∀ j, xs.length ≤ j → dbuf.read j = s.dbuf.read j) ∧
      (q = [] → exec .decodeC s = .next (State.completed 0x00000106#32
        { s with dbuf := dbuf, decLen := BitVec.ofNat 17 xs.length })) ∧
      (q ≠ [] → exec .decodeC s = .next (State.failed 0x00000106#32 .corruptStream (streamOf s.ct xs).length
        { s with dbuf := dbuf, decLen := 0#17 }))) ∧
  (∀ (s : State) (xs : List Byte) (x : Byte) (rest : Bits),
    (∀ z ∈ xs ++ [x], codeOf s.ct z ≠ [] ∧ ∀ (r : Bits) (y : Byte), r ≠ [] → r <+: codeOf s.ct z →
      codeOf s.ct y = r → r = codeOf s.ct z ∧ z.toNat ≤ y.toNat) →
    s.bitLen.toNat ≤ 8 * s.depths.obuf.val → xs.length = s.depths.dbuf.val →
    packedBits s.obuf s.bitLen.toNat = streamOf s.ct xs ++ codeOf s.ct x ++ rest →
    ∃ dbuf : Buffer,
      (∀ j, j < xs.length → some (dbuf.read j) = xs[j]?) ∧ (∀ j, xs.length ≤ j → dbuf.read j = s.dbuf.read j) ∧
      exec .decodeC s = .next (State.failed 0x00000106#32 .overflow (streamOf s.ct xs).length
        { s with dbuf := dbuf, decLen := 0#17 }))

/-- R226: the two modes agree whenever CT is the table GENCODES makes of the tree in NODE. -/
def Obligations.DecodeModesAgree : Prop :=
  ∀ s : State, TreeShape s → s.ct = codeTable s.node s.root →
    ∃ t u, exec .decodeT s = .next t ∧ exec .decodeC s = .next u ∧
      t.decLen = u.decLen ∧ t.err = u.err ∧ t.errInfo = u.errInfo ∧ (∀ j, t.dbuf.read j = u.dbuf.read j)

/-- R277: an ENCODE or a DECODE that fails on its data leaves its length register at 0. -/
def Obligations.FailedResultIsEmpty : Prop :=
  (∀ s t : State, exec .encode s = .next t → t.err ≠ none → t.err ≠ some .badParam → t.bitLen = 0#20) ∧
  (∀ s t : State, exec .decodeT s = .next t → t.err ≠ none → t.err ≠ some .badParam → t.decLen = 0#17) ∧
  (∀ s t : State, exec .decodeC s = .next t → t.err ≠ none → t.err ≠ some .badParam → t.decLen = 0#17)

/-- R227: the round trip.  After COUNT, BUILD, GENCODES and ENCODE with ERR = 0 each, DECODE in either mode gives back the
input. -/
def Obligations.RoundTripRestoresTheInput : Prop :=
  ∀ s a b c d : State, s.inLen.toNat ≤ s.depths.ibuf.val → s.inLen.toNat ≤ s.depths.dbuf.val →
    exec .count s = .next a → exec .build a = .next b → exec .gencodes b = .next c → exec .encode c = .next d →
    a.err = none → b.err = none → c.err = none → d.err = none →
    ∀ i : Instr, i = .decodeT ∨ i = .decodeC →
      ∃ t, exec i d = .next t ∧ t.err = none ∧ t.decLen = s.inLen ∧
        ∀ j, j < s.inLen.toNat → symbolAt t.dbuf j = symbolAt s.ibuf j

/-! ### METRICS -/

/-- R250, R253, R254: METRICS leaves `IN_LEN x 8`, BIT_LEN, their difference, and the reduction in thousandths of a
percent, rounded down and clipped at `-2^31`, 0 for an empty input; nothing else but the status. -/
def Obligations.MetricsReportsTheReduction : Prop :=
  ∀ s : State, ∃ (ob eb : BitVec 20) (d r : Word),
    exec .metrics s = .next (State.completed 0x00000007#32
      { s with metOrigBits := ob, metEncBits := eb, metDiff := d, metRed := r }) ∧
    ob.toNat = s.inLen.toNat * 8 ∧ eb = s.bitLen ∧ d.toInt = (ob.toNat : Int) - (eb.toNat : Int) ∧
    (ob.toNat = 0 → r = 0#32) ∧
    (ob.toNat ≠ 0 → ∃ q : Int, q * ob.toNat ≤ 100000 * d.toInt ∧ 100000 * d.toInt < (q + 1) * ob.toNat ∧
      r.toInt = max q (-2147483648))

/-! ### COMPRESS -/

/-- R261, R262: COMPRESS completes from every state: without an error at stage 4, with BAD_PARAM at stage 0, or with an
error of ENCODE at stage 3; every other command leaves STAGE 0. -/
def Obligations.CompressEndsAtANamedStage : Prop :=
  (∀ s : State, ∃ t, exec .compress s = .next t ∧
    ((t.err = none ∧ t.stage = 4#3) ∨ (t.err = some .badParam ∧ t.stage = 0#3) ∨
      ((t.err = some .invariantViolation ∨ t.err = some .overflow) ∧ t.stage = 3#3))) ∧
  (∀ (i : Instr) (s t : State), i ≠ .compress → exec i s = .next t → t.stage = 0#3)

/-- R262, R203 (c): the table COMPRESS builds has an entry for every symbol of the input: INVARIANT_VIOLATION is
unreachable. -/
def Obligations.CompressNeverMissesAnEntry : Prop :=
  ∀ s t : State, exec .compress s = .next t → t.err ≠ some .invariantViolation

/-- R264, R260: COMPRESS with ERR = 0 leaves what COUNT, BUILD, GENCODES, ENCODE and METRICS leave one after the other,
but for OP and STAGE. -/
def Obligations.CompressIsTheFiveCommands : Prop :=
  ∀ s t : State, exec .compress s = .next t → t.err = none →
    ∃ a b c d, exec .count s = .next a ∧ exec .build a = .next b ∧ exec .gencodes b = .next c ∧
      exec .encode c = .next d ∧ exec .metrics d = .next { t with op := 0x07#8, stage := 0#3 }

/-- R260: COMPRESS completes without an error when the input fits IBUF and its stream in the codes COMPRESS makes of it
fits OBUF: FT counts the input, CT holds those codes, BIT_LEN is the stream's length, OBUF holds the stream, MET_ORIG_BITS
and MET_ENC_BITS the two sizes; STATUS.OP is 0x08 and STAGE 4. -/
def Obligations.CompressCompletesWhenItFits : Prop :=
  ∀ s : State, s.inLen.toNat ≤ s.depths.ibuf.val →
    (streamOf s.ownCodes (symbolsOf s.ibuf s.inLen.toNat)).length ≤ 8 * s.depths.obuf.val →
    ∃ t, exec .compress s = .next t ∧ t.err = none ∧ t.op = 0x08#8 ∧ t.stage = 4#3 ∧
      (∀ x : Byte, (ftAt t.ft x).toNat = occurrences s.ibuf s.inLen.toNat x) ∧ t.ct = s.ownCodes ∧
      packedBits t.obuf t.bitLen.toNat = streamOf s.ownCodes (symbolsOf s.ibuf s.inLen.toNat) ∧
      t.metOrigBits.toNat = s.inLen.toNat * 8 ∧ t.metEncBits = t.bitLen

/-- R262: where the stream of COMPRESS's own codes would pass `8 x OBUF_DEPTH` bits at symbol `i`, COMPRESS ends at stage 3
with OVERFLOW and ERR_INFO = `i`: FT and CT are complete, the tree is a tree, BIT_LEN is 0, OBUF holds the complete bytes of
the codes before it and is otherwise unchanged (R202, R277), the MET registers keep their values. -/
def Obligations.CompressStopsWhereTheStreamOverflows : Prop :=
  ∀ (s : State) (i : Nat), s.inLen.toNat ≤ s.depths.ibuf.val → i < s.inLen.toNat →
    (streamOf s.ownCodes (symbolsOf s.ibuf i)).length ≤ 8 * s.depths.obuf.val →
    8 * s.depths.obuf.val < (streamOf s.ownCodes (symbolsOf s.ibuf (i + 1))).length →
    ∃ t, exec .compress s = .next t ∧ t.err = some .overflow ∧ t.errInfo = BitVec.ofNat 32 i ∧ t.stage = 3#3 ∧
      (∀ x : Byte, (ftAt t.ft x).toNat = occurrences s.ibuf s.inLen.toNat x) ∧ TreeShape t ∧ t.ct = s.ownCodes ∧
      t.bitLen = 0#20 ∧
      (∀ k, k < 8 * ((streamOf s.ownCodes (symbolsOf s.ibuf i)).length / 8) →
        some (streamBit t.obuf k) = (streamOf s.ownCodes (symbolsOf s.ibuf i))[k]?) ∧
      (∀ j, (streamOf s.ownCodes (symbolsOf s.ibuf i)).length / 8 ≤ j → t.obuf.read j = s.obuf.read j) ∧
      t.metOrigBits = s.metOrigBits ∧ t.metEncBits = s.metEncBits ∧ t.metDiff = s.metDiff ∧
      t.metRed = s.metRed

/-- R79, R260, R264, R205 (c): COMPRESS leaves IN_LEN, IBUF, DBUF, DEC_LEN, CTRL, OVR and the depths as they were, of OBUF
every element at or above its depth, and, when it raises nothing, every element at or above OUT_BYTES of the new BIT_LEN. -/
def Obligations.CompressFrame : Prop :=
  ∀ s : State, ∃ t, exec .compress s = .next t ∧
    t = { s with
      done := t.done, serr := t.serr, err := t.err, op := t.op, stage := t.stage, errInfo := t.errInfo
      ft := t.ft, node := t.node, nodeCnt := t.nodeCnt, nleaf := t.nleaf, root := t.root, ct := t.ct
      obuf := t.obuf, bitLen := t.bitLen
      metOrigBits := t.metOrigBits, metEncBits := t.metEncBits, metDiff := t.metDiff, metRed := t.metRed
      engine := none } ∧
    (∀ j, s.depths.obuf.val ≤ j → t.obuf.read j = s.obuf.read j) ∧
    (t.err = none → ∀ j, (t.bitLen.toNat + 7) / 8 ≤ j → t.obuf.read j = s.obuf.read j)

/-! ### The host port -/

/-- R70, R62: a host read while idle changes nothing and returns the word at the address.  R20, R284: so does an observation
of the interrupt line, idle or BUSY: it returns IE and DONE. -/
def Obligations.IdleReadHasNoSideEffect : Prop :=
  (∀ (s : State) (a : WordAddr) (rest : List Event), s.busy = false → s.pending = .read a :: rest →
    step s = .next { s with pending := rest, answers := .word (peek s a) :: s.answers }) ∧
  (∀ (s : State) (rest : List Event), s.pending = .observeIrq :: rest →
    step s = .next { s with pending := rest, answers := .line (s.ie && s.done) :: s.answers })

/-- R22, R24 to R39: what each register reads as at its offset (word index: byte offset / 4), the fields of STATUS and the
error codes of R270 included. -/
def Obligations.RegistersReadAtTheirOffsets : Prop :=
  (∀ s : State,
    peek s 0#16 = 0x48454331#32 ∧ peek s 1#16 = 0#32 ∧
    (peek s 2#16).toNat = s.busy.toNat + 2 * s.done.toNat + 4 * s.serr.toNat + 8 * s.ovr.toNat
      + 16 * (errCode s.err).toNat + 256 * s.op.toNat + 65536 * s.stage.toNat ∧
    (peek s 3#16).toNat = s.ie.toNat ∧ peek s 4#16 = s.errInfo ∧ (peek s 5#16).toNat = s.inLen.toNat ∧
    (peek s 6#16).toNat = s.bitLen.toNat ∧ (peek s 7#16).toNat = s.decLen.toNat ∧
    (peek s 8#16).toNat = (s.bitLen.toNat + 7) / 8 ∧ (peek s 9#16).toNat = s.nodeCnt.toNat ∧
    (peek s 10#16).toNat = s.nleaf.toNat ∧ (peek s 11#16).toNat = s.root.toNat ∧
    (peek s 12#16).toNat = s.metOrigBits.toNat ∧ (peek s 13#16).toNat = s.metEncBits.toNat ∧
    peek s 14#16 = s.metDiff ∧ peek s 15#16 = s.metRed ∧ (peek s 16#16).toNat = s.depths.ibuf.val ∧
    (peek s 17#16).toNat = s.depths.obuf.val ∧ (peek s 18#16).toNat = s.depths.dbuf.val) ∧
  errCode none = 0#4 ∧ errCode (some .invariantViolation) = 1#4 ∧ errCode (some .corruptStream) = 2#4 ∧
  errCode (some .overflow) = 3#4 ∧ errCode (some .badParam) = 4#4 ∧ errCode (some .illegalCmd) = 5#4

/-- R28, R29, R26, R31, R70: a write to IN_LEN, BIT_LEN or CTRL stores the writable bits, drops the others and changes
nothing else; OUT_BYTES follows BIT_LEN. -/
def Obligations.WritableRegistersKeepTheirBits : Prop :=
  ∀ (s : State) (w : Word),
    poke s 5#16 w = { s with inLen := w.extractLsb' 0 17 } ∧
    poke s 6#16 w = { s with bitLen := w.extractLsb' 0 20 } ∧
    poke s 3#16 w = { s with ie := w.getLsbD 0 } ∧
    peek (poke s 5#16 w) 5#16 = w &&& 0x0001FFFF#32 ∧
    peek (poke s 6#16 w) 6#16 = w &&& 0x000FFFFF#32 ∧
    peek (poke s 3#16 w) 3#16 = w &&& 0x00000001#32 ∧
    (peek (poke s 6#16 w) 8#16).toNat = ((w &&& 0x000FFFFF#32).toNat + 7) / 8

/-- R22, R70: a write to STATUS clears the W1C bits written as 1 and changes nothing else of STATUS. -/
def Obligations.StatusWriteClearsOnlyW1C : Prop :=
  ∀ (s : State) (w : Word), poke s 2#16 w = { s with
      done := s.done && !w.getLsbD 1, serr := s.serr && !w.getLsbD 2, ovr := s.ovr && !w.getLsbD 3 } ∧
    peek (poke s 2#16 w) 2#16 = peek s 2#16 &&& ~~~(w &&& 0x0000000E#32)

/-- R70, R61: writes to RO registers, to NODE, to DBUF and to the holes are ignored (word indices: byte address / 4), and
the holes read 0.  R57: a host write while idle to a place other than CMD is `poke`, on the state with that event taken off
the script. -/
def Obligations.ReadOnlyPlacesIgnoreWrites : Prop :=
  (∀ (s : State) (a : WordAddr) (w : Word),
    (a.toNat = 0 ∨ a.toNat = 4 ∨ (7 ≤ a.toNat ∧ a.toNat < 256) ∨ (512 ≤ a.toNat ∧ a.toNat < 4096) ∨
      (4096 ≤ a.toNat ∧ a.toNat < 8192 ∧ 9 ≤ a.toNat % 16) ∨ (8192 ≤ a.toNat ∧ a.toNat < 16384) ∨
      49152 ≤ a.toNat) → poke s a w = s) ∧
  (∀ (s : State) (a : WordAddr),
    ((19 ≤ a.toNat ∧ a.toNat < 256) ∨ (512 ≤ a.toNat ∧ a.toNat < 2048) ∨ (4092 ≤ a.toNat ∧ a.toNat < 4096) ∨
      (4096 ≤ a.toNat ∧ a.toNat < 8192 ∧ 9 ≤ a.toNat % 16) ∨ (8192 ≤ a.toNat ∧ a.toNat < 16384)) →
      peek s a = 0#32) ∧
  (∀ (s : State) (a : WordAddr) (w : Word) (rest : List Event), s.busy = false → a ≠ 1#16 →
    s.pending = .write a w :: rest → step s = .next (poke { s with pending := rest } a w))

/-- R41, R100: the word at `0x00400 + 4x` is `FT[x]`: it reads the count and, written, stores it, no other entry
changing. -/
def Obligations.FrequencyTableReadsBack : Prop :=
  ∀ (s : State) (x : Byte) (w : Word),
    peek s (BitVec.ofNat 16 (256 + x.toNat)) = ftAt s.ft x ∧
    ∃ ft : Vector Word 256, poke s (BitVec.ofNat 16 (256 + x.toNat)) w = { s with ft := ft } ∧
      peek (poke s (BitVec.ofNat 16 (256 + x.toNat)) w) (BitVec.ofNat 16 (256 + x.toNat)) = w ∧
      ∀ y : Byte, ftAt ft y = if y = x then w else ftAt s.ft y

/-- R99: the image of `CT[x]` at `0x04000 + 64x`: word 0 is LEN, bit `b` of word `k` in 1 to 8 is `BITS[32(k - 1) + b]`
(0 where there is no such bit), words 9 to 15 read 0; a write of word `k` changes only that word of that entry of CT and
nothing else, and reads back but for the bits that do not exist. -/
def Obligations.CodeTableReadsBack : Prop :=
  (∀ (s : State) (x : Byte),
    peek s (BitVec.ofNat 16 (4096 + 16 * x.toNat)) = (ctAt s.ct x).len.setWidth 32 ∧
    (∀ k b : Nat, 1 ≤ k → k ≤ 8 → b < 32 →
      (peek s (BitVec.ofNat 16 (4096 + 16 * x.toNat + k))).getLsbD b = (ctAt s.ct x).bits.getLsbD (32 * (k - 1) + b)) ∧
    (∀ k : Nat, 9 ≤ k → k < 16 → peek s (BitVec.ofNat 16 (4096 + 16 * x.toNat + k)) = 0#32)) ∧
  (∀ (s : State) (x y : Byte) (k j : Nat) (w : Word), k < 16 → j < 16 →
    (∃ ct : Vector Code 256, poke s (BitVec.ofNat 16 (4096 + 16 * x.toNat + k)) w = { s with ct := ct }) ∧
    peek (poke s (BitVec.ofNat 16 (4096 + 16 * x.toNat + k)) w) (BitVec.ofNat 16 (4096 + 16 * y.toNat + j)) =
      if x = y ∧ k = j then
        (if k = 0 then w &&& 0x000000FF#32 else if k < 8 then w else if k = 8 then w &&& 0x7FFFFFFF#32 else 0#32)
      else peek s (BitVec.ofNat 16 (4096 + 16 * y.toNat + j)))

/-- R98: the four words of `NODE[n]` at `0x02000 + 16n`. -/
def Obligations.NodeImageHasTheFields : Prop :=
  ∀ (s : State) (n : NodeIdx), n.toNat < 511 →
    peek s (BitVec.ofNat 16 (2048 + 4 * n.toNat)) =
      BitVec.ofNat 32 ((nodeAt s.node n).leaf.toNat + 2 * (nodeAt s.node n).active.toNat
        + 256 * (nodeAt s.node n).sym.toNat) ∧
    (peek s (BitVec.ofNat 16 (2048 + 4 * n.toNat + 1))).toNat
      + 2 ^ 32 * (peek s (BitVec.ofNat 16 (2048 + 4 * n.toNat + 2))).toNat = (nodeAt s.node n).weight.toNat ∧
    peek s (BitVec.ofNat 16 (2048 + 4 * n.toNat + 3)) =
      BitVec.ofNat 32 ((nodeAt s.node n).left.toNat + 65536 * (nodeAt s.node n).right.toNat)

/-- R64: element `4k + j` of IBUF, OBUF or DBUF is bits `8j+7 : 8j` of word `k` of its space; a host write of word `k` of
IBUF or of OBUF puts those bits in those elements and changes no other, and reads back where all four exist.  That elements
at or above a smaller depth ignore the write is the model's choice, not R64's (DEDUCED from R61, notes/assumptions/5.md). -/
def Obligations.BufferWordsAreLittleEndian : Prop :=
  (∀ (s : State) (k j : Nat), k < 16384 → j < 4 →
    (4 * k + j < s.depths.ibuf.val →
      (peek s (BitVec.ofNat 16 (16384 + k))).extractLsb' (8 * j) 8 = s.ibuf.read (4 * k + j)) ∧
    (4 * k + j < s.depths.obuf.val →
      (peek s (BitVec.ofNat 16 (32768 + k))).extractLsb' (8 * j) 8 = s.obuf.read (4 * k + j)) ∧
    (4 * k + j < s.depths.dbuf.val →
      (peek s (BitVec.ofNat 16 (49152 + k))).extractLsb' (8 * j) 8 = s.dbuf.read (4 * k + j))) ∧
  (∀ (s : State) (k : Nat) (w : Word), k < 16384 →
    (∃ m : Buffer, poke s (BitVec.ofNat 16 (16384 + k)) w = { s with ibuf := m } ∧
      (∀ i, m.read i = if i / 4 = k ∧ i < s.depths.ibuf.val then w.extractLsb' (8 * (i % 4)) 8 else s.ibuf.read i) ∧
      (4 * k + 3 < s.depths.ibuf.val → peek { s with ibuf := m } (BitVec.ofNat 16 (16384 + k)) = w)) ∧
    (∃ m : Buffer, poke s (BitVec.ofNat 16 (32768 + k)) w = { s with obuf := m } ∧
      (∀ i, m.read i = if i / 4 = k ∧ i < s.depths.obuf.val then w.extractLsb' (8 * (i % 4)) 8 else s.obuf.read i) ∧
      (4 * k + 3 < s.depths.obuf.val → peek { s with obuf := m } (BitVec.ofNat 16 (32768 + k)) = w)))

/-- R72 (c), R125: while BUSY a write to any address, CMD and STATUS included, changes nothing but OVR. -/
def Obligations.BusyWriteOnlySetsOverrun : Prop :=
  ∀ (s : State) (a : WordAddr) (w : Word) (rest : List Event), s.busy = true →
    (s.pending = .write a w :: rest ∨ s.pending = .start w :: rest) →
      step s = .next { s with pending := rest, ovr := true }

/-- R72 (a), (b): while BUSY a read of ID, STATUS, CTRL or CAP_* returns the current value; a read of anything else changes
nothing but what the host is told. -/
def Obligations.BusyReadsDoNotDisturb : Prop :=
  ∀ (s : State) (a : WordAddr) (rest : List Event), s.busy = true → s.pending = .read a :: rest →
    ((a = 0#16 ∨ a = 2#16 ∨ a = 3#16 ∨ a = 16#16 ∨ a = 17#16 ∨ a = 18#16) →
      step s = .next { s with pending := rest, answers := .word (peek s a) :: s.answers }) ∧
    (∃ ans free, step s = .next { s with pending := rest, answers := ans :: s.answers, freeReads := free })

/-! ### The engine seen from the host, reset, invariants -/

/-- R57, R126: a command the host starts and leaves alone, the engine taking the loops of its rule as small steps, ends in the
state the one-step `exec` gives.  R72 (a): until then STATUS has BUSY = 1, DONE = 0, ERR = 0 and the running opcode in OP.
R120: a `start` event while idle is the acceptance; an `engine` event, or an empty script, is one action of the
engine, and an idle HEC with an empty script stays as it is (R303).  That the test ending a loop, and each statement between
loops, is an action of its own is the model's choice (notes/assumptions/4.md). -/
def Obligations.EngineStepsReachTheOneStepResult : Prop :=
  (∀ (s : State) (w : Word), s.busy = false →
    ∃ k, execWord w s = .next (advanceMany k (startCommand w s)) ∧
      ∀ j, j < k → (advanceMany j (startCommand w s)).busy = true ∧ (advanceMany j (startCommand w s)).done = false ∧
        (advanceMany j (startCommand w s)).err = none ∧
        (advanceMany j (startCommand w s)).op = w.extractLsb' 0 8) ∧
  (∀ (s : State) (w : Word) (rest : List Event), s.busy = false → s.pending = .start w :: rest →
    step s = .next (startCommand w { s with pending := rest }) ∧
    startCommand w s = { s with
      done := false, err := none, errInfo := 0#32, op := w.extractLsb' 0 8, stage := 0#3
      engine := some ⟨w, 0, ⟨0, 0, 0#8, [], [], 0, 0, 0#9, []⟩, none⟩ }) ∧
  (∀ (s : State) (rest : List Event), s.pending = .engine :: rest → step s = .next (advance { s with pending := rest })) ∧
  (∀ s : State, s.pending = [] → step s = .next (advance s)) ∧
  (∀ s : State, s.pending = [] → s.busy = false → step s = .next s)

/-- R300, R301: the reset event, from any state, idle or running, leaves every register and table at the value of R301, the
buffers holding what the event brings. -/
def Obligations.ResetReachesTheResetState : Prop :=
  ∀ (s : State) (i o b : Buffer) (rest : List Event), s.pending = .reset i o b :: rest →
    ∃ t, step s = .next t ∧ t.busy = false ∧ t.statusWord = 0#32 ∧ t.ctrlWord = 0#32 ∧ t.errInfo = 0#32 ∧
      t.inLen = 0#17 ∧ t.bitLen = 0#20 ∧ t.decLen = 0#17 ∧ t.nodeCnt = 0#9 ∧ t.nleaf = 0#9 ∧ t.root = 0x1FF#9 ∧
      t.metOrigBits = 0#20 ∧ t.metEncBits = 0#20 ∧ t.metDiff = 0#32 ∧ t.metRed = 0#32 ∧ t.irq = false ∧
      (∀ x : Byte, ftAt t.ft x = 0#32 ∧ ctAt t.ct x = ⟨0#8, 0#255⟩) ∧
      (∀ n : NodeIdx, nodeAt t.node n = ⟨false, false, 0#8, 0#40, 0#9, 0#9⟩) ∧
      t.ibuf = i ∧ t.obuf = o ∧ t.dbuf = b ∧ peek t 0#16 = 0x48454331#32 ∧ peek t 1#16 = 0#32 ∧
      (peek t 16#16).toNat = s.depths.ibuf.val ∧ (peek t 17#16).toNat = s.depths.obuf.val ∧
      (peek t 18#16).toNat = s.depths.dbuf.val

/-- R24, R39: ID is the constant `0x48454331` and the CAP registers the buffer depths, and no step changes them. -/
def Obligations.ConstantsNeverChange : Prop :=
  ∀ s t : State, step s = .next t →
    peek t 0#16 = 0x48454331#32 ∧ (peek t 16#16).toNat = s.depths.ibuf.val ∧
      (peek t 17#16).toNat = s.depths.obuf.val ∧ (peek t 18#16).toNat = s.depths.dbuf.val ∧ t.depths = s.depths

/-- The invariant holds at reset. -/
def Obligations.ResetMeetsTheInvariant : Prop := Inv State.reset

/-- From every state that meets it, a step gives a state that meets it: canonical buffers, the tree of R47 and R56 but while a
command rebuilds it, DEC_LEN within DBUF, a legal STAGE, no DONE or ERR on display while BUSY, and a running command within
the buffers and on its course, whatever the host does meanwhile (R72). -/
def Obligations.StepKeepsTheInvariant : Prop :=
  ∀ s t : State, Inv s → step s = .next t → Inv t
end

