-- ==== Sys2Proof/Laws/Tables.lean ====
section
/-! SUPPORT. Reading and writing table entries (spec/20_memory.md R77): an entry reads back what was written, the others
are unchanged; a code table entry holds the bit-string it was made of. -/

namespace Sys2Proof.Machine

@[simp] theorem ftAt_replicate (v : Word) (x : Byte) : ftAt (Vector.replicate 256 v) x = v := by
  simp [ftAt]

@[simp] theorem ctAt_replicate (c : Code) (x : Byte) : ctAt (Vector.replicate 256 c) x = c := by
  simp [ctAt]

@[simp] theorem nodeAt_replicate (n : NodeIdx) : nodeAt (Vector.replicate 511 Node.empty) n = Node.empty := by
  unfold nodeAt
  by_cases h : n.toNat < 511 <;> simp [h]

theorem ftAt_ftSet (t : Vector Word 256) (x y : Byte) (v : Word) :
    ftAt (ftSet t x v) y = if y = x then v else ftAt t y := by
  unfold ftAt ftSet
  rw [Vector.getElem_set]
  by_cases h : y = x
  · simp [h]
  · have : ¬ x.toNat = y.toNat := fun e => h (BitVec.eq_of_toNat_eq e.symm)
    simp [h, this]

theorem ctAt_ctSet (t : Vector Code 256) (x y : Byte) (c : Code) :
    ctAt (ctSet t x c) y = if y = x then c else ctAt t y := by
  unfold ctAt ctSet
  rw [Vector.getElem_set]
  by_cases h : y = x
  · simp [h]
  · have : ¬ x.toNat = y.toNat := fun e => h (BitVec.eq_of_toNat_eq e.symm)
    simp [h, this]

/-- Two frequency tables with the same entries are the same. -/
theorem ft_ext {t u : Vector Word 256} (h : ∀ x : Byte, ftAt t x = ftAt u x) : t = u := by
  apply Vector.ext
  intro i hi
  simpa [ftAt, Nat.mod_eq_of_lt hi] using h (BitVec.ofNat 8 i)

/-- Two code tables with the same entries are the same. -/
theorem ct_ext {t u : Vector Code 256} (h : ∀ x : Byte, ctAt t x = ctAt u x) : t = u := by
  apply Vector.ext
  intro i hi
  simpa [ctAt, Nat.mod_eq_of_lt hi] using h (BitVec.ofNat 8 i)

/-- The node memory of a list of at most 511 nodes reads as the list, and as all zero above it (R151). -/
theorem nodeAt_nodeMemory {ns : List Node} (h : ns.length ≤ 511) (n : NodeIdx) :
    nodeAt (nodeMemory ns) n = ns[n.toNat]?.getD Node.empty := by
  unfold nodeAt nodeMemory
  have hn : n.toNat < 512 := n.isLt
  by_cases h1 : n.toNat < 511
  · by_cases h2 : n.toNat < ns.length
    · simp only [Vector.getElem?_mk, List.getElem?_toArray, List.getElem?_take]
      rw [if_pos h1, List.getElem?_append_left h2]
    · simp only [Vector.getElem?_mk, List.getElem?_toArray, List.getElem?_take]
      rw [if_pos h1, List.getElem?_append_right (by omega), List.getElem?_eq_none (by omega : ns.length ≤ n.toNat)]
      rw [List.getElem?_replicate]
      split <;> rfl
  · have h3 : ns.length ≤ n.toNat := by omega
    simp only [Vector.getElem?_mk, List.getElem?_toArray, List.getElem?_take]
    rw [if_neg h1, List.getElem?_eq_none h3]

/-- Two node memories with the same entries are the same. -/
theorem node_ext {t u : Vector Node 511} (h : ∀ n : NodeIdx, nodeAt t n = nodeAt u n) : t = u := by
  apply Vector.ext
  intro i hi
  have hn : (BitVec.ofNat 9 i).toNat = i := by rw [BitVec.toNat_ofNat]; exact Nat.mod_eq_of_lt (by omega)
  simpa [nodeAt, hn, hi] using h (BitVec.ofNat 9 i)

theorem nodeMemory_nil : nodeMemory [] = Vector.replicate 511 Node.empty :=
  node_ext fun n => by rw [nodeAt_nodeMemory (Nat.zero_le _), nodeAt_replicate]; rfl

@[simp] theorem bitsOf_nil : bitsOf [] = 0#255 := rfl

theorem getLsbD_bitsOf (p : Bits) (j : Nat) (hj : j < 255) : (bitsOf p).getLsbD j = p.getD j false := by
  induction p generalizing j with
  | nil => simp
  | cons b p ih =>
    cases j with
    | zero => cases b <;> simp [bitsOf]
    | succ j =>
      have := ih j (by omega)
      cases b <;> simp_all [bitsOf]

@[simp] theorem Code.str_length (c : Code) : c.str.length = c.len.toNat := by simp [Code.str]

theorem Code.str_eq_nil {c : Code} : c.str = [] ↔ c.len = 0#8 := by
  rw [← List.length_eq_zero_iff, Code.str_length]
  exact ⟨fun h => BitVec.eq_of_toNat_eq h, fun h => by rw [h]; rfl⟩

@[simp] theorem Code.str_empty : Code.empty.str = [] := rfl

/-- An entry made of a bit-string of at most CODE_MAX bits holds it (R46, R180). -/
theorem Code.str_ofBits {p : Bits} (h : p.length ≤ 255) : (Code.ofBits p).str = p := by
  have hl : (BitVec.ofNat 8 p.length).toNat = p.length := by
    rw [BitVec.toNat_ofNat]; exact Nat.mod_eq_of_lt (by omega)
  apply List.ext_getElem
  · simp [Code.ofBits, hl]
  · intro j h1 h2
    have h3 : j < 255 := by omega
    simp only [Code.str, Code.ofBits, List.getElem_map, List.getElem_range]
    rw [getLsbD_bitsOf _ _ h3]
    simp [List.getD_eq_getElem?_getD, h2]

/-- `Code.matches` is equality with the code's bit-string (R224). -/
theorem Code.matches_iff (acc : Bits) (c : Code) : Code.matches acc c = true ↔ c.str = acc := by
  unfold Code.matches
  simp only [Bool.and_eq_true, decide_eq_true_eq, and_iff_right_iff_imp]
  intro h
  rw [← h, Code.str_length]

/-- The least symbol whose code is the accumulated bit-string, if there is one (R224). -/
theorem leastMatch_eq_some (ct : Vector Code 256) (acc : Bits) (x : Byte) :
    leastMatch ct acc = some x ↔ (ctAt ct x).str = acc ∧ ∀ y : Byte, y.toNat < x.toNat → (ctAt ct y).str ≠ acc := by
  unfold leastMatch
  rw [Option.map_eq_some_iff]
  constructor
  · rintro ⟨i, hi, rfl⟩
    obtain ⟨hlt, hm, hless⟩ := List.findIdx?_eq_some_iff_getElem.mp hi
    have hlt' : i < 256 := by simpa using hlt
    have hx : (BitVec.ofNat 8 i).toNat = i := by rw [BitVec.toNat_ofNat]; exact Nat.mod_eq_of_lt hlt'
    refine ⟨?_, ?_⟩
    · rw [Code.matches_iff] at hm
      simpa [ctAt, hx] using hm
    · intro y hy
      rw [hx] at hy
      have := hless y.toNat hy
      rw [Code.matches_iff] at this
      simpa [ctAt] using this
  · rintro ⟨hx, hless⟩
    refine ⟨x.toNat, ?_, by simp⟩
    rw [List.findIdx?_eq_some_iff_getElem]
    refine ⟨by simpa using x.isLt, ?_, ?_⟩
    · rw [Code.matches_iff]; simpa [ctAt] using hx
    · intro j hj
      have hj' : j < 256 := lt_trans hj x.isLt
      have hjx : (BitVec.ofNat 8 j).toNat = j := by rw [BitVec.toNat_ofNat]; exact Nat.mod_eq_of_lt hj'
      have := hless (BitVec.ofNat 8 j) (by rw [hjx]; exact hj)
      rw [Code.matches_iff]
      simpa [ctAt, hjx] using this

/-- No symbol's code is the accumulated bit-string (R224). -/
theorem leastMatch_eq_none (ct : Vector Code 256) (acc : Bits) :
    leastMatch ct acc = none ↔ ∀ y : Byte, (ctAt ct y).str ≠ acc := by
  unfold leastMatch
  rw [Option.map_eq_none_iff, List.findIdx?_eq_none_iff]
  constructor
  · intro h y hy
    have := h (ctAt ct y) (by simp [ctAt])
    rw [← Bool.not_eq_true, Code.matches_iff] at this
    exact this hy
  · intro h c hc
    rw [← Bool.not_eq_true, Code.matches_iff]
    obtain ⟨i, hi, rfl⟩ := List.mem_iff_getElem.mp hc
    have hi' : i < 256 := by simpa using hi
    simpa [ctAt, Nat.mod_eq_of_lt hi'] using h (BitVec.ofNat 8 i)

end Sys2Proof.Machine
end

