-- ==== Sys2Proof/Laws/Build.lean ====
section
/-! SUPPORT. The tree builder (spec/42_build.md R150 to R164): what extract-min and one merge do, and what every merge
keeps of the forest built so far. -/

namespace Sys2Proof.Machine

/-! ### The working collection -/

theorem mem_working {ns : List Node} {p : Node × Nat} :
    p ∈ working ns ↔ ns[p.2]? = some p.1 ∧ p.1.active = true := by
  unfold working
  rw [List.mem_filter, List.mem_zipIdx_iff_getElem?]

/-- The sum of a quantity over the working collection, the indices counted from `k`. -/
def workingSum (f : Node → Nat) (ns : List Node) : Nat := ((working ns).map fun p => f p.1).sum

theorem workingFrom_deactivate (f : Node → Nat) (ns : List Node) (k m : Nat) (a : Node) (ha : ns[m]? = some a)
    (hact : a.active = true) :
    ((((deactivate ns m).zipIdx k).filter fun p => p.1.active).map fun p => f p.1).sum + f a =
      (((ns.zipIdx k).filter fun p => p.1.active).map fun p => f p.1).sum := by
  induction ns generalizing k m with
  | nil => simp at ha
  | cons n ns ih =>
    cases m with
    | zero =>
      simp only [List.getElem?_cons_zero, Option.some.injEq] at ha
      subst ha
      simp [deactivate, List.zipIdx_cons, hact, Nat.add_comm]
    | succ m =>
      simp only [List.getElem?_cons_succ] at ha
      have := ih (k + 1) m ha
      simp only [deactivate, List.modify_succ_cons, List.zipIdx_cons, List.filter_cons] at this ⊢
      split
      · simp only [List.map_cons, List.sum_cons]; omega
      · exact this

theorem workingSum_deactivate (f : Node → Nat) {ns : List Node} {m : Nat} {a : Node} (ha : ns[m]? = some a)
    (hact : a.active = true) : workingSum f (deactivate ns m) + f a = workingSum f ns :=
  workingFrom_deactivate f ns 0 m a ha hact

theorem workingSum_append (f : Node → Nat) (ns : List Node) (n : Node) (hn : n.active = true) :
    workingSum f (ns ++ [n]) = workingSum f ns + f n := by
  simp [workingSum, working, List.zipIdx_append, hn]

theorem working_length (ns : List Node) : (working ns).length = workingSum (fun _ => 1) ns := by
  simp [workingSum]

theorem getElem?_deactivate (ns : List Node) (m i : Nat) :
    (deactivate ns m)[i]? = (ns[i]?).map fun n => if i = m then { n with active := false } else n := by
  unfold deactivate
  rw [List.getElem?_modify]
  by_cases h : m = i
  · subst h; simp
  · simp [h, Ne.symm h]

@[simp] theorem length_deactivate (ns : List Node) (m : Nat) : (deactivate ns m).length = ns.length := by
  simp [deactivate]

/-! ### Extract-min -/

theorem lessNode_iff (a b : Node × Nat) :
    lessNode a b = true ↔ a.1.weight.toNat < b.1.weight.toNat ∨
      (a.1.weight.toNat = b.1.weight.toNat ∧ a.2 < b.2) := by
  simp [lessNode, BitVec.lt_def, BitVec.toNat_inj]

/-- R11: the order is total on distinct indices. -/
theorem lessNode_total {a b : Node × Nat} (h : a.2 ≠ b.2) : lessNode a b = true ∨ lessNode b a = true := by
  rw [lessNode_iff, lessNode_iff]; omega

theorem lessNode_trans {a b c : Node × Nat} (h : lessNode a b = true) (h' : lessNode b c = true) :
    lessNode a c = true := by
  rw [lessNode_iff] at *; omega

theorem least_eq_none {l : List (Node × Nat)} : least l = none ↔ l = [] := by
  cases l with
  | nil => simp [least]
  | cons x xs =>
    simp only [least]
    split
    · simp
    · split <;> simp

/-- R155: the least element of a collection with distinct indices. -/
theorem least_spec {l : List (Node × Nat)} (hnd : (l.map Prod.snd).Nodup) {m : Node × Nat} (h : least l = some m) :
    m ∈ l ∧ ∀ x ∈ l, x.2 ≠ m.2 → lessNode m x = true := by
  induction l generalizing m with
  | nil => simp [least] at h
  | cons x xs ih =>
    rw [List.map_cons, List.nodup_cons] at hnd
    simp only [least] at h
    split at h
    · rename_i hn
      rw [least_eq_none] at hn
      cases h; subst hn
      simp
    · rename_i y hy
      obtain ⟨hmem, hmin⟩ := ih hnd.2 hy
      have hxy : x.2 ≠ y.2 := fun e => hnd.1 (e ▸ List.mem_map_of_mem hmem)
      split at h
      · rename_i hl
        cases h
        refine ⟨by simp, fun z hz hne => ?_⟩
        rcases List.mem_cons.mp hz with rfl | hz
        · exact absurd rfl hne
        · by_cases hzy : z.2 = y.2
          · rw [lessNode_iff] at *
            have : z = y := by
              by_contra hc
              exact hc (List.inj_on_of_nodup_map hnd.2 hz hmem hzy)
            rw [this]; exact hl
          · exact lessNode_trans hl (hmin z hz hzy)
      · rename_i hl
        cases h
        refine ⟨by simp [hmem], fun z hz hne => ?_⟩
        rcases List.mem_cons.mp hz with rfl | hz
        · exact (lessNode_total hxy).resolve_left hl
        · exact hmin z hz hne

theorem nodup_working (ns : List Node) : ((working ns).map Prod.snd).Nodup := by
  unfold working
  refine List.Nodup.sublist (l₂ := ns.zipIdx.map Prod.snd) (List.Sublist.map _ List.filter_sublist) ?_
  rw [List.zipIdx_map_snd]
  exact List.nodup_range'

/-- `ExtractMin` (R155): the node taken is in the working collection and less than every other; it is deactivated. -/
theorem extractMin_spec {ns ns' : List Node} {m : Node × Nat} (h : extractMin ns = some (m, ns')) :
    ns' = deactivate ns m.2 ∧ ns[m.2]? = some m.1 ∧ m.1.active = true ∧
      ∀ x ∈ working ns, x.2 ≠ m.2 → lessNode m x = true := by
  unfold extractMin at h
  split at h
  · simp at h
  · rename_i p hp
    simp only [Option.some.injEq, Prod.mk.injEq] at h
    obtain ⟨rfl, rfl⟩ := h
    obtain ⟨hmem, hmin⟩ := least_spec (nodup_working ns) hp
    rw [mem_working] at hmem
    exact ⟨rfl, hmem.1, hmem.2, hmin⟩

theorem extractMin_eq_none {ns : List Node} : extractMin ns = none ↔ working ns = [] := by
  unfold extractMin
  split
  · rename_i h; simpa using least_eq_none.mp h
  · rename_i h
    constructor
    · simp
    · intro hw; rw [hw] at h; simp [least] at h

/-! ### One merge -/

/-- What one merge does (R155, R156): `a` is least, `b` is least of the rest, the new node goes last. -/
theorem mergeOnce_spec {ns ns' : List Node} (h : mergeOnce ns = some ns') :
    ∃ a b : Node × Nat, ns[a.2]? = some a.1 ∧ ns[b.2]? = some b.1 ∧ a.1.active = true ∧ b.1.active = true ∧
      a.2 ≠ b.2 ∧ (∀ x ∈ working ns, x.2 ≠ a.2 → lessNode a x = true) ∧
      (∀ x ∈ working ns, x.2 ≠ a.2 → x.2 ≠ b.2 → lessNode b x = true) ∧
      ns' = deactivate (deactivate ns a.2) b.2 ++ [Node.newInternal (a.1.weight + b.1.weight) a.2 b.2] := by
  unfold mergeOnce at h
  split at h
  · simp at h
  · rename_i a ns1 ha
    obtain ⟨rfl, ha1, haa, hmin⟩ := extractMin_spec ha
    split at h
    · simp at h
    · rename_i b ns2 hb
      obtain ⟨rfl, hb1, hba, hminb⟩ := extractMin_spec hb
      simp only [Option.some.injEq] at h
      rw [getElem?_deactivate, Option.map_eq_some_iff] at hb1
      obtain ⟨n, hn, hn'⟩ := hb1
      have hab : a.2 ≠ b.2 := by
        intro e
        rw [if_pos e.symm] at hn'
        rw [← hn'] at hba
        simp at hba
      rw [if_neg (Ne.symm hab)] at hn'
      subst hn'
      refine ⟨a, b, ha1, hn, haa, hba, hab, hmin, ?_, h.symm⟩
      intro x hx hxa hxb
      refine hminb x ?_ hxb
      rw [mem_working] at hx ⊢
      rw [getElem?_deactivate, hx.1]
      simp [hxa, hx.2]

theorem mergeOnce_eq_none {ns : List Node} (h : mergeOnce ns = none) : (working ns).length ≤ 1 := by
  unfold mergeOnce at h
  split at h
  · rename_i hn; rw [extractMin_eq_none] at hn; simp [hn]
  · rename_i a ns1 ha
    obtain ⟨rfl, ha1, haa, -⟩ := extractMin_spec ha
    split at h
    · rename_i hn
      rw [extractMin_eq_none] at hn
      have := workingSum_deactivate (fun _ => 1) ha1 haa
      rw [← working_length, ← working_length, hn] at this
      simp at this
      omega
    · simp at h

theorem mergeOnce_isSome {ns : List Node} (h : 2 ≤ (working ns).length) : ∃ ns', mergeOnce ns = some ns' := by
  cases hm : mergeOnce ns with
  | none => have := mergeOnce_eq_none hm; omega
  | some ns' => exact ⟨ns', rfl⟩

end Sys2Proof.Machine
end

