-- ==== Sys2Proof/Laws/Count.lean ====
section
/-! SUPPORT. The frequency counter (spec/41_count.md R140 to R142). -/

namespace Sys2Proof.Machine

theorem occurrences_succ (m : Buffer) (n : Nat) (x : Byte) :
    occurrences m (n + 1) x = occurrences m n x + (if symbolAt m n = x then 1 else 0) := by
  unfold occurrences
  rw [List.range_succ, List.filter_append, List.length_append]
  by_cases h : symbolAt m n = x <;> simp [h]

theorem occurrences_le (m : Buffer) (n : Nat) (x : Byte) : occurrences m n x ≤ n := by
  unfold occurrences
  exact (List.length_filter_le _ _).trans (by simp)

theorem ftAt_bump (t : Vector Word 256) (x y : Byte) : ftAt (bump t x) y = if y = x then ftAt t x + 1#32 else ftAt t y :=
  ftAt_ftSet _ _ _ _

/-- The table after `n` symbols counts them; no count overflows (R142 (b)). -/
theorem countTable_spec (m : Buffer) {n : Nat} (hn : n < 2 ^ 32) (x : Byte) :
    (ftAt (countTable m n) x).toNat = occurrences m n x := by
  induction n with
  | zero => simp [countTable, occurrences]
  | succ n ih =>
    have h := ih (by omega)
    have hle := occurrences_le m n x
    rw [countTable, ftAt_bump, occurrences_succ]
    by_cases hx : symbolAt m n = x
    · rw [if_pos hx.symm, if_pos hx, hx, BitVec.toNat_add, h]
      exact Nat.mod_eq_of_lt (by simp; omega)
    · rw [if_neg (Ne.symm hx), if_neg hx, h]; rfl

theorem totalCount_ftSet (t : Vector Word 256) (x : Byte) (v : Word) :
    totalCount (ftSet t x v) + (ftAt t x).toNat = totalCount t + v.toNat := by
  have key : ∀ (l : List Nat) (i : Nat) (h : i < l.length) (w : Nat), (l.set i w).sum + l[i] = l.sum + w := by
    intro l
    induction l with
    | nil => intro i h; simp at h
    | cons a l ih =>
      intro i h w
      cases i with
      | zero => simp; omega
      | succ i =>
        have := ih i (by simpa using h) w
        simp only [List.set_cons_succ, List.sum_cons, List.getElem_cons_succ]
        omega
  have := key (t.toList.map BitVec.toNat) x.toNat (by simpa using x.isLt) v.toNat
  unfold totalCount ftSet ftAt
  rw [Vector.toList_set, List.map_set]
  simpa using this

/-- The counts sum to the number of symbols counted (R142 (c)). -/
theorem totalCount_countTable (m : Buffer) {n : Nat} (hn : n < 2 ^ 32) : totalCount (countTable m n) = n := by
  induction n with
  | zero =>
    unfold totalCount countTable
    rw [Vector.toList_replicate, List.map_replicate, List.sum_replicate]; rfl
  | succ n ih =>
    have h := totalCount_ftSet (countTable m n) (symbolAt m n) (ftAt (countTable m n) (symbolAt m n) + 1#32)
    have hc := countTable_spec m (n := n) (by omega) (symbolAt m n)
    have hle := occurrences_le m n (symbolAt m n)
    have hv : (ftAt (countTable m n) (symbolAt m n) + 1#32).toNat = (ftAt (countTable m n) (symbolAt m n)).toNat + 1 := by
      rw [BitVec.toNat_add, hc]
      exact Nat.mod_eq_of_lt (by simp; omega)
    rw [hv, ih (by omega)] at h
    change totalCount (bump _ _) = _
    unfold bump
    omega

end Sys2Proof.Machine
end

