-- ==== Sys2Proof/Laws/Memory.lean ====
section
/-! SUPPORT. What reading and writing one buffer element does (spec/20_memory.md R78), for every list of cells; the
canonical form is kept by every write. -/

namespace Sys2Proof.Machine

@[simp] theorem Buffer.read_nil (i : Nat) : Buffer.read [] i = Config.unwritten := rfl

@[simp] theorem Buffer.read_cons (a : Nat) (v : Byte) (m : Buffer) (i : Nat) :
    Buffer.read ((a, v) :: m) i = if a = i then v else Buffer.read m i := rfl

theorem Buffer.read_filter_same (m : Buffer) (i : Nat) :
    Buffer.read (m.filter fun c => c.1 != i) i = Config.unwritten := by
  induction m with
  | nil => rfl
  | cons c m ih =>
    obtain ⟨a, v⟩ := c
    by_cases h : a = i <;> simp [h, ih]

theorem Buffer.read_filter_other (m : Buffer) {i j : Nat} (hij : j ≠ i) :
    Buffer.read (m.filter fun c => c.1 != i) j = Buffer.read m j := by
  induction m with
  | nil => rfl
  | cons c m ih =>
    obtain ⟨a, v⟩ := c
    by_cases h : a = i
    · subst h; simp [ih, Ne.symm hij]
    · simp [h, ih]

theorem Buffer.read_insert (m : Buffer) (c : Host.Cell) (hm : ∀ d ∈ m, d.1 ≠ c.1) (j : Nat) :
    Buffer.read (Buffer.insert m c) j = if c.1 = j then c.2 else Buffer.read m j := by
  obtain ⟨i, v⟩ := c
  induction m with
  | nil => rfl
  | cons d m ih =>
    obtain ⟨a, u⟩ := d
    have hd : a ≠ i := hm (a, u) (by simp)
    have ht : ∀ d ∈ m, d.1 ≠ i := fun d h => hm d (by simp [h])
    simp only [Buffer.insert]
    split
    · simp
    · by_cases haj : a = j
      · subst haj; simp [Ne.symm hd]
      · simp [haj, ih ht]

theorem Buffer.mem_filter_ne (m : Buffer) (i : Nat) : ∀ d ∈ m.filter (fun c => c.1 != i), d.1 ≠ i := by
  intro d hd
  simpa using (List.mem_filter.mp hd).2

/-- A byte write changes that byte and no other (R78). -/
theorem Buffer.read_write (m : Buffer) (i j : Nat) (v : Byte) :
    (m.write i v).read j = if j = i then v else m.read j := by
  unfold Buffer.write
  by_cases hv : v = Config.unwritten
  · by_cases hj : j = i
    · subst hj; simp [hv, Buffer.read_filter_same]
    · simp [hv, hj, Buffer.read_filter_other m hj]
  · simp only [hv, if_false]
    rw [Buffer.read_insert _ _ (Buffer.mem_filter_ne m i)]
    by_cases hj : j = i
    · subst hj; simp
    · simp [hj, Ne.symm hj, Buffer.read_filter_other m hj]

@[simp] theorem Buffer.read_write_same (m : Buffer) (i : Nat) (v : Byte) : (m.write i v).read i = v := by
  simp [Buffer.read_write]

theorem Buffer.read_write_other (m : Buffer) {i j : Nat} (v : Byte) (h : j ≠ i) :
    (m.write i v).read j = m.read j := by simp [Buffer.read_write, h]

theorem Buffer.wfFrom_mono {depth lo lo' : Nat} {m : Buffer} (hl : lo' ≤ lo) (h : Buffer.wfFrom depth lo m = true) :
    Buffer.wfFrom depth lo' m = true := by
  cases m with
  | nil => rfl
  | cons c m =>
    obtain ⟨a, v⟩ := c
    simp only [Buffer.wfFrom, Bool.and_eq_true, decide_eq_true_eq] at h ⊢
    exact ⟨⟨⟨by omega, h.1.1.2⟩, h.1.2⟩, h.2⟩

theorem Buffer.wfFrom_filter {depth lo : Nat} {m : Buffer} (p : Host.Cell → Bool)
    (h : Buffer.wfFrom depth lo m = true) : Buffer.wfFrom depth lo (m.filter p) = true := by
  induction m generalizing lo with
  | nil => rfl
  | cons c m ih =>
    obtain ⟨a, v⟩ := c
    simp only [Buffer.wfFrom, Bool.and_eq_true, decide_eq_true_eq] at h
    rw [List.filter_cons]
    split
    · simp only [Buffer.wfFrom, Bool.and_eq_true, decide_eq_true_eq]
      exact ⟨h.1, ih h.2⟩
    · exact Buffer.wfFrom_mono (by omega) (ih h.2)

theorem Buffer.wfFrom_insert {depth lo : Nat} {m : Buffer} {c : Host.Cell} (hlo : lo ≤ c.1) (hd : c.1 < depth)
    (hv : c.2 ≠ Config.unwritten) (hm : ∀ d ∈ m, d.1 ≠ c.1) (h : Buffer.wfFrom depth lo m = true) :
    Buffer.wfFrom depth lo (Buffer.insert m c) = true := by
  obtain ⟨i, v⟩ := c
  induction m generalizing lo with
  | nil => simp [Buffer.insert, Buffer.wfFrom]; exact ⟨⟨hlo, hd⟩, hv⟩
  | cons d m ih =>
    obtain ⟨a, u⟩ := d
    have hai : a ≠ i := hm (a, u) (by simp)
    simp only [Buffer.wfFrom, Bool.and_eq_true, decide_eq_true_eq] at h
    simp only [Buffer.insert]
    split
    · rename_i hlt
      simp only [Buffer.wfFrom, Bool.and_eq_true, decide_eq_true_eq]
      dsimp only at hlt hlo hd hv
      exact ⟨⟨⟨hlo, hd⟩, hv⟩, ⟨⟨by omega, h.1.1.2⟩, h.1.2⟩, h.2⟩
    · rename_i hlt
      simp only [Buffer.wfFrom, Bool.and_eq_true, decide_eq_true_eq]
      refine ⟨h.1, ih h.2 ?_ (fun d hd' => hm d (List.mem_cons_of_mem _ hd'))⟩
      dsimp only at hlt ⊢; omega

/-- A write inside the depth keeps the canonical form. -/
theorem Buffer.wf_write {depth : Nat} {m : Buffer} {i : Nat} (v : Byte) (hi : i < depth)
    (h : Buffer.wf depth m = true) : Buffer.wf depth (m.write i v) = true := by
  unfold Buffer.wf at *
  unfold Buffer.write
  dsimp only
  split
  · exact Buffer.wfFrom_filter _ h
  · rename_i hv
    exact Buffer.wfFrom_insert (Nat.zero_le _) hi hv (Buffer.mem_filter_ne m i) (Buffer.wfFrom_filter _ h)

@[simp] theorem Buffer.wf_nil (depth : Nat) : Buffer.wf depth [] = true := rfl

end Sys2Proof.Machine
end

