-- ==== Sys2Proof/Laws/Encode.lean ====
section
/-! SUPPORT. The bit packer (spec/44_encode.md R200 to R203): what the packer holds after a stream of bits, and how far
ENCODE gets. -/

namespace Sys2Proof.Machine

theorem getLsbD_setBit (acc : Byte) {k j : Nat} (hk : k < 8) (hj : j < 8) (b : Bool) :
    (setBit acc k b).getLsbD j = if j = k then b else acc.getLsbD j := by
  unfold setBit
  have h1 : (1#8 <<< k).getLsbD j = decide (j = k) := by
    rw [BitVec.getLsbD_shiftLeft]
    by_cases h : j = k
    · subst h; simp [hj]
    · by_cases h2 : j < k
      · simp [h, h2]
      · have : j - k ≠ 0 := by omega
        simp [h, this]
  cases b
  · simp only [Bool.false_eq_true, if_false, BitVec.getLsbD_and, BitVec.getLsbD_not, h1, hj]
    by_cases h : j = k <;> simp [h]
  · simp only [if_true, BitVec.getLsbD_or, h1]
    by_cases h : j = k <;> simp [h]

/-- A packer that has taken the bits `σ` over a buffer that held `old` (R200, R201). -/
structure Packed (old : Buffer) (σ : Bits) (p : Pack) : Prop where
  nb : p.nb = σ.length
  ok : p.raised = none
  full : ∀ k, k < 8 * (σ.length / 8) → streamBit p.obuf k = σ.getD k false
  rest : ∀ j, σ.length / 8 ≤ j → p.obuf.read j = old.read j
  part : ∀ t, t < 8 → p.acc.getLsbD (7 - t) = σ.getD (8 * (σ.length / 8) + t) false

theorem streamBit_write (m : Buffer) (i : Nat) (v : Byte) (k : Nat) :
    streamBit (m.write i v) k = if k / 8 = i then v.getLsbD (7 - k % 8) else streamBit m k := by
  unfold streamBit
  rw [Buffer.read_write]
  split <;> rfl

theorem packed_nil (old : Buffer) : Packed old [] ⟨0, 0#8, old, none⟩ :=
  ⟨rfl, rfl, fun k h => by simp at h, fun _ _ => rfl, fun t _ => by simp⟩

/-- One bit more. -/
theorem Packed.packBit {old : Buffer} {σ : Bits} {p : Pack} (h : Packed old σ p) (b : Bool) :
    Packed old (σ ++ [b]) (packBit p b) := by
  have hnb := h.nb
  have hget : ∀ k, (σ ++ [b]).getD k false = if k = σ.length then b else σ.getD k false := by
    intro k
    rcases Nat.lt_trichotomy k σ.length with hk | hk | hk
    · simp [List.getD_eq_getElem?_getD, List.getElem?_append_left, hk, Nat.ne_of_lt hk]
    · subst hk; simp [List.getD_eq_getElem?_getD]
    · rw [List.getD_eq_getElem?_getD, List.getElem?_eq_none (by simp; omega), if_neg (by omega),
        List.getD_eq_getElem?_getD, List.getElem?_eq_none (by omega)]
  have hacc : ∀ t, t < 8 → (setBit p.acc (7 - p.nb % 8) b).getLsbD (7 - t) =
      (σ ++ [b]).getD (8 * (σ.length / 8) + t) false := by
    intro t ht
    rw [getLsbD_setBit _ (by omega) (by omega), hget, hnb]
    by_cases he : t = σ.length % 8
    · rw [if_pos (by omega), if_pos (by omega)]
    · rw [if_neg (by omega), if_neg (by omega)]
      exact h.part t ht
  unfold Machine.packBit
  dsimp only
  have hlen : (σ ++ [b]).length = σ.length + 1 := by simp
  split
  · rename_i h8
    rw [hnb] at h8
    have hq : (σ.length + 1) / 8 = σ.length / 8 + 1 := by omega
    have hi : (p.nb + 1) / 8 - 1 = σ.length / 8 := by omega
    refine ⟨by rw [hlen]; simp [hnb], h.ok, ?_, ?_, ?_⟩
    · intro k hk
      rw [hlen, hq] at hk
      show streamBit (p.obuf.write ((p.nb + 1) / 8 - 1) _) k = _
      rw [hi, streamBit_write]
      by_cases hk8 : k / 8 = σ.length / 8
      · rw [if_pos hk8, hacc _ (by omega)]
        congr 1
        omega
      · rw [if_neg hk8, h.full k (by omega), hget, if_neg (by omega)]
    · intro j hj
      rw [hlen, hq] at hj
      show (p.obuf.write ((p.nb + 1) / 8 - 1) _).read j = _
      rw [Buffer.read_write_other _ _ (by omega)]
      exact h.rest j (by omega)
    · intro t ht
      rw [hlen]
      show (0x00#8).getLsbD (7 - t) = _
      rw [hget, if_neg (by omega), List.getD_eq_getElem?_getD, List.getElem?_eq_none (by omega)]
      simp
  · rename_i h8
    rw [hnb] at h8
    have hq : (σ.length + 1) / 8 = σ.length / 8 := by omega
    refine ⟨by rw [hlen]; simp [hnb], h.ok, ?_, ?_, ?_⟩
    · intro k hk
      rw [hlen, hq] at hk
      rw [hget, if_neg (by omega)]
      exact h.full k hk
    · intro j hj
      rw [hlen, hq] at hj
      exact h.rest j hj
    · intro t ht
      rw [hlen, hq]
      exact hacc t ht

theorem Packed.foldl {old : Buffer} {σ : Bits} {p : Pack} (h : Packed old σ p) (c : Bits) :
    Packed old (σ ++ c) (c.foldl Machine.packBit p) := by
  induction c generalizing σ p with
  | nil => simpa using h
  | cons b c ih =>
    rw [List.foldl_cons, show σ ++ b :: c = σ ++ [b] ++ c by simp]
    exact ih (h.packBit b)

/-- The stream, zero-padded on the right, once the last chunk is flushed (R201). -/
theorem Packed.flushed_bit {old : Buffer} {σ : Bits} {p : Pack} (h : Packed old σ p) {k : Nat}
    (hk : k < 8 * ((σ.length + 7) / 8)) : streamBit (flushed p) k = σ.getD k false := by
  unfold flushed
  rw [h.nb]
  split
  · exact h.full k (by omega)
  · rw [streamBit_write]
    split
    · rw [h.part _ (by omega)]
      congr 1
      omega
    · exact h.full k (by omega)

/-- No byte past the last chunk is written (R200, R205 (c)). -/
theorem Packed.flushed_rest {old : Buffer} {σ : Bits} {p : Pack} (h : Packed old σ p) {j : Nat}
    (hj : (σ.length + 7) / 8 ≤ j) : (flushed p).read j = old.read j := by
  unfold flushed
  rw [h.nb]
  split
  · exact h.rest j (by omega)
  · rw [Buffer.read_write_other _ _ (by omega)]
    exact h.rest j (by omega)

theorem symbolsOf_succ (m : Buffer) (n : Nat) : symbolsOf m (n + 1) = symbolsOf m n ++ [symbolAt m n] := by
  simp [symbolsOf, List.range_succ]

theorem streamOf_append (ct : Vector Code 256) (xs ys : List Byte) :
    streamOf ct (xs ++ ys) = streamOf ct xs ++ streamOf ct ys := by simp [streamOf]

theorem streamOf_succ (ct : Vector Code 256) (m : Buffer) (n : Nat) :
    streamOf ct (symbolsOf m (n + 1)) = streamOf ct (symbolsOf m n) ++ codeOf ct (symbolAt m n) := by
  rw [symbolsOf_succ, streamOf_append]; simp [streamOf]

theorem codeOf_length (ct : Vector Code 256) (x : Byte) : (codeOf ct x).length = (ctAt ct x).len.toNat :=
  Code.str_length _

theorem streamOf_length_mono (ct : Vector Code 256) (m : Buffer) {i j : Nat} (h : i ≤ j) :
    (streamOf ct (symbolsOf m i)).length ≤ (streamOf ct (symbolsOf m j)).length := by
  induction h with
  | refl => exact le_refl _
  | step _ ih => rw [streamOf_succ, List.length_append]; omega

variable {depth : Nat} {ct : Vector Code 256} {ibuf obuf : Buffer}

/-- A symbol that passes both tests has an entry, and its code fits (R202). -/
theorem symbolError_none {d i nb : Nat} {x : Byte} (h : symbolError d ct i x nb = none) :
    (ctAt ct x).len ≠ 0#8 ∧ nb + (ctAt ct x).len.toNat ≤ 8 * d := by
  unfold symbolError at h
  split at h
  · cases h
  · split at h
    · cases h
    · exact ⟨‹_›, by omega⟩

/-- What the two tests raise (R202). -/
theorem symbolError_some {d i nb : Nat} {x : Byte} {r : Raise} (h : symbolError d ct i x nb = some r) :
    (r.kind = .invariantViolation ∧ (ctAt ct x).len = 0#8) ∨ r.kind = .overflow := by
  unfold symbolError at h
  split at h
  · cases h; exact Or.inl ⟨rfl, ‹_›⟩
  · split at h <;> cases h; exact Or.inr rfl

theorem symbolError_eq_none {d i nb : Nat} {x : Byte} (h : (ctAt ct x).len ≠ 0#8)
    (hl : nb + (ctAt ct x).len.toNat ≤ 8 * d) : symbolError d ct i x nb = none := by
  unfold symbolError
  rw [if_neg h, if_neg (by omega)]

/-- As long as every symbol has an entry and the stream fits, the packer holds the stream (R200). -/
theorem packed_symbols {n : Nat} (hc : ∀ i, i < n → (ctAt ct (symbolAt ibuf i)).len ≠ 0#8)
    (hl : (streamOf ct (symbolsOf ibuf n)).length ≤ 8 * depth) :
    Packed obuf (streamOf ct (symbolsOf ibuf n)) (packSymbols depth ct ibuf obuf n) := by
  induction n with
  | zero => exact packed_nil obuf
  | succ n ih =>
    have hle := streamOf_length_mono ct ibuf (Nat.le_succ n)
    have h := ih (fun i hi => hc i (by omega)) (le_trans hle hl)
    rw [streamOf_succ] at hl ⊢
    rw [List.length_append, codeOf_length] at hl
    simp only [packSymbols, packSymbol]
    rw [if_neg (by simp [h.ok]), symbolError_eq_none (hc n (by omega)) (by rw [h.nb]; omega)]
    exact h.foldl _

/-- A symbol without an entry is INVARIANT_VIOLATION (R202 (2)). -/
theorem packSymbol_missing {d i : Nat} {x : Byte} {p : Pack} (hp : p.raised = none) (h : (ctAt ct x).len = 0#8) :
    packSymbol d ct i x p = { p with raised := some ⟨.invariantViolation, BitVec.ofNat 32 i⟩ } := by
  unfold packSymbol symbolError; simp [hp, h]

/-- A code that does not fit is OVERFLOW (R202 (3)). -/
theorem packSymbol_overflow {d i : Nat} {x : Byte} {p : Pack} (hp : p.raised = none) (h : (ctAt ct x).len ≠ 0#8)
    (ho : 8 * d < p.nb + (ctAt ct x).len.toNat) :
    packSymbol d ct i x p = { p with raised := some ⟨.overflow, BitVec.ofNat 32 i⟩ } := by
  unfold packSymbol symbolError; simp [hp, h, ho]

/-- Once raised, an error stays (R276). -/
theorem packSymbols_raised {n m : Nat} (hnm : n ≤ m) (h : (packSymbols depth ct ibuf obuf n).raised.isSome = true) :
    packSymbols depth ct ibuf obuf m = packSymbols depth ct ibuf obuf n := by
  induction hnm with
  | refl => rfl
  | step _ ih => simp only [packSymbols]; rw [ih, packSymbol, if_pos h]

/-- An ENCODE that raises nothing found every symbol in the table and room for the stream (R202). -/
theorem packSymbols_ok {n : Nat} (h : (packSymbols depth ct ibuf obuf n).raised = none) :
    (∀ i, i < n → (ctAt ct (symbolAt ibuf i)).len ≠ 0#8) ∧ (streamOf ct (symbolsOf ibuf n)).length ≤ 8 * depth := by
  induction n with
  | zero => exact ⟨fun i hi => by omega, by simp [symbolsOf, streamOf]⟩
  | succ n ih =>
    have h0 : (packSymbols depth ct ibuf obuf n).raised = none := by
      by_contra hc
      have hs : (packSymbols depth ct ibuf obuf n).raised.isSome = true := by
        rwa [Option.isSome_iff_ne_none]
      rw [packSymbols_raised (Nat.le_succ n) hs] at h
      exact hc h
    obtain ⟨h1, h2⟩ := ih h0
    have hp := packed_symbols (obuf := obuf) h1 h2
    simp only [packSymbols, packSymbol] at h
    rw [if_neg (by simp [h0])] at h
    split at h
    · simp at h
    · rename_i hn
      obtain ⟨hlen, hfit⟩ := symbolError_none hn
      rw [hp.nb] at hfit
      refine ⟨fun i hi => ?_, ?_⟩
      · by_cases he : i = n
        · rw [he]; exact hlen
        · exact h1 i (by omega)
      · rw [streamOf_succ, List.length_append, codeOf_length]; omega

theorem packedBits_eq {m : Buffer} {σ : Bits} (h : ∀ k, k < σ.length → streamBit m k = σ.getD k false) :
    packedBits m σ.length = σ := by
  apply List.ext_getElem
  · simp [packedBits]
  · intro k h1 h2
    simp [packedBits, h k h2, List.getD_eq_getElem?_getD, h2]

/-- An ENCODE that raised something raised INVARIANT_VIOLATION or OVERFLOW (R202). -/
theorem packSymbols_kind {n : Nat} {r : Raise} (h : (packSymbols depth ct ibuf obuf n).raised = some r) :
    (r.kind = .invariantViolation ∧ ∃ i, i < n ∧ (ctAt ct (symbolAt ibuf i)).len = 0#8) ∨ r.kind = .overflow := by
  induction n with
  | zero => simp [packSymbols] at h
  | succ n ih =>
    by_cases hs : (packSymbols depth ct ibuf obuf n).raised.isSome = true
    · rw [packSymbols_raised (Nat.le_succ n) hs] at h
      rcases ih h with ⟨h1, i, h2, h3⟩ | h1
      · exact Or.inl ⟨h1, i, by omega, h3⟩
      · exact Or.inr h1
    · have hn : (packSymbols depth ct ibuf obuf n).raised = none := by simpa using hs
      have hok := packSymbols_ok hn
      have hp := packed_symbols (obuf := obuf) hok.1 hok.2
      simp only [packSymbols, packSymbol] at h
      rw [if_neg hs] at h
      split at h
      · rename_i e
        simp only [Option.some.injEq] at h
        subst h
        exact (symbolError_some e).imp_left fun e' => ⟨e'.1, n, by omega, e'.2⟩
      · rw [(hp.foldl _).ok] at h; simp at h

theorem wf_packBit {d : Nat} {p : Pack} (b : Bool) (hd : p.nb < 8 * d) (h : Buffer.wf d p.obuf = true) :
    Buffer.wf d (packBit p b).obuf = true := by
  unfold packBit
  dsimp only
  split
  · exact Buffer.wf_write _ (by omega) h
  · exact h

theorem packBit_nb (p : Pack) (b : Bool) : (packBit p b).nb = p.nb + 1 := by
  unfold packBit; dsimp only; split <;> rfl

theorem foldl_packBit_nb (c : Bits) (p : Pack) : (c.foldl packBit p).nb = p.nb + c.length := by
  induction c generalizing p with
  | nil => rfl
  | cons b c ih => rw [List.foldl_cons, ih, packBit_nb, List.length_cons]; omega

theorem wf_foldl_packBit {d : Nat} (c : Bits) {p : Pack} (hd : p.nb + c.length ≤ 8 * d)
    (h : Buffer.wf d p.obuf = true) : Buffer.wf d (c.foldl packBit p).obuf = true := by
  induction c generalizing p with
  | nil => exact h
  | cons b c ih =>
    rw [List.length_cons] at hd
    rw [List.foldl_cons]
    exact ih (by rw [packBit_nb]; omega) (wf_packBit b (by omega) h)

/-- ENCODE keeps OBUF canonical and writes inside its depth (R78). -/
theorem wf_packSymbols (n : Nat) (h : Buffer.wf depth obuf = true) :
    Buffer.wf depth (packSymbols depth ct ibuf obuf n).obuf = true ∧
      (packSymbols depth ct ibuf obuf n).nb ≤ 8 * depth := by
  induction n with
  | zero => exact ⟨h, Nat.zero_le _⟩
  | succ n ih =>
    simp only [packSymbols, packSymbol]
    split
    · exact ih
    · split
      · exact ih
      · rename_i e
        have hf := symbolError_none e
        have hl := Code.str_length (ctAt ct (symbolAt ibuf n))
        refine ⟨wf_foldl_packBit _ (by omega) ih.1, ?_⟩
        rw [foldl_packBit_nb]; omega

theorem wf_flushed {p : Pack} (h : Buffer.wf depth p.obuf = true) (hn : p.nb ≤ 8 * depth) :
    Buffer.wf depth (flushed p) = true := by
  unfold flushed
  split
  · exact h
  · exact Buffer.wf_write _ (by omega) h

/-! ### Elements at and above the depth -/

theorem packBit_rest {d : Nat} {p : Pack} (b : Bool) (hd : p.nb < 8 * d) {j : Nat} (hj : d ≤ j) :
    (packBit p b).obuf.read j = p.obuf.read j := by
  unfold packBit; dsimp only; split
  · dsimp only; rw [Buffer.read_write_other]; omega
  · rfl

theorem foldl_packBit_rest {d : Nat} (c : Bits) {p : Pack} (hd : p.nb + c.length ≤ 8 * d) {j : Nat} (hj : d ≤ j) :
    (c.foldl packBit p).obuf.read j = p.obuf.read j := by
  induction c generalizing p with
  | nil => rfl
  | cons b c ih =>
    rw [List.foldl_cons, ih, packBit_rest (d := d) b (by simp at hd; omega) hj]
    rw [packBit_nb]; simp at hd; omega

/-- The packer writes no element at or above the depth and counts no more bits than fit (R78). -/
theorem packSymbols_rest {d : Nat} {ct : Vector Code 256} {ibuf obuf : Buffer} (n : Nat) {j : Nat} (hj : d ≤ j) :
    (packSymbols d ct ibuf obuf n).obuf.read j = obuf.read j ∧ (packSymbols d ct ibuf obuf n).nb ≤ 8 * d := by
  induction n with
  | zero => exact ⟨rfl, Nat.zero_le _⟩
  | succ n ih =>
    simp only [packSymbols]
    unfold packSymbol
    split
    · exact ih
    · split
      · exact ih
      · rename_i h
        have h := symbolError_none h
        rw [foldl_packBit_nb, Code.str_length]
        exact ⟨by rw [foldl_packBit_rest (d := d) _ (by rw [Code.str_length]; omega) hj]; exact ih.1, by omega⟩

theorem flushed_above {d : Nat} {p : Pack} (h : p.nb ≤ 8 * d) {j : Nat} (hj : d ≤ j) :
    (flushed p).read j = p.obuf.read j := by
  unfold flushed; split
  · rfl
  · rw [Buffer.read_write_other]; omega

end Sys2Proof.Machine
end

