-- ==== Sys2Proof/Laws/State.lean ====
section
/-! SUPPORT. The named updates of State, one lemma per field, true by rfl: acceptance, display of an error, completion. -/

namespace Sys2Proof.Machine

@[simp] theorem accept_done (w : Word) (s : State) : (accept w s).done = false := rfl

@[simp] theorem accept_serr (w : Word) (s : State) : (accept w s).serr = s.serr := rfl

@[simp] theorem accept_ovr (w : Word) (s : State) : (accept w s).ovr = s.ovr := rfl

@[simp] theorem accept_err (w : Word) (s : State) : (accept w s).err = none := rfl

@[simp] theorem accept_op (w : Word) (s : State) : (accept w s).op = opField w := rfl

@[simp] theorem accept_stage (w : Word) (s : State) : (accept w s).stage = 0#3 := rfl

@[simp] theorem accept_ie (w : Word) (s : State) : (accept w s).ie = s.ie := rfl

@[simp] theorem accept_errInfo (w : Word) (s : State) : (accept w s).errInfo = 0#32 := rfl

@[simp] theorem accept_inLen (w : Word) (s : State) : (accept w s).inLen = s.inLen := rfl

@[simp] theorem accept_bitLen (w : Word) (s : State) : (accept w s).bitLen = s.bitLen := rfl

@[simp] theorem accept_decLen (w : Word) (s : State) : (accept w s).decLen = s.decLen := rfl

@[simp] theorem accept_nodeCnt (w : Word) (s : State) : (accept w s).nodeCnt = s.nodeCnt := rfl

@[simp] theorem accept_nleaf (w : Word) (s : State) : (accept w s).nleaf = s.nleaf := rfl

@[simp] theorem accept_root (w : Word) (s : State) : (accept w s).root = s.root := rfl

@[simp] theorem accept_metOrigBits (w : Word) (s : State) : (accept w s).metOrigBits = s.metOrigBits := rfl

@[simp] theorem accept_metEncBits (w : Word) (s : State) : (accept w s).metEncBits = s.metEncBits := rfl

@[simp] theorem accept_metDiff (w : Word) (s : State) : (accept w s).metDiff = s.metDiff := rfl

@[simp] theorem accept_metRed (w : Word) (s : State) : (accept w s).metRed = s.metRed := rfl

@[simp] theorem accept_ft (w : Word) (s : State) : (accept w s).ft = s.ft := rfl

@[simp] theorem accept_node (w : Word) (s : State) : (accept w s).node = s.node := rfl

@[simp] theorem accept_ct (w : Word) (s : State) : (accept w s).ct = s.ct := rfl

@[simp] theorem accept_ibuf (w : Word) (s : State) : (accept w s).ibuf = s.ibuf := rfl

@[simp] theorem accept_obuf (w : Word) (s : State) : (accept w s).obuf = s.obuf := rfl

@[simp] theorem accept_dbuf (w : Word) (s : State) : (accept w s).dbuf = s.dbuf := rfl

@[simp] theorem accept_depths (w : Word) (s : State) : (accept w s).depths = s.depths := rfl

@[simp] theorem accept_engine (w : Word) (s : State) : (accept w s).engine = some ⟨w, 0, Cursor.init, none⟩ := rfl

@[simp] theorem accept_pending (w : Word) (s : State) : (accept w s).pending = s.pending := rfl

@[simp] theorem accept_answers (w : Word) (s : State) : (accept w s).answers = s.answers := rfl

@[simp] theorem accept_freeReads (w : Word) (s : State) : (accept w s).freeReads = s.freeReads := rfl

@[simp] theorem raiseErr_done (r : Raise) (s : State) : (raiseErr r s).done = s.done := rfl

@[simp] theorem raiseErr_serr (r : Raise) (s : State) : (raiseErr r s).serr = s.serr := rfl

@[simp] theorem raiseErr_ovr (r : Raise) (s : State) : (raiseErr r s).ovr = s.ovr := rfl

@[simp] theorem raiseErr_err (r : Raise) (s : State) : (raiseErr r s).err = some r.kind := rfl

@[simp] theorem raiseErr_op (r : Raise) (s : State) : (raiseErr r s).op = s.op := rfl

@[simp] theorem raiseErr_stage (r : Raise) (s : State) : (raiseErr r s).stage = s.stage := rfl

@[simp] theorem raiseErr_ie (r : Raise) (s : State) : (raiseErr r s).ie = s.ie := rfl

@[simp] theorem raiseErr_errInfo (r : Raise) (s : State) : (raiseErr r s).errInfo = r.info := rfl

@[simp] theorem raiseErr_inLen (r : Raise) (s : State) : (raiseErr r s).inLen = s.inLen := rfl

@[simp] theorem raiseErr_bitLen (r : Raise) (s : State) : (raiseErr r s).bitLen = s.bitLen := rfl

@[simp] theorem raiseErr_decLen (r : Raise) (s : State) : (raiseErr r s).decLen = s.decLen := rfl

@[simp] theorem raiseErr_nodeCnt (r : Raise) (s : State) : (raiseErr r s).nodeCnt = s.nodeCnt := rfl

@[simp] theorem raiseErr_nleaf (r : Raise) (s : State) : (raiseErr r s).nleaf = s.nleaf := rfl

@[simp] theorem raiseErr_root (r : Raise) (s : State) : (raiseErr r s).root = s.root := rfl

@[simp] theorem raiseErr_metOrigBits (r : Raise) (s : State) : (raiseErr r s).metOrigBits = s.metOrigBits := rfl

@[simp] theorem raiseErr_metEncBits (r : Raise) (s : State) : (raiseErr r s).metEncBits = s.metEncBits := rfl

@[simp] theorem raiseErr_metDiff (r : Raise) (s : State) : (raiseErr r s).metDiff = s.metDiff := rfl

@[simp] theorem raiseErr_metRed (r : Raise) (s : State) : (raiseErr r s).metRed = s.metRed := rfl

@[simp] theorem raiseErr_ft (r : Raise) (s : State) : (raiseErr r s).ft = s.ft := rfl

@[simp] theorem raiseErr_node (r : Raise) (s : State) : (raiseErr r s).node = s.node := rfl

@[simp] theorem raiseErr_ct (r : Raise) (s : State) : (raiseErr r s).ct = s.ct := rfl

@[simp] theorem raiseErr_ibuf (r : Raise) (s : State) : (raiseErr r s).ibuf = s.ibuf := rfl

@[simp] theorem raiseErr_obuf (r : Raise) (s : State) : (raiseErr r s).obuf = s.obuf := rfl

@[simp] theorem raiseErr_dbuf (r : Raise) (s : State) : (raiseErr r s).dbuf = s.dbuf := rfl

@[simp] theorem raiseErr_depths (r : Raise) (s : State) : (raiseErr r s).depths = s.depths := rfl

@[simp] theorem raiseErr_engine (r : Raise) (s : State) : (raiseErr r s).engine = s.engine := rfl

@[simp] theorem raiseErr_pending (r : Raise) (s : State) : (raiseErr r s).pending = s.pending := rfl

@[simp] theorem raiseErr_answers (r : Raise) (s : State) : (raiseErr r s).answers = s.answers := rfl

@[simp] theorem raiseErr_freeReads (r : Raise) (s : State) : (raiseErr r s).freeReads = s.freeReads := rfl

@[simp] theorem display_done (r : Option Raise) (s : State) : (display r s).done = s.done := by cases r <;> rfl

@[simp] theorem display_serr (r : Option Raise) (s : State) : (display r s).serr = s.serr := by cases r <;> rfl

@[simp] theorem display_ovr (r : Option Raise) (s : State) : (display r s).ovr = s.ovr := by cases r <;> rfl

@[simp] theorem display_op (r : Option Raise) (s : State) : (display r s).op = s.op := by cases r <;> rfl

@[simp] theorem display_stage (r : Option Raise) (s : State) : (display r s).stage = s.stage := by cases r <;> rfl

@[simp] theorem display_ie (r : Option Raise) (s : State) : (display r s).ie = s.ie := by cases r <;> rfl

@[simp] theorem display_inLen (r : Option Raise) (s : State) : (display r s).inLen = s.inLen := by cases r <;> rfl

@[simp] theorem display_bitLen (r : Option Raise) (s : State) : (display r s).bitLen = s.bitLen := by cases r <;> rfl

@[simp] theorem display_decLen (r : Option Raise) (s : State) : (display r s).decLen = s.decLen := by cases r <;> rfl

@[simp] theorem display_nodeCnt (r : Option Raise) (s : State) : (display r s).nodeCnt = s.nodeCnt := by cases r <;> rfl

@[simp] theorem display_nleaf (r : Option Raise) (s : State) : (display r s).nleaf = s.nleaf := by cases r <;> rfl

@[simp] theorem display_root (r : Option Raise) (s : State) : (display r s).root = s.root := by cases r <;> rfl

@[simp] theorem display_metOrigBits (r : Option Raise) (s : State) : (display r s).metOrigBits = s.metOrigBits := by cases r <;> rfl

@[simp] theorem display_metEncBits (r : Option Raise) (s : State) : (display r s).metEncBits = s.metEncBits := by cases r <;> rfl

@[simp] theorem display_metDiff (r : Option Raise) (s : State) : (display r s).metDiff = s.metDiff := by cases r <;> rfl

@[simp] theorem display_metRed (r : Option Raise) (s : State) : (display r s).metRed = s.metRed := by cases r <;> rfl

@[simp] theorem display_ft (r : Option Raise) (s : State) : (display r s).ft = s.ft := by cases r <;> rfl

@[simp] theorem display_node (r : Option Raise) (s : State) : (display r s).node = s.node := by cases r <;> rfl

@[simp] theorem display_ct (r : Option Raise) (s : State) : (display r s).ct = s.ct := by cases r <;> rfl

@[simp] theorem display_ibuf (r : Option Raise) (s : State) : (display r s).ibuf = s.ibuf := by cases r <;> rfl

@[simp] theorem display_obuf (r : Option Raise) (s : State) : (display r s).obuf = s.obuf := by cases r <;> rfl

@[simp] theorem display_dbuf (r : Option Raise) (s : State) : (display r s).dbuf = s.dbuf := by cases r <;> rfl

@[simp] theorem display_depths (r : Option Raise) (s : State) : (display r s).depths = s.depths := by cases r <;> rfl

@[simp] theorem display_engine (r : Option Raise) (s : State) : (display r s).engine = s.engine := by cases r <;> rfl

@[simp] theorem display_pending (r : Option Raise) (s : State) : (display r s).pending = s.pending := by cases r <;> rfl

@[simp] theorem display_answers (r : Option Raise) (s : State) : (display r s).answers = s.answers := by cases r <;> rfl

@[simp] theorem display_freeReads (r : Option Raise) (s : State) : (display r s).freeReads = s.freeReads := by cases r <;> rfl

@[simp] theorem complete_done (r : Option Raise) (s : State) : (complete r s).done = true := rfl

@[simp] theorem complete_serr (r : Option Raise) (s : State) : (complete r s).serr = (s.serr || r.isSome) := rfl

@[simp] theorem complete_ovr (r : Option Raise) (s : State) : (complete r s).ovr = s.ovr := by
  simp [complete]

@[simp] theorem complete_err (r : Option Raise) (s : State) : (complete r s).err = (display r s).err := rfl

@[simp] theorem complete_op (r : Option Raise) (s : State) : (complete r s).op = s.op := by
  simp [complete]

@[simp] theorem complete_stage (r : Option Raise) (s : State) : (complete r s).stage = s.stage := by
  simp [complete]

@[simp] theorem complete_ie (r : Option Raise) (s : State) : (complete r s).ie = s.ie := by
  simp [complete]

@[simp] theorem complete_errInfo (r : Option Raise) (s : State) : (complete r s).errInfo = (display r s).errInfo := rfl

@[simp] theorem complete_inLen (r : Option Raise) (s : State) : (complete r s).inLen = s.inLen := by
  simp [complete]

@[simp] theorem complete_bitLen (r : Option Raise) (s : State) : (complete r s).bitLen = s.bitLen := by
  simp [complete]

@[simp] theorem complete_decLen (r : Option Raise) (s : State) : (complete r s).decLen = s.decLen := by
  simp [complete]

@[simp] theorem complete_nodeCnt (r : Option Raise) (s : State) : (complete r s).nodeCnt = s.nodeCnt := by
  simp [complete]

@[simp] theorem complete_nleaf (r : Option Raise) (s : State) : (complete r s).nleaf = s.nleaf := by
  simp [complete]

@[simp] theorem complete_root (r : Option Raise) (s : State) : (complete r s).root = s.root := by
  simp [complete]

@[simp] theorem complete_metOrigBits (r : Option Raise) (s : State) : (complete r s).metOrigBits = s.metOrigBits := by
  simp [complete]

@[simp] theorem complete_metEncBits (r : Option Raise) (s : State) : (complete r s).metEncBits = s.metEncBits := by
  simp [complete]

@[simp] theorem complete_metDiff (r : Option Raise) (s : State) : (complete r s).metDiff = s.metDiff := by
  simp [complete]

@[simp] theorem complete_metRed (r : Option Raise) (s : State) : (complete r s).metRed = s.metRed := by
  simp [complete]

@[simp] theorem complete_ft (r : Option Raise) (s : State) : (complete r s).ft = s.ft := by
  simp [complete]

@[simp] theorem complete_node (r : Option Raise) (s : State) : (complete r s).node = s.node := by
  simp [complete]

@[simp] theorem complete_ct (r : Option Raise) (s : State) : (complete r s).ct = s.ct := by
  simp [complete]

@[simp] theorem complete_ibuf (r : Option Raise) (s : State) : (complete r s).ibuf = s.ibuf := by
  simp [complete]

@[simp] theorem complete_obuf (r : Option Raise) (s : State) : (complete r s).obuf = s.obuf := by
  simp [complete]

@[simp] theorem complete_dbuf (r : Option Raise) (s : State) : (complete r s).dbuf = s.dbuf := by
  simp [complete]

@[simp] theorem complete_depths (r : Option Raise) (s : State) : (complete r s).depths = s.depths := by
  simp [complete]

@[simp] theorem complete_engine (r : Option Raise) (s : State) : (complete r s).engine = none := rfl

@[simp] theorem complete_pending (r : Option Raise) (s : State) : (complete r s).pending = s.pending := by
  simp [complete]

@[simp] theorem complete_answers (r : Option Raise) (s : State) : (complete r s).answers = s.answers := by
  simp [complete]

@[simp] theorem complete_freeReads (r : Option Raise) (s : State) : (complete r s).freeReads = s.freeReads := by
  simp [complete]

@[simp] theorem display_none (s : State) : display none s = s := rfl

@[simp] theorem display_some (r : Raise) (s : State) : display (some r) s = raiseErr r s := rfl

@[simp] theorem complete_busy (r : Option Raise) (s : State) : (complete r s).busy = false := rfl

@[simp] theorem accept_busy (w : Word) (s : State) : (accept w s).busy = true := rfl

end Sys2Proof.Machine
end

