-- ==== Sys2Proof/Laws/Forest.lean ====
section
/-! SUPPORT. The invariant of BUILD's merge loop (spec/42_build.md R157, R160 to R164) and the tree it ends in. -/

namespace Sys2Proof.Machine

/-- The `i`-th node created (R44), all zero where there is none. -/
def nd (ns : List Node) (i : Nat) : Node := (ns[i]?).getD Node.empty

/-- The child a bit leads to. -/
def Node.child (n : Node) (b : Bool) : NodeIdx := if b then n.right else n.left

theorem nd_of_getElem? {ns : List Node} {i : Nat} {n : Node} (h : ns[i]? = some n) : nd ns i = n := by
  simp [nd, h]

theorem getElem?_of_lt {ns : List Node} {i : Nat} (h : i < ns.length) : ns[i]? = some (nd ns i) := by
  simp [nd, h]

/-- What every merge keeps, for the leaves `ls` the build began with. -/
structure Forest (ls ns : List Node) : Prop where
  size : (working ns).length + ns.length = 2 * ls.length
  low : ls.length ≤ ns.length
  bound : ls.length ≤ 256
  leaf : ∀ i, i < ls.length → { nd ns i with active := true } = nd ls i
  internal : ∀ i, ls.length ≤ i → i < ns.length →
    (nd ns i).leaf = false ∧ (nd ns i).sym = 0#8 ∧ (nd ns i).left.toNat < i ∧ (nd ns i).right.toNat < i ∧
      (nd ns i).left ≠ (nd ns i).right ∧
      (nd ns i).weight.toNat = (nd ns (nd ns i).left.toNat).weight.toNat + (nd ns (nd ns i).right.toNat).weight.toNat
  parent : ∀ i, i < ns.length → ((nd ns i).active = false ↔
    ∃ p b, ls.length ≤ p ∧ p < ns.length ∧ ((nd ns p).child b).toNat = i)
  one : ∀ p q b c, ls.length ≤ p → p < ns.length → ls.length ≤ q → q < ns.length →
    (nd ns p).child b = (nd ns q).child c → p = q ∧ b = c
  total : workingSum (fun n => n.weight.toNat) ns = workingSum (fun n => n.weight.toNat) ls
  small : workingSum (fun n => n.weight.toNat) ls < 2 ^ 40
  rise : ∀ m n, ls.length ≤ m → m ≤ n → n < ns.length → (nd ns m).weight.toNat ≤ (nd ns n).weight.toNat
  last : ls.length < ns.length → ∀ x ∈ working ns, ∀ y ∈ working ns, x.2 ≠ y.2 →
    (nd ns (ns.length - 1)).weight.toNat ≤ x.1.weight.toNat + y.1.weight.toNat

theorem Forest.child_lt {ls ns : List Node} (h : Forest ls ns) {p : Nat} (b : Bool) (h1 : ls.length ≤ p)
    (h2 : p < ns.length) : ((nd ns p).child b).toNat < p := by
  have := h.internal p h1 h2
  cases b <;> simp [Node.child] <;> omega

theorem two_le_workingSum (f : Node → Nat) {ns : List Node} {i j : Nat} {a b : Node} (hi : ns[i]? = some a)
    (hj : ns[j]? = some b) (ha : a.active = true) (hb : b.active = true) (hij : i ≠ j) :
    f a + f b ≤ workingSum f ns := by
  have h1 := workingSum_deactivate f hi ha
  have hj' : (deactivate ns i)[j]? = some b := by rw [getElem?_deactivate, hj]; simp [Ne.symm hij]
  have h2 := workingSum_deactivate f hj' hb
  omega

/-- The nodes after one merge: the old ones, `a` and `b` deactivated, and the new one. -/
theorem nd_merged (ns : List Node) (a b : Nat) (n : Node) (i : Nat) :
    nd (deactivate (deactivate ns a) b ++ [n]) i =
      if i < ns.length then (if i = a ∨ i = b then { nd ns i with active := false } else nd ns i)
      else if i = ns.length then n else Node.empty := by
  unfold nd
  by_cases h1 : i < ns.length
  · rw [if_pos h1, List.getElem?_append_left (by simpa using h1), getElem?_deactivate, getElem?_deactivate]
    by_cases ha : i = a <;> by_cases hb : i = b <;> simp_all
  · rw [if_neg h1, List.getElem?_append_right (by simpa using h1)]
    by_cases h2 : i = ns.length
    · simp [h2]
    · have : i - (deactivate (deactivate ns a) b).length ≠ 0 := by simp; omega
      rw [if_neg h2, List.getElem?_eq_none (by simp; omega)]
      rfl

/-- One merge keeps the forest. -/
theorem Forest.merge {ls ns ns' : List Node} (h : Forest ls ns) (hm : mergeOnce ns = some ns') : Forest ls ns' := by
  obtain ⟨a, b, ha, hb, haa, hba, hab, hmin, hminb, rfl⟩ := mergeOnce_spec hm
  have hal : a.2 < ns.length := (List.getElem?_eq_some_iff.mp ha).1
  have hbl : b.2 < ns.length := (List.getElem?_eq_some_iff.mp hb).1
  have hna : nd ns a.2 = a.1 := nd_of_getElem? ha
  have hnb : nd ns b.2 = b.1 := nd_of_getElem? hb
  have hw := two_le_workingSum (fun n => n.weight.toNat) ha hb haa hba hab
  have hc := two_le_workingSum (fun _ => 1) ha hb haa hba hab
  rw [← working_length] at hc
  have hlen : ns.length ≤ 510 := by have := h.size; have := h.bound; omega
  have hta : (BitVec.ofNat 9 a.2).toNat = a.2 := by rw [BitVec.toNat_ofNat]; exact Nat.mod_eq_of_lt (by omega)
  have htb : (BitVec.ofNat 9 b.2).toNat = b.2 := by rw [BitVec.toNat_ofNat]; exact Nat.mod_eq_of_lt (by omega)
  have hsum : (a.1.weight + b.1.weight).toNat = a.1.weight.toNat + b.1.weight.toNat := by
    rw [BitVec.toNat_add]
    have := h.total; have := h.small
    exact Nat.mod_eq_of_lt (by omega)
  generalize hnew : Node.newInternal (a.1.weight + b.1.weight) a.2 b.2 = new
  have hnact : new.active = true := by rw [← hnew]; rfl
  have hnchild : ∀ c, (new.child c).toNat = if c then b.2 else a.2 := by
    intro c; rw [← hnew]; cases c <;> simp [Node.child, Node.newInternal, hta, htb]
  have hnd := nd_merged ns a.2 b.2 new
  have hL : (deactivate (deactivate ns a.2) b.2 ++ [new]).length = ns.length + 1 := by simp
  have hb' : (deactivate ns a.2)[b.2]? = some b.1 := by rw [getElem?_deactivate, hb]; simp [Ne.symm hab]
  have hS : ∀ f : Node → Nat, workingSum f (deactivate (deactivate ns a.2) b.2 ++ [new]) + f a.1 + f b.1 =
      workingSum f ns + f new := by
    intro f
    rw [workingSum_append f _ _ hnact]
    have h1 := workingSum_deactivate f ha haa
    have h2 := workingSum_deactivate f hb' hba
    omega
  have hchild : ∀ p c, p < ns.length →
      (nd (deactivate (deactivate ns a.2) b.2 ++ [new]) p).child c = (nd ns p).child c := by
    intro p c hp
    rw [hnd, if_pos hp]
    split <;> rfl
  have hweight : ∀ p, p < ns.length →
      (nd (deactivate (deactivate ns a.2) b.2 ++ [new]) p).weight = (nd ns p).weight := by
    intro p hp
    rw [hnd, if_pos hp]
    split <;> rfl
  have hlastnd : nd (deactivate (deactivate ns a.2) b.2 ++ [new]) ns.length = new := by
    rw [hnd, if_neg (by omega), if_pos rfl]
  have hnw : new.weight.toNat = a.1.weight.toNat + b.1.weight.toNat := by rw [← hnew]; exact hsum
  have noparent : ∀ i, i < ns.length → (nd ns i).active = true → ∀ p c, ls.length ≤ p → p < ns.length →
      ((nd ns p).child c).toNat ≠ i := by
    intro i hi hact p c hp1 hp2 he
    have := (h.parent i hi).mpr ⟨p, c, hp1, hp2, he⟩
    rw [hact] at this; cases this
  have memold : ∀ x ∈ working (deactivate (deactivate ns a.2) b.2 ++ [new]),
      (x.1 = new ∧ x.2 = ns.length) ∨ (x ∈ working ns ∧ x.2 ≠ a.2 ∧ x.2 ≠ b.2 ∧ x.2 < ns.length) := by
    intro x hx
    rw [mem_working] at hx
    have hxl := (List.getElem?_eq_some_iff.mp hx.1).1
    rw [hL] at hxl
    have hxe := nd_of_getElem? hx.1
    by_cases hxn : x.2 < ns.length
    · right
      rw [hnd, if_pos hxn] at hxe
      by_cases hxab : x.2 = a.2 ∨ x.2 = b.2
      · rw [if_pos hxab] at hxe
        rw [← hxe] at hx
        simp at hx
      · rw [if_neg hxab] at hxe
        refine ⟨?_, fun e => hxab (Or.inl e), fun e => hxab (Or.inr e), hxn⟩
        rw [mem_working]
        exact ⟨by rw [getElem?_of_lt hxn, hxe], hx.2⟩
    · left
      have : x.2 = ns.length := by omega
      rw [this, hlastnd] at hxe
      exact ⟨hxe.symm, this⟩
  refine ⟨?_, ?_, h.bound, ?_, ?_, ?_, ?_, ?_, h.small, ?_, ?_⟩
  · have := hS (fun _ => 1)
    rw [← working_length, ← working_length] at this
    have := h.size
    omega
  · have := h.low; omega
  · intro i hi
    have hil : i < ns.length := by have := h.low; omega
    rw [hnd, if_pos hil, ← h.leaf i hi]
    split <;> rfl
  · intro i hi1 hi2
    rw [hL] at hi2
    by_cases hil : i < ns.length
    · have hI := h.internal i hi1 hil
      have e : ∀ j, j < i → (nd (deactivate (deactivate ns a.2) b.2 ++ [new]) j).weight = (nd ns j).weight :=
        fun j hj => hweight j (by omega)
      have e1 : (nd (deactivate (deactivate ns a.2) b.2 ++ [new]) i) =
          { nd ns i with active := (nd (deactivate (deactivate ns a.2) b.2 ++ [new]) i).active } := by
        rw [hnd, if_pos hil]; split <;> rfl
      rw [e1]
      refine ⟨hI.1, hI.2.1, hI.2.2.1, hI.2.2.2.1, hI.2.2.2.2.1, ?_⟩
      show (nd ns i).weight.toNat = _
      rw [e _ hI.2.2.1, e _ hI.2.2.2.1]
      exact hI.2.2.2.2.2
    · have hie : i = ns.length := by omega
      subst hie
      rw [hlastnd]
      have hl := hnchild false
      have hr := hnchild true
      simp only [Node.child, Bool.false_eq_true, if_false, if_true] at hl hr
      refine ⟨by rw [← hnew]; rfl, by rw [← hnew]; rfl, by omega, by omega, ?_, ?_⟩
      · intro e; rw [e, hr] at hl; exact hab hl.symm
      · rw [hl, hr, hweight _ hal, hweight _ hbl, hna, hnb, hnw]
  · intro i hi
    rw [hL] at hi
    by_cases hil : i < ns.length
    · constructor
      · intro hact
        rw [hnd, if_pos hil] at hact
        by_cases hiab : i = a.2 ∨ i = b.2
        · rcases hiab with e | e
          · exact ⟨ns.length, false, h.low, by omega, by rw [hlastnd, hnchild, e]; rfl⟩
          · exact ⟨ns.length, true, h.low, by omega, by rw [hlastnd, hnchild, e]; rfl⟩
        · rw [if_neg hiab] at hact
          obtain ⟨p, c, hp1, hp2, hp3⟩ := (h.parent i hil).mp hact
          exact ⟨p, c, hp1, by omega, by rw [hchild p c hp2]; exact hp3⟩
      · rintro ⟨p, c, hp1, hp2, hp3⟩
        rw [hL] at hp2
        by_cases hpl : p < ns.length
        · rw [hchild p c hpl] at hp3
          have hf := (h.parent i hil).mpr ⟨p, c, hp1, hpl, hp3⟩
          rw [hnd, if_pos hil]
          split
          · rfl
          · exact hf
        · have hpe : p = ns.length := by omega
          rw [hpe, hlastnd, hnchild] at hp3
          rw [hnd, if_pos hil, if_pos]
          cases c
          · left; simpa using hp3.symm
          · right; simpa using hp3.symm
    · have hie : i = ns.length := by omega
      subst hie
      rw [hlastnd, hnact]
      constructor
      · intro hc; cases hc
      · rintro ⟨p, c, hp1, hp2, hp3⟩
        exfalso
        rw [hL] at hp2
        by_cases hpl : p < ns.length
        · rw [hchild p c hpl] at hp3
          have := h.child_lt c hp1 hpl
          omega
        · have hpe : p = ns.length := by omega
          rw [hpe, hlastnd, hnchild] at hp3
          split at hp3 <;> omega
  · intro p q c d hp1 hp2 hq1 hq2 he
    rw [hL] at hp2 hq2
    have key : ∀ p c, ls.length ≤ p → p < ns.length → ∀ d, (nd ns p).child c ≠ new.child d := by
      intro p c h1 h2 d e
      have e' := congrArg BitVec.toNat e
      rw [hnchild] at e'
      cases d
      · exact noparent a.2 hal (by rw [hna]; exact haa) p c h1 h2 (by simpa using e')
      · exact noparent b.2 hbl (by rw [hnb]; exact hba) p c h1 h2 (by simpa using e')
    by_cases hpl : p < ns.length <;> by_cases hql : q < ns.length
    · rw [hchild p c hpl, hchild q d hql] at he
      exact h.one p q c d hp1 hpl hq1 hql he
    · have : q = ns.length := by omega
      rw [hchild p c hpl, this, hlastnd] at he
      exact absurd he (key p c hp1 hpl d)
    · have : p = ns.length := by omega
      rw [hchild q d hql, this, hlastnd] at he
      exact absurd he.symm (key q d hq1 hql c)
    · have e1 : p = ns.length := by omega
      have e2 : q = ns.length := by omega
      rw [e1, e2, hlastnd] at he
      have e' := congrArg BitVec.toNat he
      rw [hnchild, hnchild] at e'
      refine ⟨by omega, ?_⟩
      cases c <;> cases d <;> simp_all
  · have := hS (fun n => n.weight.toNat)
    have := h.total
    omega
  · intro m n hm1 hmn hn
    rw [hL] at hn
    by_cases hnl : n < ns.length
    · rw [hweight m (by omega), hweight n hnl]
      exact h.rise m n hm1 hmn hnl
    · have hne : n = ns.length := by omega
      subst hne
      rw [hlastnd]
      by_cases hml : m < ns.length
      · rw [hweight m hml, hnw]
        have h1 := h.rise m (ns.length - 1) hm1 (by omega) (by omega)
        have h2 := h.last (by omega) a (mem_working.mpr ⟨ha, haa⟩) b (mem_working.mpr ⟨hb, hba⟩) hab
        omega
      · have : m = ns.length := by omega
        rw [this, hlastnd]
  · intro _ x hx y hy hxy
    rw [hL, Nat.add_sub_cancel, hlastnd, hnw]
    have ge : ∀ z ∈ working ns, z.2 ≠ a.2 → z.2 ≠ b.2 → a.1.weight.toNat ≤ z.1.weight.toNat ∧
        b.1.weight.toNat ≤ z.1.weight.toNat := by
      intro z hz h1 h2
      have e1 := (lessNode_iff _ _).mp (hmin z hz h1)
      have e2 := (lessNode_iff _ _).mp (hminb z hz h1 h2)
      omega
    rcases memold x hx with hx' | hx' <;> rcases memold y hy with hy' | hy'
    · omega
    · rw [hx'.1, hnw]; omega
    · rw [hy'.1, hnw]; omega
    · have := ge x hx'.1 hx'.2.1 hx'.2.2.1
      have := ge y hy'.1 hy'.2.1 hy'.2.2.1
      omega

theorem Forest.mergeAll {ls ns : List Node} (h : Forest ls ns) (fuel : Nat) : Forest ls (mergeAll fuel ns) := by
  induction fuel generalizing ns with
  | zero => exact h
  | succ fuel ih =>
    simp only [Machine.mergeAll]
    split
    · exact h
    · rename_i ns' hm; exact ih (h.merge hm)

/-- R157: enough merges leave at most one node. -/
theorem Forest.mergeAll_done {ls ns : List Node} (h : Forest ls ns) {fuel : Nat} (hf : (working ns).length ≤ fuel + 1) :
    (working (Machine.mergeAll fuel ns)).length ≤ 1 := by
  induction fuel generalizing ns with
  | zero => exact hf
  | succ fuel ih =>
    simp only [Machine.mergeAll]
    split
    · rename_i hn; exact mergeOnce_eq_none hn
    · rename_i ns' hm
      have h' := h.merge hm
      refine ih h' ?_
      have hl : ns'.length = ns.length + 1 := by
        obtain ⟨a, b, -, -, -, -, -, -, -, rfl⟩ := mergeOnce_spec hm
        simp
      have := h.size; have := h'.size
      omega

/-! ### The order of the merges -/

/-- Node `m` was in the working collection when node `i` was created: it is older, and no older internal node has it as a
child (R45, R155). -/
def Waits (ls ns : List Node) (i m : Nat) : Prop :=
  m < i ∧ ∀ p b, ls.length ≤ p → p < i → ((nd ns p).child b).toNat ≠ m

/-- R155, R156: each internal node is over the two least nodes that waited for it, the least on the left. -/
def Ordered (ls ns : List Node) : Prop :=
  ∀ i, ls.length ≤ i → i < ns.length →
    Waits ls ns i (nd ns i).left.toNat ∧ Waits ls ns i (nd ns i).right.toNat ∧
    ∀ m, Waits ls ns i m → m ≠ (nd ns i).left.toNat →
      lessNode (nd ns (nd ns i).left.toNat, (nd ns i).left.toNat) (nd ns m, m) = true ∧
      (m ≠ (nd ns i).right.toNat →
        lessNode (nd ns (nd ns i).right.toNat, (nd ns i).right.toNat) (nd ns m, m) = true)

/-- In a forest the nodes that wait for the next merge are the active ones. -/
theorem Forest.waits_iff {ls ns : List Node} (h : Forest ls ns) (m : Nat) :
    Waits ls ns ns.length m ↔ m < ns.length ∧ (nd ns m).active = true := by
  constructor
  · rintro ⟨h1, h2⟩
    refine ⟨h1, ?_⟩
    by_contra hc
    rw [Bool.not_eq_true, h.parent m h1] at hc
    obtain ⟨p, b, hp1, hp2, hp3⟩ := hc
    exact h2 p b hp1 hp2 hp3
  · rintro ⟨h1, h2⟩
    refine ⟨h1, fun p b hp1 hp2 he => ?_⟩
    have := (h.parent m h1).mpr ⟨p, b, hp1, hp2, he⟩
    rw [h2] at this; cases this

/-- Waiting looks only at the children of older nodes. -/
theorem waits_congr {ls ns ns' : List Node} {i : Nat} (hi : i < ns.length)
    (hch : ∀ p b, p < ns.length → (nd ns' p).child b = (nd ns p).child b) (m : Nat) :
    Waits ls ns' i m ↔ Waits ls ns i m := by
  unfold Waits
  refine and_congr_right fun _ => ?_
  constructor <;> intro hw p b h1 h2 <;> have h3 := hw p b h1 h2
  · rwa [hch p b (by omega)] at h3
  · rwa [hch p b (by omega)]

theorem lessNode_congr {a b a' b' : Node} {i j : Nat} (ha : a'.weight = a.weight) (hb : b'.weight = b.weight) :
    lessNode (a', i) (b', j) = lessNode (a, i) (b, j) := by
  unfold lessNode; rw [ha, hb]

/-- One merge keeps the order of those before it and adds one in order. -/
theorem Ordered.merge {ls ns ns' : List Node} (hf : Forest ls ns) (h : Ordered ls ns) (hm : mergeOnce ns = some ns') :
    Ordered ls ns' := by
  obtain ⟨a, b, ha, hb, haa, hba, hab, hmin, hminb, rfl⟩ := mergeOnce_spec hm
  have hal : a.2 < ns.length := (List.getElem?_eq_some_iff.mp ha).1
  have hbl : b.2 < ns.length := (List.getElem?_eq_some_iff.mp hb).1
  have hna : nd ns a.2 = a.1 := nd_of_getElem? ha
  have hnb : nd ns b.2 = b.1 := nd_of_getElem? hb
  have hc := two_le_workingSum (fun _ => 1) ha hb haa hba hab
  rw [← working_length] at hc
  have hlen : ns.length ≤ 510 := by have := hf.size; have := hf.bound; omega
  have hta : (BitVec.ofNat 9 a.2).toNat = a.2 := by rw [BitVec.toNat_ofNat]; exact Nat.mod_eq_of_lt (by omega)
  have htb : (BitVec.ofNat 9 b.2).toNat = b.2 := by rw [BitVec.toNat_ofNat]; exact Nat.mod_eq_of_lt (by omega)
  generalize hnew : Node.newInternal (a.1.weight + b.1.weight) a.2 b.2 = new
  have hnd := nd_merged ns a.2 b.2 new
  generalize hns' : deactivate (deactivate ns a.2) b.2 ++ [new] = ns' at hnd
  have hL : ns'.length = ns.length + 1 := by rw [← hns']; simp
  have hsame : ∀ p, p < ns.length → nd ns' p = { nd ns p with active := (nd ns' p).active } := by
    intro p hp; rw [hnd, if_pos hp]; split <;> rfl
  have hch : ∀ p c, p < ns.length → (nd ns' p).child c = (nd ns p).child c := by
    intro p c hp; rw [hsame p hp]; rfl
  have hwt : ∀ p, p < ns.length → (nd ns' p).weight = (nd ns p).weight := by
    intro p hp; rw [hsame p hp]
  intro i h1 h2
  rw [hL] at h2
  by_cases hil : i < ns.length
  · obtain ⟨wl, wr, ho⟩ := h i h1 hil
    have hI := hf.internal i h1 hil
    have el : (nd ns' i).left = (nd ns i).left := hch i false hil
    have er : (nd ns' i).right = (nd ns i).right := hch i true hil
    rw [el, er]
    refine ⟨(waits_congr hil hch _).mpr wl, (waits_congr hil hch _).mpr wr, fun m hw hne => ?_⟩
    have hw' := (waits_congr hil hch m).mp hw
    have hml : m < ns.length := lt_trans hw'.1 hil
    obtain ⟨o1, o2⟩ := ho m hw' hne
    refine ⟨?_, fun hne' => ?_⟩
    · rw [lessNode_congr (hwt _ (by omega)) (hwt m hml)]; exact o1
    · rw [lessNode_congr (hwt _ (by omega)) (hwt m hml)]; exact o2 hne'
  · have hie : i = ns.length := by omega
    subst hie
    have hwaits : ∀ m, Waits ls ns' ns.length m ↔ m < ns.length ∧ (nd ns m).active = true := by
      intro m
      rw [← hf.waits_iff m]
      unfold Waits
      refine and_congr_right fun _ => ?_
      constructor <;> intro hw p c hp1 hp2 <;> have h3 := hw p c hp1 hp2
      · rwa [hch p c hp2] at h3
      · rwa [hch p c hp2]
    have hlast : nd ns' ns.length = new := by rw [hnd, if_neg (by omega), if_pos rfl]
    have el : (nd ns' ns.length).left.toNat = a.2 := by rw [hlast, ← hnew]; exact hta
    have er : (nd ns' ns.length).right.toNat = b.2 := by rw [hlast, ← hnew]; exact htb
    rw [el, er]
    refine ⟨(hwaits _).mpr ⟨hal, by rw [hna]; exact haa⟩, (hwaits _).mpr ⟨hbl, by rw [hnb]; exact hba⟩,
      fun m hw hne => ?_⟩
    obtain ⟨hml, hact⟩ := (hwaits m).mp hw
    have hmw : (nd ns m, m) ∈ working ns := mem_working.mpr ⟨getElem?_of_lt hml, hact⟩
    refine ⟨?_, fun hne' => ?_⟩
    · rw [lessNode_congr (hwt a.2 hal) (hwt m hml), hna]; exact hmin _ hmw hne
    · rw [lessNode_congr (hwt b.2 hbl) (hwt m hml), hnb]; exact hminb _ hmw hne hne'

theorem Ordered.mergeAll {ls ns : List Node} (hf : Forest ls ns) (h : Ordered ls ns) (fuel : Nat) :
    Ordered ls (Machine.mergeAll fuel ns) := by
  induction fuel generalizing ns with
  | zero => exact h
  | succ fuel ih =>
    simp only [Machine.mergeAll]
    split
    · exact h
    · rename_i ns' hm; exact ih (hf.merge hm) (h.merge hf hm)

end Sys2Proof.Machine
end

