-- ==== Sys2Proof/Laws/Tree.lean ====
section
/-! SUPPORT. The leaves BUILD begins with (spec/42_build.md R152) and the tree of every frequency table (R157, R160 to
R164). -/

namespace Sys2Proof.Machine

/-! ### The leaves -/

/-- The leaves of the counts `l` of the symbols from `k` on. -/
def leavesFrom (l : List Word) (k : Nat) : List Node :=
  (l.zipIdx k).filterMap fun p => if p.1 = 0#32 then none else some (Node.newLeaf (BitVec.ofNat 8 p.2) p.1)

theorem leavesOf_eq (ft : Vector Word 256) : leavesOf ft = leavesFrom ft.toList 0 := rfl

theorem leavesFrom_cons (c : Word) (l : List Word) (k : Nat) :
    leavesFrom (c :: l) k =
      if c = 0#32 then leavesFrom l (k + 1) else Node.newLeaf (BitVec.ofNat 8 k) c :: leavesFrom l (k + 1) := by
  unfold leavesFrom
  rw [List.zipIdx_cons, List.filterMap_cons]
  by_cases h : c = 0#32 <;> simp [h]

theorem mem_leavesFrom {l : List Word} {k : Nat} {n : Node} :
    n ∈ leavesFrom l k ↔ ∃ i c, l[i]? = some c ∧ c ≠ 0#32 ∧ n = Node.newLeaf (BitVec.ofNat 8 (k + i)) c := by
  unfold leavesFrom
  rw [List.mem_filterMap]
  constructor
  · rintro ⟨⟨c, j⟩, hm, he⟩
    rw [List.mem_zipIdx_iff_le_and_getElem?_sub] at hm
    dsimp only at hm he
    split at he
    · simp at he
    · rename_i hc
      refine ⟨j - k, c, hm.2, hc, ?_⟩
      rw [Nat.add_sub_cancel' hm.1]
      simpa using he.symm
  · rintro ⟨i, c, hi, hc, rfl⟩
    refine ⟨(c, k + i), ?_, by simp [hc]⟩
    rw [List.mem_zipIdx_iff_le_and_getElem?_sub]
    simpa using hi

theorem leavesFrom_length (l : List Word) (k : Nat) :
    (leavesFrom l k).length = (l.filter fun c => decide (c ≠ 0#32)).length := by
  induction l generalizing k with
  | nil => rfl
  | cons c l ih =>
    rw [leavesFrom_cons, List.filter_cons]
    by_cases h : c = 0#32 <;> simp [h, ih]

theorem leavesFrom_weights (l : List Word) (k : Nat) :
    ((leavesFrom l k).map fun n => n.weight.toNat).sum = (l.map BitVec.toNat).sum := by
  induction l generalizing k with
  | nil => rfl
  | cons c l ih =>
    rw [leavesFrom_cons]
    by_cases h : c = 0#32
    · simp [h, ih]
    · have : c.toNat % 1099511627776 = c.toNat := Nat.mod_eq_of_lt (by have := c.isLt; omega)
      simp [h, ih, Node.newLeaf, this]

theorem leavesFrom_ascending {l : List Word} {k : Nat} (h : k + l.length ≤ 256) :
    (leavesFrom l k).Pairwise fun a b => a.sym.toNat < b.sym.toNat := by
  induction l generalizing k with
  | nil => exact List.Pairwise.nil
  | cons c l ih =>
    rw [List.length_cons] at h
    rw [leavesFrom_cons]
    split
    · exact ih (by omega)
    · refine List.Pairwise.cons ?_ (ih (by omega))
      intro n hn
      obtain ⟨i, d, hi, -, rfl⟩ := mem_leavesFrom.mp hn
      have hil : i < l.length := (List.getElem?_eq_some_iff.mp hi).1
      simp only [Node.newLeaf, BitVec.toNat_ofNat]
      rw [Nat.mod_eq_of_lt (by omega), Nat.mod_eq_of_lt (by omega)]
      omega

theorem working_of_active {ns : List Node} (h : ∀ n ∈ ns, n.active = true) : working ns = ns.zipIdx := by
  unfold working
  rw [List.filter_eq_self]
  intro p hp
  exact h _ (List.mem_zipIdx_iff_getElem?.mp hp |> List.mem_of_getElem?)

/-- The leaf for symbol `x` is in the list exactly when its count is not zero, with that count. -/
theorem mem_leavesOf {ft : Vector Word 256} {n : Node} :
    n ∈ leavesOf ft ↔ ∃ x : Byte, ftAt ft x ≠ 0#32 ∧ n = Node.newLeaf x (ftAt ft x) := by
  rw [leavesOf_eq, mem_leavesFrom]
  constructor
  · rintro ⟨i, c, hi, hc, rfl⟩
    have hil : i < 256 := by simpa using (List.getElem?_eq_some_iff.mp hi).1
    have hx : (BitVec.ofNat 8 i).toNat = i := by rw [BitVec.toNat_ofNat]; exact Nat.mod_eq_of_lt hil
    have hf : ftAt ft (BitVec.ofNat 8 i) = c := by
      have := (List.getElem?_eq_some_iff.mp hi).2
      simpa [ftAt, hx] using this
    refine ⟨BitVec.ofNat 8 i, by rw [hf]; exact hc, ?_⟩
    rw [hf, Nat.zero_add]
  · rintro ⟨x, hx, rfl⟩
    refine ⟨x.toNat, ftAt ft x, ?_, hx, by simp⟩
    have : x.toNat < 256 := x.isLt
    simp [ftAt, this]

theorem leavesOf_active {ft : Vector Word 256} : ∀ n ∈ leavesOf ft, n.active = true := by
  intro n hn
  obtain ⟨x, -, rfl⟩ := mem_leavesOf.mp hn
  rfl

theorem leavesOf_length (ft : Vector Word 256) : (leavesOf ft).length = distinctSymbols ft :=
  leavesFrom_length _ _

theorem leavesOf_length_le (ft : Vector Word 256) : (leavesOf ft).length ≤ 256 := by
  rw [leavesOf_length]
  refine (List.length_filter_le _ _).trans ?_
  simp

theorem leavesOf_total (ft : Vector Word 256) :
    workingSum (fun n => n.weight.toNat) (leavesOf ft) = totalCount ft := by
  rw [workingSum, working_of_active leavesOf_active]
  have : (fun p : Node × Nat => p.1.weight.toNat) = (fun n : Node => n.weight.toNat) ∘ Prod.fst := rfl
  rw [this, ← List.map_map, List.zipIdx_map_fst]
  exact leavesFrom_weights _ _

theorem sum_le_mul {l : List Nat} {b : Nat} (h : ∀ x ∈ l, x ≤ b) : l.sum ≤ l.length * b := by
  simpa using List.sum_le_card_nsmul l b h

theorem totalCount_lt (ft : Vector Word 256) : totalCount ft < 2 ^ 40 := by
  have h := sum_le_mul (l := ft.toList.map BitVec.toNat) (b := 2 ^ 32 - 1) (by
    intro x hx
    obtain ⟨c, -, rfl⟩ := List.mem_map.mp hx
    have := c.isLt
    omega)
  rw [List.length_map, Vector.length_toList] at h
  unfold totalCount
  omega

/-! ### The tree -/

theorem forest_leaves (ft : Vector Word 256) : Forest (leavesOf ft) (leavesOf ft) := by
  have hw := working_of_active (leavesOf_active (ft := ft))
  have hact : ∀ i, i < (leavesOf ft).length → (nd (leavesOf ft) i).active = true := fun i hi =>
    leavesOf_active _ (List.mem_of_getElem? (getElem?_of_lt hi))
  refine ⟨?_, le_refl _, leavesOf_length_le ft, ?_, fun i h1 h2 => by omega, ?_, fun p q b c h1 h2 => by omega, rfl,
    ?_, fun m n h1 h2 h3 => by omega, fun h => by omega⟩
  · rw [hw, List.length_zipIdx]; omega
  · intro i hi
    have := hact i hi
    rcases h : nd (leavesOf ft) i with ⟨l, a, s, w, x, y⟩
    rw [h] at this; simp only at this; rw [this]
  · intro i hi
    rw [hact i hi]
    constructor
    · intro h; cases h
    · rintro ⟨p, b, h1, h2, -⟩; omega
  · rw [leavesOf_total]; exact totalCount_lt ft

/-- What BUILD makes of every table is a forest over its leaves (R157). -/
theorem forest_treeOf (ft : Vector Word 256) : Forest (leavesOf ft) (treeOf ft) :=
  (forest_leaves ft).mergeAll 256

theorem working_treeOf_le (ft : Vector Word 256) : (working (treeOf ft)).length ≤ 1 := by
  refine (forest_leaves ft).mergeAll_done ?_
  have h := (forest_leaves ft).size
  have := leavesOf_length_le ft
  omega

/-- The last node created is still active (R157). -/
theorem Forest.last_active {ls ns : List Node} (h : Forest ls ns) (hl : 1 ≤ ls.length) :
    (nd ns (ns.length - 1)).active = true := by
  have := h.low
  by_contra hc
  rw [Bool.not_eq_true, h.parent _ (by omega)] at hc
  obtain ⟨p, b, h1, h2, h3⟩ := hc
  have := h.child_lt b h1 h2
  omega

theorem treeOf_length (ft : Vector Word 256) : (treeOf ft).length = 2 * (leavesOf ft).length - 1 := by
  have h := forest_treeOf ft
  have h1 := h.size; have h2 := h.low; have h3 := working_treeOf_le ft
  by_cases hl : 1 ≤ (leavesOf ft).length
  · have : (nd (treeOf ft) ((treeOf ft).length - 1), (treeOf ft).length - 1) ∈ working (treeOf ft) :=
      mem_working.mpr ⟨getElem?_of_lt (by omega), h.last_active hl⟩
    have := List.length_pos_of_mem this
    omega
  · omega

theorem treeOf_length_le (ft : Vector Word 256) : (treeOf ft).length ≤ 511 := by
  have := treeOf_length ft; have := leavesOf_length_le ft; omega

theorem treeOf_length_toNat (ft : Vector Word 256) : (BitVec.ofNat 9 (treeOf ft).length).toNat = (treeOf ft).length := by
  rw [BitVec.toNat_ofNat]; have := treeOf_length_le ft; exact Nat.mod_eq_of_lt (by omega)

theorem leavesOf_length_toNat (ft : Vector Word 256) :
    (BitVec.ofNat 9 (leavesOf ft).length).toNat = (leavesOf ft).length := by
  rw [BitVec.toNat_ofNat]; have := leavesOf_length_le ft; exact Nat.mod_eq_of_lt (by omega)

/-- The node at an index is the node of that place in the list BUILD made. -/
theorem nodeAt_treeOf (ft : Vector Word 256) (n : NodeIdx) : nodeAt (nodeMemory (treeOf ft)) n = nd (treeOf ft) n.toNat :=
  nodeAt_nodeMemory (treeOf_length_le ft) n

/-- The one node left is the last one created (R157). -/
theorem working_treeOf (ft : Vector Word 256) (h : 1 ≤ (leavesOf ft).length) :
    working (treeOf ft) = [(nd (treeOf ft) ((treeOf ft).length - 1), (treeOf ft).length - 1)] := by
  have hf := forest_treeOf ft
  have hl := treeOf_length ft
  have hlast : (treeOf ft).length - 1 < (treeOf ft).length := by omega
  have hact := hf.last_active h
  have hm : (nd (treeOf ft) ((treeOf ft).length - 1), (treeOf ft).length - 1) ∈ working (treeOf ft) :=
    mem_working.mpr ⟨getElem?_of_lt hlast, hact⟩
  have hone := working_treeOf_le ft
  match hw : working (treeOf ft), hm, hone with
  | [], hm, _ => simp at hm
  | [p], hm, _ => rw [List.mem_singleton] at hm; rw [hm]
  | _ :: _ :: _, _, hone => simp at hone

theorem rootOf_treeOf (ft : Vector Word 256) (h : 1 ≤ (leavesOf ft).length) :
    (rootOf (treeOf ft)).toNat = (treeOf ft).length - 1 := by
  unfold rootOf
  rw [working_treeOf ft h]
  have := treeOf_length_le ft
  simp only [BitVec.toNat_ofNat]
  exact Nat.mod_eq_of_lt (by omega)

theorem treeOf_nil {ft : Vector Word 256} (h : (leavesOf ft).length = 0) : treeOf ft = [] := by
  have := treeOf_length ft
  exact List.length_eq_zero_iff.mp (by omega)

theorem nd_leaf (ft : Vector Word 256) {i : Nat} (h : i < (leavesOf ft).length) :
    ∃ x : Byte, ftAt ft x ≠ 0#32 ∧ { nd (treeOf ft) i with active := true } = Node.newLeaf x (ftAt ft x) := by
  rw [(forest_treeOf ft).leaf i h]
  exact mem_leavesOf.mp (List.mem_of_getElem? (getElem?_of_lt h))

/-- The tree of every frequency table has the shape of R47 and R56. -/
theorem treeShape_of_build {s : State} {ft : Vector Word 256} (hn : s.node = nodeMemory (treeOf ft))
    (hc : s.nodeCnt = BitVec.ofNat 9 (treeOf ft).length) (hl : s.nleaf = BitVec.ofNat 9 (leavesOf ft).length)
    (hr : s.root = rootOf (treeOf ft)) : TreeShape s := by
  have hf := forest_treeOf ft
  have hat : ∀ n, nodeAt s.node n = nd (treeOf ft) n.toNat := fun n => by rw [hn]; exact nodeAt_treeOf ft n
  have hct : s.nodeCnt.toNat = (treeOf ft).length := by rw [hc]; exact treeOf_length_toNat ft
  have hlt : s.nleaf.toNat = (leavesOf ft).length := by rw [hl]; exact leavesOf_length_toNat ft
  have hlen := treeOf_length ft
  have hle := treeOf_length_le ft
  have hleaf : ∀ i, i < (leavesOf ft).length → ∃ x : Byte, ∃ a,
      nd (treeOf ft) i = { Node.newLeaf x (ftAt ft x) with active := a } := by
    intro i hi
    obtain ⟨x, -, hx⟩ := nd_leaf ft hi
    exact ⟨x, (nd (treeOf ft) i).active, by rw [← hx]⟩
  have hroot : 1 ≤ (leavesOf ft).length → s.root.toNat = (treeOf ft).length - 1 := fun h => by
    rw [hr]; exact rootOf_treeOf ft h
  refine ⟨?_, ?_, ?_, ?_, ?_, ?_, ?_, ?_, ?_, ?_, ?_⟩
  · rw [hlt]; exact leavesOf_length_le ft
  · rw [hct, hlt, hlen]
  · intro h
    rw [hlt] at h
    rw [hr, treeOf_nil h]
    rfl
  · intro h
    rw [hlt] at h
    rw [hct]; exact hroot h
  · intro n h
    rw [hlt] at h
    obtain ⟨x, a, hx⟩ := hleaf _ h
    rw [hat, hx]
    exact ⟨rfl, rfl, rfl⟩
  · intro m n hmn hnl
    rw [hlt] at hnl
    rw [hat, hat]
    have hs : ∀ i, i < (leavesOf ft).length → (nd (treeOf ft) i).sym = (nd (leavesOf ft) i).sym := by
      intro i hi; rw [← hf.leaf i hi]
    rw [hs _ hnl, hs _ (by omega)]
    have hp := leavesFrom_ascending (l := ft.toList) (k := 0) (by simp)
    rw [← leavesOf_eq, List.pairwise_iff_getElem] at hp
    have := hp m.toNat n.toNat (by omega) hnl hmn
    simpa [nd, hnl, (by omega : m.toNat < (leavesOf ft).length)] using this
  · intro n h1 h2
    rw [hlt] at h1; rw [hct] at h2
    rw [hat]
    have hi := hf.internal _ h1 h2
    refine ⟨hi.1, hi.2.1, hi.2.2.1, hi.2.2.2.1, hi.2.2.2.2.1, ?_⟩
    rw [hat, hat]
    exact hi.2.2.2.2.2
  · intro n h1 h2
    rw [hct] at h1
    by_cases hact : (nd (treeOf ft) n.toNat).active = true
    · exfalso
      have hL : 1 ≤ (leavesOf ft).length := by omega
      have hm : (nd (treeOf ft) n.toNat, n.toNat) ∈ working (treeOf ft) :=
        mem_working.mpr ⟨getElem?_of_lt h1, hact⟩
      rw [working_treeOf ft hL, List.mem_singleton, Prod.mk.injEq] at hm
      exact h2 (BitVec.eq_of_toNat_eq (by rw [hroot hL]; exact hm.2))
    · rw [Bool.not_eq_true, hf.parent _ h1] at hact
      obtain ⟨p, b, hp1, hp2, hp3⟩ := hact
      have hp : (BitVec.ofNat 9 p).toNat = p := by rw [BitVec.toNat_ofNat]; exact Nat.mod_eq_of_lt (by omega)
      refine ⟨BitVec.ofNat 9 p, b, by omega, by omega, BitVec.eq_of_toNat_eq ?_⟩
      rw [← hp3]
      unfold childOf
      rw [hat, hp]
      rfl
  · intro p q b c hp1 hp2 hq1 hq2 he
    rw [hlt] at hp1 hq1; rw [hct] at hp2 hq2
    unfold childOf at he
    rw [hat, hat] at he
    have := hf.one p.toNat q.toNat b c hp1 hp2 hq1 hq2 he
    exact ⟨BitVec.eq_of_toNat_eq this.1, this.2⟩
  · intro n h1
    rw [hct] at h1
    have hL : 1 ≤ (leavesOf ft).length := by omega
    rw [hat]
    constructor
    · intro hact
      have hm : (nd (treeOf ft) n.toNat, n.toNat) ∈ working (treeOf ft) :=
        mem_working.mpr ⟨getElem?_of_lt h1, hact⟩
      rw [working_treeOf ft hL, List.mem_singleton, Prod.mk.injEq] at hm
      exact BitVec.eq_of_toNat_eq (by rw [hroot hL]; exact hm.2)
    · intro he
      have hm : (nd (treeOf ft) ((treeOf ft).length - 1), (treeOf ft).length - 1) ∈ working (treeOf ft) := by
        rw [working_treeOf ft hL]; simp
      rw [mem_working] at hm
      rw [he, hroot hL]
      exact hm.2
  · intro n h1
    rw [hct] at h1
    rw [hat]
    simp [nd, h1]

/-- R162: the root of a table that is not empty weighs the whole table. -/
theorem root_weight (ft : Vector Word 256) (h : 1 ≤ (leavesOf ft).length) :
    (nd (treeOf ft) ((treeOf ft).length - 1)).weight.toNat = totalCount ft := by
  have ht := (forest_treeOf ft).total
  rw [leavesOf_total, workingSum, working_treeOf ft h] at ht
  simpa using ht

/-- BUILD merges in order (R155, R156). -/
theorem ordered_treeOf (ft : Vector Word 256) : Ordered (leavesOf ft) (treeOf ft) :=
  Ordered.mergeAll (forest_leaves ft) (fun i h1 h2 => by omega) 256

/-- A node waits for another in the node memory as it does in the list BUILD made. -/
theorem waitsFor_iff {s : State} {ft : Vector Word 256} (hn : s.node = nodeMemory (treeOf ft))
    (hl : s.nleaf = BitVec.ofNat 9 (leavesOf ft).length) (n m : NodeIdx) :
    s.waitsFor n m ↔ Waits (leavesOf ft) (treeOf ft) n.toNat m.toNat := by
  have hat : ∀ n, nodeAt s.node n = nd (treeOf ft) n.toNat := fun n => by rw [hn]; exact nodeAt_treeOf ft n
  have hlt : s.nleaf.toNat = (leavesOf ft).length := by rw [hl]; exact leavesOf_length_toNat ft
  have hc : ∀ (p : NodeIdx) (b : Bool), childOf s.node p b = (nd (treeOf ft) p.toNat).child b := by
    intro p b; unfold childOf Node.child; rw [hat]
  unfold State.waitsFor Waits
  refine and_congr_right fun _ => ?_
  rw [hlt]
  constructor
  · intro h p b h1 h2 he
    have hp : (BitVec.ofNat 9 p).toNat = p := by
      rw [BitVec.toNat_ofNat]; exact Nat.mod_eq_of_lt (by have := n.isLt; omega)
    refine h (BitVec.ofNat 9 p) b (by omega) (by omega) ?_
    rw [hc, hp]; exact BitVec.eq_of_toNat_eq he
  · intro h p b h1 h2 he
    exact h p.toNat b h1 h2 (by rw [← hc, he])

/-- R155, R156 of the tree BUILD leaves: LEFT is the least node that waited, RIGHT the least of the rest. -/
theorem build_takes_least {s : State} {ft : Vector Word 256} (hn : s.node = nodeMemory (treeOf ft))
    (hc : s.nodeCnt = BitVec.ofNat 9 (treeOf ft).length) (hl : s.nleaf = BitVec.ofNat 9 (leavesOf ft).length)
    {n : NodeIdx} (h1 : s.nleaf.toNat ≤ n.toNat) (h2 : n.toNat < s.nodeCnt.toNat) :
    s.waitsFor n (nodeAt s.node n).left ∧ s.waitsFor n (nodeAt s.node n).right ∧
      ∀ m : NodeIdx, s.waitsFor n m → m ≠ (nodeAt s.node n).left →
        s.less (nodeAt s.node n).left m ∧ (m ≠ (nodeAt s.node n).right → s.less (nodeAt s.node n).right m) := by
  have hat : ∀ n, nodeAt s.node n = nd (treeOf ft) n.toNat := fun n => by rw [hn]; exact nodeAt_treeOf ft n
  rw [hl, leavesOf_length_toNat] at h1
  rw [hc, treeOf_length_toNat] at h2
  obtain ⟨o1, o2, o3⟩ := ordered_treeOf ft n.toNat h1 h2
  have hless : ∀ a b : NodeIdx, lessNode (nd (treeOf ft) a.toNat, a.toNat) (nd (treeOf ft) b.toNat, b.toNat) = true →
      s.less a b := by
    intro a b h
    rw [lessNode_iff] at h
    unfold State.less
    rw [hat, hat]
    rcases h with h | ⟨h, h'⟩
    · exact Or.inl h
    · exact Or.inr ⟨BitVec.eq_of_toNat_eq h, h'⟩
  have ne : ∀ {a b : NodeIdx}, a ≠ b → a.toNat ≠ b.toNat := fun h e => h (BitVec.eq_of_toNat_eq e)
  simp only [waitsFor_iff hn hl, hat]
  exact ⟨o1, o2, fun m hw hm => ⟨hless _ _ (o3 _ hw (ne hm)).1, fun hm' => hless _ _ ((o3 _ hw (ne hm)).2 (ne hm'))⟩⟩

end Sys2Proof.Machine
end

