-- ==== Sys2Proof/Laws/Gencodes.lean ====
section
/-! SUPPORT. Paths in a tree of the shape BUILD leaves, and the code table the walk makes of them
(spec/42_build.md R161; spec/43_gencodes.md R180 to R185). -/

namespace Sys2Proof.Machine

/-! ### Paths -/

theorem descend_append (node : Vector Node 511) (n : NodeIdx) (p q : Bits) :
    descend node n (p ++ q) = (descend node n p).bind fun m => descend node m q := by
  induction p generalizing n with
  | nil => rfl
  | cons b p ih =>
    simp only [List.cons_append, descend]
    split
    · rfl
    · exact ih _

theorem descend_snoc {node : Vector Node 511} {n m : NodeIdx} {p : Bits} {b : Bool} :
    descend node n (p ++ [b]) = some m ↔
      ∃ k, descend node n p = some k ∧ (nodeAt node k).leaf = false ∧ childOf node k b = m := by
  rw [descend_append, Option.bind_eq_some_iff]
  constructor
  · rintro ⟨k, hk, h⟩
    simp only [descend] at h
    split at h
    · simp at h
    · rename_i hl
      exact ⟨k, hk, by simpa using hl, by simpa using h⟩
  · rintro ⟨k, hk, hl, rfl⟩
    exact ⟨k, hk, by simp [descend, hl]⟩

variable {s : State}

theorem TreeShape.root_lt (h : TreeShape s) (hl : 1 ≤ s.nleaf.toNat) : s.root.toNat < s.nodeCnt.toNat := by
  have := h.rootLast hl; have := h.count; omega

theorem TreeShape.cnt_le (h : TreeShape s) : s.nodeCnt.toNat ≤ 511 := by
  have := h.count; have := h.leavesBound; omega

theorem TreeShape.ne_null (h : TreeShape s) {n : NodeIdx} (hn : n.toNat < s.nodeCnt.toNat) : n ≠ Config.nullIdx := by
  intro e
  have := h.cnt_le
  rw [e] at hn
  have : (Config.nullIdx).toNat = 511 := rfl
  omega

theorem TreeShape.leaf_iff (h : TreeShape s) {n : NodeIdx} (hn : n.toNat < s.nodeCnt.toNat) :
    (nodeAt s.node n).leaf = true ↔ n.toNat < s.nleaf.toNat := by
  constructor
  · intro hl
    by_contra hc
    have := (h.internals n (by omega) hn).1
    rw [hl] at this; cases this
  · intro hl; exact (h.leaves n hl).1

theorem TreeShape.child_lt (h : TreeShape s) {n : NodeIdx} (hn : n.toNat < s.nodeCnt.toNat)
    (hl : (nodeAt s.node n).leaf = false) (b : Bool) : (childOf s.node n b).toNat < n.toNat := by
  have hi : s.nleaf.toNat ≤ n.toNat := by
    by_contra hc
    rw [(h.leaf_iff hn).mpr (by omega)] at hl; cases hl
  have := h.internals n hi hn
  cases b
  · exact this.2.2.1
  · exact this.2.2.2.1

/-- A path goes to older and older nodes (R161). -/
theorem TreeShape.descend_le (h : TreeShape s) {n m : NodeIdx} {p : Bits} (hn : n.toNat < s.nodeCnt.toNat)
    (hd : descend s.node n p = some m) : m.toNat + p.length ≤ n.toNat ∧ m.toNat < s.nodeCnt.toNat := by
  induction p generalizing n with
  | nil => simp only [descend, Option.some.injEq] at hd; subst hd; simpa using hn
  | cons b p ih =>
    simp only [descend] at hd
    split at hd
    · simp at hd
    · rename_i hl
      have hc := h.child_lt hn (by simpa using hl) b
      have := ih (by omega) hd
      rw [List.length_cons]
      omega

/-- A path from the root has at most NLEAF - 1 turns (R161, R185 (a)). -/
theorem TreeShape.path_length (h : TreeShape s) (hl : 1 ≤ s.nleaf.toNat) {m : NodeIdx} {p : Bits}
    (hd : descend s.node s.root p = some m) : p.length ≤ s.nleaf.toNat - 1 := by
  rcases List.eq_nil_or_concat p with rfl | ⟨p', b, rfl⟩
  · simp
  · rw [List.concat_eq_append] at hd ⊢
    obtain ⟨k, hk, hkl, -⟩ := descend_snoc.mp hd
    have hb := h.descend_le (h.root_lt hl) hk
    have hi : s.nleaf.toNat ≤ k.toNat := by
      by_contra hc
      rw [(h.leaf_iff hb.2).mpr (by omega)] at hkl; cases hkl
    have := h.rootLast hl; have := h.count
    simp only [List.length_append, List.length_singleton]
    omega

/-- A node is reached by one path only (R161). -/
theorem TreeShape.path_unique (h : TreeShape s) (hl : 1 ≤ s.nleaf.toNat) {m : NodeIdx} {p q : Bits}
    (hp : descend s.node s.root p = some m) (hq : descend s.node s.root q = some m) : p = q := by
  have hroot : ∀ {r : Bits} {b : Bool}, descend s.node s.root (r ++ [b]) ≠ some s.root := by
    intro r b hd
    have := (h.descend_le (h.root_lt hl) hd).1
    simp at this
  induction p using List.reverseRecOn generalizing q m with
  | nil =>
    simp only [descend, Option.some.injEq] at hp
    subst hp
    rcases List.eq_nil_or_concat q with rfl | ⟨q', b, rfl⟩
    · rfl
    · rw [List.concat_eq_append] at hq; exact absurd hq hroot
  | append_singleton p b ih =>
    rcases List.eq_nil_or_concat q with rfl | ⟨q', c, rfl⟩
    · simp only [descend, Option.some.injEq] at hq
      subst hq
      exact absurd hp hroot
    · rw [List.concat_eq_append] at hq ⊢
      obtain ⟨k, hk, hkl, hkc⟩ := descend_snoc.mp hp
      obtain ⟨j, hj, hjl, hjc⟩ := descend_snoc.mp hq
      have hkb := (h.descend_le (h.root_lt hl) hk).2
      have hjb := (h.descend_le (h.root_lt hl) hj).2
      have hki : s.nleaf.toNat ≤ k.toNat := by
        by_contra hc
        rw [(h.leaf_iff hkb).mpr (by omega)] at hkl; cases hkl
      have hji : s.nleaf.toNat ≤ j.toNat := by
        by_contra hc
        rw [(h.leaf_iff hjb).mpr (by omega)] at hjl; cases hjl
      obtain ⟨rfl, rfl⟩ := h.oneParent k j b c hki hkb hji hjb (hkc.trans hjc.symm)
      rw [ih hk hj]

/-- Every node is reached from the root (R161). -/
theorem TreeShape.path_exists (h : TreeShape s) {n : NodeIdx}
    (hn : n.toNat < s.nodeCnt.toNat) : ∃ p, descend s.node s.root p = some n := by
  have key : ∀ d, ∀ n : NodeIdx, n.toNat < s.nodeCnt.toNat → s.nodeCnt.toNat - n.toNat ≤ d →
      ∃ p, descend s.node s.root p = some n := by
    intro d
    induction d with
    | zero => intro n h1 h2; omega
    | succ d ih =>
      intro n h1 h2
      by_cases hr : n = s.root
      · exact ⟨[], by rw [hr]; rfl⟩
      · obtain ⟨k, b, hk1, hk2, hk3⟩ := h.hasParent n h1 hr
        have hkl : (nodeAt s.node k).leaf = false := (h.internals k hk1 hk2).1
        have hlt := h.child_lt hk2 hkl b
        rw [hk3] at hlt
        obtain ⟨p, hp⟩ := ih k hk2 (by omega)
        exact ⟨p ++ [b], descend_snoc.mpr ⟨k, hp, hkl, hk3⟩⟩
  exact key _ n hn (le_refl _)

/-- Two leaves of one symbol are one leaf (R152). -/
theorem TreeShape.sym_inj (h : TreeShape s) {m n : NodeIdx} (hm : m.toNat < s.nleaf.toNat)
    (hn : n.toNat < s.nleaf.toNat) (he : (nodeAt s.node m).sym = (nodeAt s.node n).sym) : m = n := by
  apply BitVec.eq_of_toNat_eq
  rcases Nat.lt_trichotomy m.toNat n.toNat with hlt | heq | hlt
  · have := h.ascending m n hlt hn; rw [he] at this; omega
  · exact heq
  · have := h.ascending n m hlt hm; rw [he] at this; omega

/-! ### The walk -/

/-- The (symbol, path) pairs the walk records, in its order. -/
def leafPaths (node : Vector Node 511) : Nat → NodeIdx → Bits → List (Byte × Bits)
  | 0, _, _ => []
  | fuel + 1, n, path =>
    if n = Config.nullIdx then []
    else if (nodeAt node n).leaf then [((nodeAt node n).sym, path)]
    else leafPaths node fuel (nodeAt node n).left (path ++ [false]) ++
      leafPaths node fuel (nodeAt node n).right (path ++ [true])

theorem walk_eq (node : Vector Node 511) (fuel : Nat) (n : NodeIdx) (path : Bits) (ct : Vector Code 256) :
    walk node fuel n path ct = (leafPaths node fuel n path).foldl (fun t e => ctSet t e.1 (Code.ofBits e.2)) ct := by
  induction fuel generalizing n path ct with
  | zero => rfl
  | succ fuel ih =>
    simp only [walk, leafPaths]
    split
    · rfl
    · split
      · rfl
      · rw [ih, ih, List.foldl_append]

theorem leafPaths_sound {node : Vector Node 511} {fuel : Nat} {n : NodeIdx} {path : Bits} {e : Byte × Bits}
    (h : e ∈ leafPaths node fuel n path) :
    ∃ q l, e.2 = path ++ q ∧ descend node n q = some l ∧ (nodeAt node l).leaf = true ∧ (nodeAt node l).sym = e.1 := by
  induction fuel generalizing n path with
  | zero => simp [leafPaths] at h
  | succ fuel ih =>
    simp only [leafPaths] at h
    split at h
    · simp at h
    · split at h
      · rename_i hl
        rw [List.mem_singleton] at h
        subst h
        exact ⟨[], n, by simp, rfl, hl, rfl⟩
      · rename_i hl
        rcases List.mem_append.mp h with h | h
        · obtain ⟨q, l, h1, h2, h3, h4⟩ := ih h
          refine ⟨false :: q, l, by rw [h1]; simp, ?_, h3, h4⟩
          simpa [descend, hl, childOf] using h2
        · obtain ⟨q, l, h1, h2, h3, h4⟩ := ih h
          refine ⟨true :: q, l, by rw [h1]; simp, ?_, h3, h4⟩
          simpa [descend, hl, childOf] using h2

theorem TreeShape.leafPaths_complete (h : TreeShape s) {fuel : Nat} {n l : NodeIdx} {path q : Bits}
    (hn : n.toNat < s.nodeCnt.toNat) (hd : descend s.node n q = some l) (hl : (nodeAt s.node l).leaf = true)
    (hf : q.length < fuel) : ((nodeAt s.node l).sym, path ++ q) ∈ leafPaths s.node fuel n path := by
  induction fuel generalizing n path q with
  | zero => omega
  | succ fuel ih =>
    simp only [leafPaths]
    rw [if_neg (h.ne_null hn)]
    cases q with
    | nil =>
      simp only [descend, Option.some.injEq] at hd
      subst hd
      simp [hl]
    | cons b q =>
      simp only [descend] at hd
      split at hd
      · simp at hd
      · rename_i hnl
        rw [if_neg hnl]
        have hc := h.child_lt hn (by simpa using hnl) b
        have := ih (path := path ++ [b]) (by omega) hd (by simpa using hf)
        rw [List.append_assoc, List.singleton_append] at this
        cases b
        · exact List.mem_append_left _ this
        · exact List.mem_append_right _ this

theorem ctAt_foldl {l : List (Byte × Bits)} {ct : Vector Code 256} {x : Byte} {p : Bits}
    (h : ∀ e ∈ l, e.1 = x → e.2 = p) :
    ctAt (l.foldl (fun t e => ctSet t e.1 (Code.ofBits e.2)) ct) x =
      if ∃ e ∈ l, e.1 = x then Code.ofBits p else ctAt ct x := by
  induction l generalizing ct with
  | nil => simp
  | cons e l ih =>
    rw [List.foldl_cons, ih (fun e' he' => h e' (by simp [he'])), ctAt_ctSet]
    by_cases h1 : ∃ e' ∈ l, e'.1 = x
    · have h2 : ∃ e' ∈ e :: l, e'.1 = x := by obtain ⟨e', h3, h4⟩ := h1; exact ⟨e', by simp [h3], h4⟩
      simp only [h1, h2, if_true]
    · by_cases h3 : e.1 = x
      · have h4 := h e (by simp) h3
        have h2 : ∃ e' ∈ e :: l, e'.1 = x := ⟨e, by simp, h3⟩
        rw [if_neg h1, if_pos h2, if_pos h3.symm, h4]
      · have h2 : ¬ ∃ e' ∈ e :: l, e'.1 = x := by
          rintro ⟨e', h5, h6⟩
          rcases List.mem_cons.mp h5 with rfl | h5
          · exact h3 h6
          · exact h1 ⟨e', h5, h6⟩
        rw [if_neg h1, if_neg h2, if_neg (Ne.symm h3)]

theorem TreeShape.codeTable_full (h : TreeShape s) (hl : 2 ≤ s.nleaf.toNat) :
    codeTable s.node s.root = walk s.node 256 s.root [] (Vector.replicate 256 Code.empty) := by
  have hr := h.root_lt (by omega)
  have hlast := h.rootLast (by omega)
  have hc := h.count
  have hnl : (nodeAt s.node s.root).leaf = false := (h.internals s.root (by omega) hr).1
  unfold codeTable
  simp only [h.ne_null hr, hnl, if_false, Bool.false_eq_true]

/-- On a full tree the symbol of the leaf at the end of a path gets that path as its code (R180, R184). -/
theorem TreeShape.codeTable_leaf (h : TreeShape s) (hl : 2 ≤ s.nleaf.toNat) {n : NodeIdx} {p : Bits}
    (hn : n.toNat < s.nleaf.toNat) (hp : descend s.node s.root p = some n) :
    ctAt (codeTable s.node s.root) (nodeAt s.node n).sym = Code.ofBits p := by
  have hlen := h.path_length (by omega) hp
  have hb := h.leavesBound
  have hr := h.root_lt (by omega)
  rw [h.codeTable_full hl, walk_eq]
  have hm := h.leafPaths_complete (path := []) hr hp (h.leaves n hn).1 (fuel := 256) (by omega)
  rw [ctAt_foldl (p := p), if_pos ⟨_, hm, rfl⟩]
  intro e he hx
  obtain ⟨q, l, h1, h2, h3, h4⟩ := leafPaths_sound he
  have hlb := (h.descend_le hr h2).2
  have := h.sym_inj ((h.leaf_iff hlb).mp h3) hn (h4.trans hx)
  subst this
  rw [h1, List.nil_append]
  exact h.path_unique (by omega) h2 hp

/-- On a full tree a symbol that is no leaf's has no entry (R181). -/
theorem TreeShape.codeTable_absent (h : TreeShape s) (hl : 2 ≤ s.nleaf.toNat) {x : Byte}
    (hx : ∀ n : NodeIdx, n.toNat < s.nleaf.toNat → (nodeAt s.node n).sym ≠ x) :
    ctAt (codeTable s.node s.root) x = Code.empty := by
  rw [h.codeTable_full hl, walk_eq]
  have hno : ∀ e ∈ leafPaths s.node 256 s.root [], e.1 ≠ x := by
    intro e he hex
    obtain ⟨q, l, h1, h2, h3, h4⟩ := leafPaths_sound he
    have hlb := (h.descend_le (h.root_lt (by omega)) h2).2
    exact hx l ((h.leaf_iff hlb).mp h3) (h4.trans hex)
  rw [ctAt_foldl (p := []) (fun e he hex => absurd hex (hno e he)), if_neg, ctAt_replicate]
  rintro ⟨e, he, hex⟩
  exact hno e he hex

/-- With a single leaf its symbol, and no other, has the code "0" (R182). -/
theorem TreeShape.codeTable_single (h : TreeShape s) (hl : s.nleaf.toNat = 1) (x : Byte) :
    ctAt (codeTable s.node s.root) x =
      if x = (nodeAt s.node s.root).sym then Code.ofBits [false] else Code.empty := by
  have hr := h.root_lt (by omega)
  have hlast := h.rootLast (by omega)
  have hc := h.count
  have hleaf := (h.leaves s.root (by omega)).1
  unfold codeTable
  simp only [h.ne_null hr, hleaf, if_false, if_true]
  rw [ctAt_ctSet, ctAt_replicate]

/-- With no tree the table is empty (R183). -/
theorem TreeShape.codeTable_none (h : TreeShape s) (hl : s.nleaf.toNat = 0) :
    codeTable s.node s.root = Vector.replicate 256 Code.empty := by
  unfold codeTable
  rw [h.rootNone hl]
  simp

/-- A code of a full tree's table is the path to a leaf (R180). -/
theorem TreeShape.codeOf_eq (h : TreeShape s) (hl : 2 ≤ s.nleaf.toNat) {n : NodeIdx} {p : Bits}
    (hn : n.toNat < s.nleaf.toNat) (hp : descend s.node s.root p = some n) :
    codeOf (codeTable s.node s.root) (nodeAt s.node n).sym = p := by
  unfold codeOf
  rw [h.codeTable_leaf hl hn hp, Code.str_ofBits]
  have := h.path_length (by omega) hp
  have := h.leavesBound
  omega

/-- On a full tree, the non-empty codes are exactly the paths to leaves, each that of its leaf's symbol (R180, R185). -/
theorem TreeShape.codeOf_iff (h : TreeShape s) (hl : 2 ≤ s.nleaf.toNat) (x : Byte) {p : Bits} (hp : p ≠ []) :
    codeOf (codeTable s.node s.root) x = p ↔
      ∃ n : NodeIdx, descend s.node s.root p = some n ∧ (nodeAt s.node n).leaf = true ∧ (nodeAt s.node n).sym = x := by
  have hr := h.root_lt (by omega)
  constructor
  · intro he
    by_cases hx : ∃ n : NodeIdx, n.toNat < s.nleaf.toNat ∧ (nodeAt s.node n).sym = x
    · obtain ⟨n, hn, rfl⟩ := hx
      obtain ⟨q, hq⟩ := h.path_exists (n := n) (by have := h.count; omega)
      rw [h.codeOf_eq hl hn hq] at he
      subst he
      exact ⟨n, hq, (h.leaves n hn).1, rfl⟩
    · exfalso
      have := h.codeTable_absent hl (x := x) (fun n hn hs => hx ⟨n, hn, hs⟩)
      unfold codeOf at he
      rw [this] at he
      exact hp he.symm
  · rintro ⟨n, hd, hleaf, rfl⟩
    exact h.codeOf_eq hl ((h.leaf_iff (h.descend_le hr hd).2).mp hleaf) hd

end Sys2Proof.Machine
end

