-- ==== Sys2Proof/Laws/Unpack.lean ====
section
/-! SUPPORT. The bit unpacker (spec/45_decode.md R220 to R226): running it over a code, over a sequence of codes, over
a code cut short; and the two modes in step with one another. -/

namespace Sys2Proof.Machine

variable {γ : Type}

/-- The unpacker run over the bits `c`, the first of them bit `k` of the stream. -/
def unpackRun (d : Nat) (act : γ → Bool → Act γ) (init : γ) (k : Nat) : Bits → Unpack γ → Unpack γ
  | [], u => u
  | b :: c, u => unpackRun d act init (k + 1) c (unpackBit d act init k b u)

theorem unpackRun_append (d : Nat) (act : γ → Bool → Act γ) (init : γ) (k : Nat) (c c' : Bits) (u : Unpack γ) :
    unpackRun d act init k (c ++ c') u = unpackRun d act init (k + c.length) c' (unpackRun d act init k c u) := by
  induction c generalizing k u with
  | nil => rfl
  | cons b c ih =>
    rw [List.cons_append, unpackRun, unpackRun, ih, List.length_cons]
    congr 1
    omega

theorem packedBits_succ (m : Buffer) (n : Nat) : packedBits m (n + 1) = packedBits m n ++ [streamBit m n] := by
  simp [packedBits, List.range_succ]

@[simp] theorem packedBits_length (m : Buffer) (n : Nat) : (packedBits m n).length = n := by simp [packedBits]

theorem packedBits_getElem? {m : Buffer} {n k : Nat} (h : k < n) : (packedBits m n)[k]? = some (streamBit m k) := by
  simp [packedBits, h]

theorem unpackBits_eq (d : Nat) (act : γ → Bool → Act γ) (init : γ) (obuf dbuf : Buffer) (n : Nat) :
    unpackBits d act init obuf dbuf n = unpackRun d act init 0 (packedBits obuf n) ⟨0, 0, init, dbuf, none⟩ := by
  induction n with
  | zero => rfl
  | succ n ih =>
    rw [packedBits_succ, unpackRun_append, packedBits_length, ← ih]
    simp [unpackRun, unpackBits]

theorem unpackRun_raised {d : Nat} {act : γ → Bool → Act γ} {init : γ} {u : Unpack γ} (h : u.raised.isSome = true)
    (k : Nat) (c : Bits) : unpackRun d act init k c u = u := by
  induction c generalizing k with
  | nil => rfl
  | cons b c ih => rw [unpackRun, unpackBit, if_pos h, ih]

/-- From the cursor `cur` the bits `c` lead, without ending a code, to the cursor `cur'`. -/
def Wanders (act : γ → Bool → Act γ) : γ → Bits → γ → Prop
  | cur, [], cur' => cur = cur'
  | cur, b :: c, cur' => ∃ next, act cur b = .go next ∧ Wanders act next c cur'

/-- From the cursor `cur` the bits `c` are a code of `sym`, ending with their last bit. -/
def Spells (act : γ → Bool → Act γ) (cur : γ) (c : Bits) (sym : Byte) : Prop :=
  ∃ c' b cur', c = c' ++ [b] ∧ Wanders act cur c' cur' ∧ act cur' b = .emit sym

variable {d : Nat} {act : γ → Bool → Act γ} {init : γ}

theorem unpackRun_wanders {cur' : γ} {c : Bits} {u : Unpack γ} (hu : u.raised = none) (h : Wanders act u.cur c cur')
    (k : Nat) : unpackRun d act init k c u = { u with cur := cur' } := by
  induction c generalizing k u with
  | nil => simp only [Wanders] at h; subst h; rfl
  | cons b c ih =>
    obtain ⟨next, h1, h2⟩ := h
    rw [unpackRun, unpackBit, if_neg (by simp [hu]), h1]
    exact ih (u := { u with cur := next }) hu h2 (k + 1)

theorem unpackRun_spells {sym : Byte} {c : Bits} {u : Unpack γ} (hu : u.raised = none) (hn : u.n < d)
    (h : Spells act u.cur c sym) (k : Nat) :
    unpackRun d act init k c u = ⟨u.n + 1, k + c.length, init, u.dbuf.write u.n sym, none⟩ := by
  obtain ⟨c', b, cur', rfl, h1, h2⟩ := h
  rw [unpackRun_append, unpackRun_wanders hu h1, unpackRun, unpackBit, if_neg (by simp [hu])]
  dsimp only
  rw [h2]
  dsimp only [unpackRun]
  rw [emitAt, if_neg (by dsimp only; omega)]
  simp [hu, Nat.add_assoc]

/-- A complete code that finds DBUF full is OVERFLOW at the bit where it began (R220, R225 (2)). -/
theorem unpackRun_overflow {sym : Byte} {c : Bits} {u : Unpack γ} (hu : u.raised = none) (hn : u.n = d)
    (h : Spells act u.cur c sym) (k : Nat) :
    ∃ cur', unpackRun d act init k c u =
      { u with cur := cur', raised := some ⟨.overflow, BitVec.ofNat 32 u.start⟩ } := by
  obtain ⟨c', b, cur', rfl, h1, h2⟩ := h
  refine ⟨cur', ?_⟩
  rw [unpackRun_append, unpackRun_wanders hu h1, unpackRun, unpackBit, if_neg (by simp [hu])]
  dsimp only
  rw [h2]
  dsimp only [unpackRun]
  rw [emitAt, if_pos hn]

/-- Symbols written to a buffer from element `n` on. -/
def putSymbols (m : Buffer) (n : Nat) : List Byte → Buffer
  | [] => m
  | x :: xs => putSymbols (m.write n x) (n + 1) xs

theorem putSymbols_read (m : Buffer) (n : Nat) (xs : List Byte) (j : Nat) :
    (putSymbols m n xs).read j = if n ≤ j ∧ j < n + xs.length then xs.getD (j - n) 0#8 else m.read j := by
  induction xs generalizing m n with
  | nil =>
    have : ¬ (n ≤ j ∧ j < n + ([] : List Byte).length) := by rw [List.length_nil]; omega
    rw [if_neg this]; rfl
  | cons x xs ih =>
    rw [putSymbols, ih, Buffer.read_write, List.length_cons]
    by_cases h1 : j = n
    · subst h1
      rw [if_neg (by omega), if_pos rfl, if_pos (by omega)]; simp
    · by_cases h2 : n + 1 ≤ j ∧ j < n + 1 + xs.length
      · rw [if_pos h2, if_pos (by omega)]
        obtain ⟨t, ht⟩ : ∃ t, j - n = t + 1 := ⟨j - n - 1, by omega⟩
        rw [ht, show j - (n + 1) = t by omega]; simp
      · rw [if_neg h2, if_neg h1, if_neg (by omega)]

/-- A sequence of codes decodes to their symbols. -/
theorem unpackRun_codes {l : List (Byte × Bits)} {u : Unpack γ} (hu : u.raised = none) (hc : u.cur = init)
    (hn : u.n + l.length ≤ d) (h : ∀ e ∈ l, Spells act init e.2 e.1) (k : Nat) (hk : u.start = k) :
    unpackRun d act init k (l.flatMap Prod.snd) u =
      ⟨u.n + l.length, k + (l.flatMap Prod.snd).length, init, putSymbols u.dbuf u.n (l.map Prod.fst), none⟩ := by
  induction l generalizing k u with
  | nil => rcases u with ⟨n, st, cur, m, r⟩; simp only at hu hc hk; subst hu hc hk; rfl
  | cons e l ih =>
    rw [List.length_cons] at hn
    rw [List.flatMap_cons, unpackRun_append,
      unpackRun_spells hu (by omega) (by rw [hc]; exact h e (by simp)) k,
      ih (u := ⟨u.n + 1, k + e.2.length, init, u.dbuf.write u.n e.1, none⟩) rfl rfl
        (by dsimp only; omega) (fun e' he' => h e' (by simp [he'])) (k + e.2.length) rfl]
    simp only [List.length_cons, List.map_cons, putSymbols, List.length_append, Unpack.mk.injEq, and_true]
    omega

/-- Codes that fill DBUF, then one complete code more: OVERFLOW at its first bit, whatever follows (R225 (2)). -/
theorem unpackRun_codes_overflow {l : List (Byte × Bits)} {e : Byte × Bits} {rest : Bits} {old : Buffer}
    (hn : l.length = d) (h : ∀ f ∈ l ++ [e], Spells act init f.2 f.1) :
    ∃ cur', unpackRun d act init 0 (l.flatMap Prod.snd ++ e.2 ++ rest) ⟨0, 0, init, old, none⟩ =
      ⟨d, (l.flatMap Prod.snd).length, cur', putSymbols old 0 (l.map Prod.fst),
        some ⟨.overflow, BitVec.ofNat 32 (l.flatMap Prod.snd).length⟩⟩ := by
  rw [unpackRun_append, unpackRun_append,
    unpackRun_codes (u := ⟨0, 0, init, old, none⟩) rfl rfl (by dsimp only; omega) (fun f hf => h f (by simp [hf])) 0 rfl]
  obtain ⟨cur', hc⟩ := unpackRun_overflow (d := d) (init := init)
    (u := ⟨0 + l.length, 0 + (l.flatMap Prod.snd).length, init, putSymbols old 0 (l.map Prod.fst), none⟩) rfl
    (by dsimp only; omega) (h e (by simp)) (0 + (l.flatMap Prod.snd).length)
  rw [hc, unpackRun_raised rfl]
  exact ⟨cur', by simp [hn]⟩

/-! ### The tree's codes -/

variable {s : State}

theorem treeAct_full (hl : 2 ≤ s.nleaf.toNat) (cur : NodeIdx) (b : Bool) :
    treeAct s cur b =
      if (nodeAt s.node (childOf s.node cur b)).leaf then .emit (nodeAt s.node (childOf s.node cur b)).sym
      else .go (childOf s.node cur b) := by
  have h0 : s.nleaf ≠ 0#9 := by intro e; rw [e] at hl; simp at hl
  have h1 : s.nleaf ≠ 1#9 := by intro e; rw [e] at hl; simp at hl
  unfold treeAct
  rw [if_neg h0, if_neg h1]
  rfl

/-- On a full tree a path to an internal node is wandered (R221). -/
theorem TreeShape.wanders (h : TreeShape s) (hl : 2 ≤ s.nleaf.toNat) {n m : NodeIdx} {q : Bits}
    (hn : n.toNat < s.nodeCnt.toNat) (hd : descend s.node n q = some m) (hm : (nodeAt s.node m).leaf = false) :
    Wanders (treeAct s) n q m := by
  induction q generalizing n with
  | nil => simpa [descend, Wanders] using hd
  | cons b q ih =>
    simp only [descend] at hd
    split at hd
    · simp at hd
    · rename_i hnl
      have hc := h.child_lt hn (by simpa using hnl) b
      have hcl : (nodeAt s.node (childOf s.node n b)).leaf = false := by
        cases q with
        | nil => simp only [descend, Option.some.injEq] at hd; rw [hd]; exact hm
        | cons b' q =>
          simp only [descend] at hd
          split at hd
          · simp at hd
          · rename_i h'; simpa using h'
      refine ⟨childOf s.node n b, ?_, ih (by omega) hd⟩
      rw [treeAct_full hl, hcl]; rfl

/-- On a full tree the path to a leaf is a code of its symbol (R221). -/
theorem TreeShape.spells (h : TreeShape s) (hl : 2 ≤ s.nleaf.toNat) {n : NodeIdx} {p : Bits}
    (hn : n.toNat < s.nleaf.toNat) (hd : descend s.node s.root p = some n) :
    Spells (treeAct s) s.root p (nodeAt s.node n).sym := by
  have hr := h.root_lt (by omega)
  have hlast := h.rootLast (by omega)
  have hc := h.count
  rcases List.eq_nil_or_concat p with rfl | ⟨p', b, rfl⟩
  · simp only [descend, Option.some.injEq] at hd
    rw [← hd] at hn; omega
  · rw [List.concat_eq_append] at hd ⊢
    obtain ⟨k, hk, hkl, hkc⟩ := descend_snoc.mp hd
    refine ⟨p', b, k, rfl, h.wanders hl hr hk hkl, ?_⟩
    rw [treeAct_full hl, hkc, (h.leaves n hn).1]
    rfl

/-! ### The table's codes -/

theorem tableAct_emit {acc : Bits} {b : Bool} {x : Byte} (h : codeOf s.ct x = acc ++ [b])
    (hmin : ∀ y : Byte, y.toNat < x.toNat → codeOf s.ct y ≠ acc ++ [b]) : tableAct s acc b = .emit x := by
  unfold tableAct
  rw [(leastMatch_eq_some s.ct (acc ++ [b]) x).mpr ⟨h, hmin⟩]

theorem tableAct_go {acc : Bits} {b : Bool} (h : ∀ y : Byte, codeOf s.ct y ≠ acc ++ [b]) :
    tableAct s acc b = .go (acc ++ [b]) := by
  unfold tableAct
  rw [(leastMatch_eq_none s.ct (acc ++ [b])).mpr h]

/-- Bits no prefix of which is a code are accumulated (R224). -/
theorem table_wanders {acc q : Bits} (h : ∀ r : Bits, r ≠ [] → r <+: q → ∀ y : Byte, codeOf s.ct y ≠ acc ++ r) :
    Wanders (tableAct s) acc q (acc ++ q) := by
  induction q generalizing acc with
  | nil => simp [Wanders]
  | cons b q ih =>
    refine ⟨acc ++ [b], tableAct_go (h [b] (by simp) (by simp)), ?_⟩
    have := ih (acc := acc ++ [b]) (by
      intro r hr hp y
      have := h (b :: r) (by simp) (by simpa using hp) y
      simpa using this)
    simpa using this

/-- A code none of whose proper prefixes is a code is matched, the least symbol that has it (R224). -/
theorem table_spells {x : Byte} (hne : codeOf s.ct x ≠ [])
    (hpre : ∀ r : Bits, r ≠ [] → r <+: codeOf s.ct x → r ≠ codeOf s.ct x → ∀ y : Byte, codeOf s.ct y ≠ r)
    (hmin : ∀ y : Byte, y.toNat < x.toNat → codeOf s.ct y ≠ codeOf s.ct x) :
    Spells (tableAct s) [] (codeOf s.ct x) x := by
  rcases List.eq_nil_or_concat (codeOf s.ct x) with h | ⟨c', b, h⟩
  · exact absurd h hne
  · rw [List.concat_eq_append] at h
    refine ⟨c', b, c', h, ?_, ?_⟩
    · have := table_wanders (s := s) (acc := []) (q := c') (by
        intro r hr hp y
        rw [List.nil_append]
        refine hpre r hr ?_ ?_ y
        · rw [h]; exact hp.trans (List.prefix_append _ _)
        · intro e
          have := hp.length_le
          rw [e, h] at this
          simp at this)
      simpa using this
    · refine tableAct_emit h ?_
      rw [← h]
      exact hmin

/-! ### What every run keeps -/

/-- DBUF elements at and above the count are as before, the count is within the depth, and so are all writes (R225). -/
structure Decoded (d : Nat) (old : Buffer) (u : Unpack γ) : Prop where
  n : u.n ≤ d
  rest : ∀ j, u.n ≤ j → u.dbuf.read j = old.read j
  wf : Buffer.wf d old = true → Buffer.wf d u.dbuf = true

theorem Decoded.unpackBit {old : Buffer} {u : Unpack γ} (h : Decoded d old u) (k : Nat) (b : Bool) :
    Decoded d old (Machine.unpackBit d act init k b u) := by
  unfold Machine.unpackBit
  split
  · exact h
  · split
    · exact ⟨h.n, h.rest, h.wf⟩
    · unfold emitAt
      split
      · exact ⟨h.n, h.rest, h.wf⟩
      · rename_i hn
        have := h.n
        refine ⟨by dsimp only; omega, fun j hj => ?_, fun hw => Buffer.wf_write _ (by omega) (h.wf hw)⟩
        dsimp only at hj ⊢
        rw [Buffer.read_write_other _ _ (by omega)]
        exact h.rest j (by omega)
    · exact ⟨h.n, h.rest, h.wf⟩

theorem decoded_unpackBits (obuf dbuf : Buffer) (n : Nat) : Decoded d dbuf (unpackBits d act init obuf dbuf n) := by
  induction n with
  | zero => exact ⟨Nat.zero_le _, fun _ _ => rfl, fun h => h⟩
  | succ n ih => exact ih.unpackBit n _

theorem Decoded.endOfStream {old : Buffer} {u : Unpack γ} (h : Decoded d old u) (mid : γ → Bool) :
    Decoded d old (Machine.endOfStream mid u) := by
  unfold Machine.endOfStream
  split
  · exact ⟨h.n, h.rest, h.wf⟩
  · exact h

/-! ### The end of the stream -/

theorem endOfStream_raised {δ : Type} (m : δ → Bool) {u : Unpack δ} (h : u.raised.isSome = true) :
    Machine.endOfStream m u = u := by
  unfold Machine.endOfStream
  rcases hu : u.raised with _ | r
  · rw [hu] at h; cases h
  · simp

/-- A stream that ends in mid-code fails (R220). -/
theorem endOfStream_mid {δ : Type} (m : δ → Bool) {u : Unpack δ} (h : u.raised = none) (hm : m u.cur = true) :
    Machine.endOfStream m u = failAt u := by
  unfold Machine.endOfStream; simp [h, hm]

theorem endOfStream_done {δ : Type} (m : δ → Bool) {u : Unpack δ} (hm : m u.cur = false) :
    Machine.endOfStream m u = u := by
  unfold Machine.endOfStream; simp [hm]

end Sys2Proof.Machine
end

