-- ==== Sys2Proof/Laws/Commands.lean ====
section
/-! SUPPORT. What a command does with its body's outcome (spec/40_control.md R126): the status of a command that raised
nothing, of one that raised, and of COMPRESS, whose STAGE stays where it stopped. -/

namespace Sys2Proof.Machine

/-- The one-step bodies a command is made of: COMPRESS has its five stages (R260), every other command one. -/
def phasesOf : Instr → List Body
  | .nop => [nopBody]
  | .clear => [clearBody]
  | .count => [countBody]
  | .build => [buildBody]
  | .gencodes => [gencodesBody]
  | .encode => [encodeBody]
  | .decodeT => [decodeTBody]
  | .decodeC => [decodeCBody]
  | .metrics => [metricsBody]
  | .compress => compressStages

/-- A command whose body raised nothing: completion over the body's data state. -/
theorem command_ok {w : Word} {body : Body} {s t : State} (h : body (accept w s) = (t, none)) :
    command w body s = complete none t := by
  unfold command; rw [h]

/-- A command whose body raised: completion with the error over the data state the `raise` left. -/
theorem command_raised {w : Word} {body : Body} {s t : State} {r : Raise} (h : body (accept w s) = (t, some r)) :
    command w body s = complete (some r) t := by
  unfold command; rw [h]

/-- A completion with nothing raised, over a state that still shows what acceptance wrote (R120, R122). -/
theorem completed_of {w : Word} {t : State} (he : t.err = none) (hi : t.errInfo = 0#32) (ho : t.op = opField w)
    (hs : t.stage = 0#3) : complete none t = State.completed w t := by
  unfold complete State.completed display
  simp [he, hi, ho, hs]

/-- A completion with an error, over a state that still shows what acceptance wrote (R120, R276). -/
theorem failed_of {w : Word} {r : Raise} {n : Nat} {t : State} (ho : t.op = opField w)
    (hs : t.stage = 0#3) (hn : r.info = BitVec.ofNat 32 n) : complete (some r) t = State.failed w r.kind n t := by
  unfold complete State.failed display raiseErr
  simp [ho, hs, hn]

/-- `exec` of a decoded word is that word's command (R57): one equation per command. -/
theorem exec_eq (i : Instr) (s : State) : exec i s = .next (command (encode i) (runBodies (phasesOf i)) s) := by
  have one : ∀ b : Body, runBodies [b] = b := by
    intro b
    funext t
    simp only [runBodies]
    rcases hb : b t with ⟨u, _ | r⟩ <;> rfl
  cases i <;> simp only [phasesOf, one] <;> rfl

theorem encodeBody_bad {s : State} (h : s.depths.ibuf.val < s.inLen.toNat) :
    encodeBody s = (s, some ⟨.badParam, s.inLen.setWidth 32⟩) := if_pos h

theorem encodeBody_ok {s : State} (h : s.inLen.toNat ≤ s.depths.ibuf.val)
    (hr : (packSymbols s.depths.obuf.val s.ct s.ibuf s.obuf s.inLen.toNat).raised = none) :
    encodeBody s = ({ s with
      obuf := flushed (packSymbols s.depths.obuf.val s.ct s.ibuf s.obuf s.inLen.toNat)
      bitLen := BitVec.ofNat 20 (packSymbols s.depths.obuf.val s.ct s.ibuf s.obuf s.inLen.toNat).nb }, none) := by
  unfold encodeBody
  rw [if_neg (by omega)]
  dsimp only
  rw [hr]

theorem encodeBody_raised {s : State} {r : Raise} (h : s.inLen.toNat ≤ s.depths.ibuf.val)
    (hr : (packSymbols s.depths.obuf.val s.ct s.ibuf s.obuf s.inLen.toNat).raised = some r) :
    encodeBody s = ({ s with
      obuf := (packSymbols s.depths.obuf.val s.ct s.ibuf s.obuf s.inLen.toNat).obuf, bitLen := 0#20 }, some r) := by
  unfold encodeBody
  rw [if_neg (by omega)]
  dsimp only
  rw [hr]

section
variable {γ : Type} {act : State → γ → Bool → Act γ} {init : State → γ} {mid : State → γ → Bool}

/-- The unpacker at the end of the stream, in the state `s` (R220). -/
def unpacked (act : State → γ → Bool → Act γ) (init : State → γ) (mid : State → γ → Bool) (s : State) : Unpack γ :=
  endOfStream (mid s) (unpackBits s.depths.dbuf.val (act s) (init s) s.obuf s.dbuf s.bitLen.toNat)

theorem unpackBody_bad {s : State} (h : 8 * s.depths.obuf.val < s.bitLen.toNat) :
    unpackBody act init mid s = (s, some ⟨.badParam, s.bitLen.setWidth 32⟩) := if_pos h

theorem unpackBody_ok {s : State} (h : s.bitLen.toNat ≤ 8 * s.depths.obuf.val)
    (hr : (unpacked act init mid s).raised = none) :
    unpackBody act init mid s = ({ s with
      dbuf := (unpacked act init mid s).dbuf, decLen := BitVec.ofNat 17 (unpacked act init mid s).n }, none) := by
  unfold unpackBody
  rw [if_neg (by omega)]
  unfold unpacked at hr ⊢
  dsimp only
  rw [hr]

theorem unpackBody_raised {s : State} {r : Raise} (h : s.bitLen.toNat ≤ 8 * s.depths.obuf.val)
    (hr : (unpacked act init mid s).raised = some r) :
    unpackBody act init mid s = ({ s with dbuf := (unpacked act init mid s).dbuf, decLen := 0#17 }, some r) := by
  unfold unpackBody
  rw [if_neg (by omega)]
  unfold unpacked at hr ⊢
  dsimp only
  rw [hr]

end

/-- A body does the same whatever is running. -/
theorem body_engine (i : Instr) : ∀ b ∈ phasesOf i, ∀ (s : State) (e : Option Running),
    b { s with engine := e } = ({ (b s).1 with engine := e }, (b s).2) := by
  have hc : ∀ (s : State) (e : Option Running),
      countBody { s with engine := e } = ({ (countBody s).1 with engine := e }, (countBody s).2) := by
    intro s e; unfold countBody; dsimp only; split <;> rfl
  have he : ∀ (s : State) (e : Option Running),
      encodeBody { s with engine := e } = ({ (encodeBody s).1 with engine := e }, (encodeBody s).2) := by
    intro s e
    unfold encodeBody
    dsimp only
    split
    · rfl
    · split <;> rfl
  have hu : ∀ {γ : Type} (act : State → γ → Bool → Act γ) (init : State → γ) (mid : State → γ → Bool),
      (∀ (s : State) (e : Option Running), unpacked act init mid { s with engine := e } = unpacked act init mid s) →
      ∀ (s : State) (e : Option Running), unpackBody act init mid { s with engine := e } =
        ({ (unpackBody act init mid s).1 with engine := e }, (unpackBody act init mid s).2) := by
    intro γ act init mid ha s e
    by_cases hb : s.bitLen.toNat ≤ 8 * s.depths.obuf.val
    · rcases hr : (unpacked act init mid s).raised with _ | r
      · rw [unpackBody_ok hb hr, unpackBody_ok (s := { s with engine := e }) hb (by rw [ha]; exact hr), ha]
      · rw [unpackBody_raised hb hr, unpackBody_raised (s := { s with engine := e }) hb (by rw [ha]; exact hr), ha]
    · have hb' : 8 * s.depths.obuf.val < s.bitLen.toNat := by omega
      rw [unpackBody_bad hb', unpackBody_bad (s := { s with engine := e }) hb']
  intro b hb s e
  cases i <;> simp only [phasesOf, compressStages, List.mem_cons, List.not_mem_nil, or_false] at hb
  · subst hb; rfl
  · subst hb; rfl
  · subst hb; exact hc s e
  · subst hb; rfl
  · subst hb; rfl
  · subst hb; exact he s e
  · subst hb; exact hu _ _ _ (fun _ _ => rfl) s e
  · subst hb; exact hu _ _ _ (fun _ _ => rfl) s e
  · subst hb; rfl
  · rcases hb with rfl | rfl | rfl | rfl | rfl
    · exact hc { s with stage := 0#3 } e
    · rfl
    · rfl
    · exact he { s with stage := 3#3 } e
    · rfl

end Sys2Proof.Machine
end

