-- ==== Sys2Proof/Laws/Frames.lean ====
section
/-! SUPPORT. What no body of a command writes (spec/20_memory.md R79; spec/40_control.md R120, R122), and what a sequence
of bodies therefore keeps. -/

namespace Sys2Proof.Machine

/-- No body writes OP, DONE, ERR, ERR_INFO, the depths or the host's side; STAGE is COMPRESS's alone; SERR, OVR, IE, IN_LEN
and IBUF are CLEAR's alone or nobody's. -/
theorem body_status (i : Instr) : ∀ b ∈ phasesOf i, ∀ s : State,
    (b s).1.op = s.op ∧ (b s).1.done = s.done ∧ (b s).1.err = s.err ∧ (b s).1.errInfo = s.errInfo ∧
    (b s).1.depths = s.depths ∧ (b s).1.pending = s.pending ∧ (b s).1.answers = s.answers ∧
    (b s).1.freeReads = s.freeReads ∧
    (i ≠ .compress → (b s).1.stage = s.stage) ∧
    (i ≠ .clear → (b s).1.serr = s.serr ∧ (b s).1.ovr = s.ovr ∧ (b s).1.ie = s.ie) ∧
    (i ≠ .clear → (b s).1.inLen = s.inLen ∧ (b s).1.ibuf = s.ibuf) := by
  have hc : ∀ s : State, (∃ ft, (countBody s).1 = { s with ft := ft }) := by
    intro s; unfold countBody; split
    · exact ⟨s.ft, rfl⟩
    · exact ⟨_, rfl⟩
  have he : ∀ s : State, (∃ o n, (encodeBody s).1 = { s with obuf := o, bitLen := n }) := by
    intro s; unfold encodeBody; dsimp only; split
    · exact ⟨s.obuf, s.bitLen, rfl⟩
    · split <;> exact ⟨_, _, rfl⟩
  intro b hb s
  cases i <;> simp only [phasesOf, compressStages, List.mem_cons, List.not_mem_nil, or_false] at hb
  · subst hb; simp [nopBody]
  · subst hb; simp [clearBody]
  · subst hb; obtain ⟨_, h⟩ := hc s; rw [h]; simp
  · subst hb; simp [buildBody]
  · subst hb; simp [gencodesBody]
  · subst hb; obtain ⟨_, _, h⟩ := he s; rw [h]; simp
  · subst hb; unfold decodeTBody unpackBody; dsimp only; split
    · simp
    · split <;> simp
  · subst hb; unfold decodeCBody unpackBody; dsimp only; split
    · simp
    · split <;> simp
  · subst hb; simp [metricsBody]
  · rcases hb with rfl | rfl | rfl | rfl | rfl
    · simp only [inStage]; obtain ⟨_, h⟩ := hc { s with stage := 0#3 }; rw [h]; simp
    · simp [inStage, buildBody]
    · simp [inStage, gencodesBody]
    · simp only [inStage]; obtain ⟨_, _, h⟩ := he { s with stage := 3#3 }; rw [h]; simp
    · simp [inStage, metricsBody]

/-- What each body keeps, a sequence of bodies keeps. -/
theorem runBodies_keeps {α : Type} (f : State → α) : ∀ bs : List Body, (∀ b ∈ bs, ∀ s, f (b s).1 = f s) →
    ∀ s, f (runBodies bs s).1 = f s := by
  intro bs
  induction bs with
  | nil => intro _ s; rfl
  | cons b bs ih =>
    intro h s
    have hb := h b (by simp) s
    simp only [runBodies]
    rcases hbs : b s with ⟨t, _ | r⟩
    · simp only []; rw [ih (fun b' hb' => h b' (by simp [hb'])) t]; rw [hbs] at hb; exact hb
    · rw [hbs] at hb; exact hb

/-- Completion forgets what was running. -/
theorem complete_withEngine (r : Option Raise) (s : State) (e : Option Running) :
    complete r { s with engine := e } = complete r s := by
  cases r <;> rfl

theorem runBodies_one (b : Body) : runBodies [b] = b := by
  funext t
  simp only [runBodies]
  rcases hb : b t with ⟨u, _ | r⟩ <;> rfl

theorem runBodies_engine (bs : List Body)
    (h : ∀ b ∈ bs, ∀ (s : State) (e : Option Running),
      b { s with engine := e } = ({ (b s).1 with engine := e }, (b s).2)) :
    ∀ (s : State) (e : Option Running),
      runBodies bs { s with engine := e } = ({ (runBodies bs s).1 with engine := e }, (runBodies bs s).2) := by
  induction bs with
  | nil => intro s e; rfl
  | cons b bs ih =>
    intro s e
    simp only [runBodies]
    rw [h b (by simp) s e]
    rcases hb : b s with ⟨t, _ | r⟩
    · exact ih (fun b' hb' => h b' (by simp [hb'])) t e
    · rfl

end Sys2Proof.Machine
end

