-- ==== Sys2Proof/Laws/Port.lean ====
section
/-! SUPPORT. The host port (spec/20_memory.md R60 to R70; spec/30_encoding.md R98 to R100): where the words of the tables and
buffers stand, what a word written reads back as, and what no host write changes. -/

namespace Sys2Proof.Machine

theorem ofNat8 (x : Byte) {n : Nat} (h : n = x.toNat) : BitVec.ofNat 8 n = x := by
  subst h; apply BitVec.eq_of_toNat_eq; simp

theorem ofNat9 (x : NodeIdx) {n : Nat} (h : n = x.toNat) : BitVec.ofNat 9 n = x := by
  subst h; apply BitVec.eq_of_toNat_eq; simp

/-- The low `k` bits of a word are the word under a mask of `k` ones. -/
theorem mask_eq (w : Word) (k : Nat) (hk : k ≤ 32) (m : Word) (hm : m.toNat = 2 ^ k - 1) :
    (w.extractLsb' 0 k).setWidth 32 = w &&& m := by
  apply BitVec.eq_of_toNat_eq
  rw [BitVec.toNat_and, hm, Nat.and_two_pow_sub_one_eq_mod]
  simp
  calc w.toNat % 2 ^ k < 2 ^ k := Nat.mod_lt _ (Nat.two_pow_pos k)
    _ ≤ 4294967296 := Nat.pow_le_pow_right (n := 2) (by omega) hk

theorem loc_ft (x : Byte) : locate (BitVec.ofNat 16 (256 + x.toNat)) = .ft x := by
  have := x.isLt
  have e : (BitVec.ofNat 16 (256 + x.toNat)).toNat = 256 + x.toNat := by
    rw [BitVec.toNat_ofNat]; exact Nat.mod_eq_of_lt (by omega)
  unfold locate; rw [e]; dsimp only
  rw [if_neg (by omega), if_pos (by omega), ofNat8 x (by omega)]

theorem loc_ct (x : Byte) {k : Nat} (hk : k < 16) :
    locate (BitVec.ofNat 16 (4096 + 16 * x.toNat + k)) = if k < 9 then .ct x k else .hole := by
  have := x.isLt
  have e : (BitVec.ofNat 16 (4096 + 16 * x.toNat + k)).toNat = 4096 + 16 * x.toNat + k := by
    rw [BitVec.toNat_ofNat]; exact Nat.mod_eq_of_lt (by omega)
  unfold locate; rw [e]; dsimp only
  rw [if_neg (by omega), if_neg (by omega), if_neg (by omega), if_neg (by omega), if_neg (by omega), if_pos (by omega)]
  have h1 : (4096 + 16 * x.toNat + k - 4096) % 16 = k := by omega
  rw [h1, ofNat8 x (by omega)]

theorem loc_node (n : NodeIdx) (hn : n.toNat < 511) {k : Nat} (hk : k < 4) :
    locate (BitVec.ofNat 16 (2048 + 4 * n.toNat + k)) = .node n k := by
  have e : (BitVec.ofNat 16 (2048 + 4 * n.toNat + k)).toNat = 2048 + 4 * n.toNat + k := by
    rw [BitVec.toNat_ofNat]; exact Nat.mod_eq_of_lt (by omega)
  unfold locate; rw [e]; dsimp only
  rw [if_neg (by omega), if_neg (by omega), if_neg (by omega), if_pos (by omega)]
  have h1 : (2048 + 4 * n.toNat + k - 2048) % 4 = k := by omega
  rw [h1, ofNat9 n (by omega)]

theorem loc_buf (b : Nat) {k : Nat} (hk : k < 16384) (sp : Space)
    (hb : (b = 16384 ∧ sp = .ibuf) ∨ (b = 32768 ∧ sp = .obuf)) :
    locate (BitVec.ofNat 16 (b + k)) = .buf sp k := by
  have e : (BitVec.ofNat 16 (b + k)).toNat = b + k := by rw [BitVec.toNat_ofNat]; exact Nat.mod_eq_of_lt (by omega)
  unfold locate; rw [e]; dsimp only
  iterate 7 rw [if_neg (by omega)]
  rcases hb with ⟨rfl, rfl⟩ | ⟨rfl, rfl⟩
  · rw [if_pos (by omega), show 16384 + k - 16384 = k from by omega]
  · rw [if_neg (by omega), if_pos (by omega), show 32768 + k - 32768 = k from by omega]

/-- BITS after a host write of word `k` (R99). -/
theorem writeWord_bit (c : Code) {k : Nat} (w : Word) (hk0 : k ≠ 0) (hk : k < 9) {n : Nat} (hn : n < 255) :
    (c.writeWord k w).bits.getLsbD n =
      if 32 * (k - 1) ≤ n ∧ n < 32 * (k - 1) + 32 then w.getLsbD (n - 32 * (k - 1)) else c.bits.getLsbD n := by
  unfold Code.writeWord
  rw [if_neg hk0, if_pos hk]
  dsimp only
  simp only [BitVec.getLsbD_or, BitVec.getLsbD_and, BitVec.getLsbD_not, BitVec.getLsbD_shiftLeft,
    BitVec.getLsbD_setWidth, BitVec.getLsbD_allOnes, hn, decide_true, Bool.true_and]
  by_cases h1 : 32 * (k - 1) ≤ n
  · have h3 : n - 32 * (k-1) < 255 := by omega
    by_cases h2 : n < 32 * (k - 1) + 32
    · rw [if_pos ⟨h1, h2⟩]
      have h4 : n - 32 * (k-1) < 32 := by omega
      simp [h3, h4, Nat.not_lt.mpr h1]
    · rw [if_neg (by omega)]
      have h4 : ¬ n - 32 * (k-1) < 32 := by omega
      have h5 : w.getLsbD (n - 32 * (k-1)) = false := BitVec.getLsbD_of_ge _ _ (by omega)
      simp only [h3, h4, h5, decide_true, decide_false, Bool.and_false,
        Bool.not_false, Bool.and_true, Bool.or_false]
  · rw [if_neg (by omega)]
    have : n < 32 * (k-1) := by omega
    simp [this]

theorem image_bit (c : Code) {j : Nat} (hj0 : j ≠ 0) (hj : j < 9) {i : Nat} (hi : i < 32) :
    (c.image j).getLsbD i = c.bits.getLsbD (32 * (j - 1) + i) := by
  unfold Code.image; rw [if_neg hj0, if_pos hj]; simp [hi]

/-- Word `j` of an entry after a host write of word `k` (R99). -/
theorem image_write (c : Code) (k j : Nat) (w : Word) (hk : k < 9) (hj : j < 9) : (c.writeWord k w).image j =
    if k = j then (if k = 0 then w &&& 0x000000FF#32 else if k < 8 then w else w &&& 0x7FFFFFFF#32)
      else c.image j := by
  by_cases h0 : k = 0
  · subst h0
    unfold Code.writeWord; simp only [if_true]
    by_cases hj0 : j = 0
    · subst hj0; simp only [Code.image, if_true]; exact mask_eq w 8 (by omega) _ rfl
    · rw [if_neg (Ne.symm hj0)]; simp [Code.image, hj0]
  · by_cases hj0 : j = 0
    · subst hj0; rw [if_neg h0]; unfold Code.writeWord; simp [h0, hk, Code.image]
    · apply BitVec.eq_of_getLsbD_eq
      intro i hi
      rw [image_bit _ hj0 hj hi]
      by_cases h255 : 32 * (j - 1) + i < 255
      · rw [writeWord_bit c w h0 hk h255]
        by_cases hkj : k = j
        · subst hkj
          rw [if_pos ⟨by omega, by omega⟩, if_pos rfl, if_neg h0]
          rw [show 32 * (k - 1) + i - 32 * (k - 1) = i by omega]
          by_cases h8 : k < 8
          · rw [if_pos h8]
          · rw [if_neg h8, ← mask_eq w 31 (by omega) _ rfl]
            have : i < 31 := by omega
            simp [hi, this]
        · rw [if_neg hkj, if_neg (by omega), image_bit _ hj0 hj hi]
      · have hj8 : j = 8 := by omega
        have hi31 : i = 31 := by omega
        rw [BitVec.getLsbD_of_ge _ _ (by omega)]
        by_cases hkj : k = j
        · subst hkj
          rw [if_pos rfl, if_neg h0, if_neg (by omega), ← mask_eq w 31 (by omega) _ rfl, hi31]
          simp
        · rw [if_neg hkj, image_bit _ hj0 hj hi, BitVec.getLsbD_of_ge _ _ (by omega)]

theorem toNat_append_eq {m n : Nat} (x : BitVec m) (y : BitVec n) : (x ++ y).toNat = x.toNat * 2 ^ n + y.toNat := by
  rw [BitVec.toNat_append, ← Nat.shiftLeft_add_eq_or_of_lt y.isLt, Nat.shiftLeft_eq]

theorem hostPut_read (d : Nat) (m : Buffer) (i : Nat) (v : Byte) (j : Nat) :
    (hostPut d m i v).read j = if j = i ∧ i < d then v else m.read j := by
  unfold hostPut
  by_cases h : i < d
  · rw [if_pos h, Buffer.read_write]; simp [h]
  · rw [if_neg h, if_neg (by tauto)]

/-- A buffer after a host write of word `k`, element by element (R64). -/
theorem putBufferWord_read (d : Nat) (m : Buffer) (k : Nat) (w : Word) (i : Nat) :
    (putBufferWord d m k w).read i = if i / 4 = k ∧ i < d then w.extractLsb' (8 * (i % 4)) 8 else m.read i := by
  unfold putBufferWord
  simp only [hostPut_read]
  by_cases hd : i < d
  · by_cases h : i / 4 = k
    · have hr : (if i / 4 = k ∧ i < d then w.extractLsb' (8 * (i % 4)) 8 else m.read i) =
          w.extractLsb' (8 * (i % 4)) 8 := if_pos ⟨h, hd⟩
      rw [hr]; clear hr
      have : i = 4 * k ∨ i = 4 * k + 1 ∨ i = 4 * k + 2 ∨ i = 4 * k + 3 := by omega
      rcases this with rfl | rfl | rfl | rfl
      · rw [if_neg (by omega), if_neg (by omega), if_neg (by omega), if_pos ⟨rfl, hd⟩]; congr 1; omega
      · rw [if_neg (by omega), if_neg (by omega), if_pos ⟨rfl, hd⟩]; congr 1; omega
      · rw [if_neg (by omega), if_pos ⟨rfl, hd⟩]; congr 1; omega
      · rw [if_pos ⟨rfl, hd⟩]; congr 1; omega
    · rw [if_neg (by omega), if_neg (by omega), if_neg (by omega), if_neg (by omega), if_neg (by omega)]
  · rw [if_neg (by omega), if_neg (by omega), if_neg (by omega), if_neg (by omega), if_neg (by omega)]

/-- Where all four elements exist the word reads back (R64). -/
theorem bufferWord_put (d : Nat) (m : Buffer) (k : Nat) (w : Word) (h : 4 * k + 3 < d) :
    bufferWord d (putBufferWord d m k w) k = w := by
  unfold bufferWord hostByte
  rw [if_pos (by omega), if_pos (by omega), if_pos (by omega), if_pos (by omega)]
  simp only [putBufferWord_read]
  rw [if_pos (by omega), if_pos (by omega), if_pos (by omega), if_pos (by omega)]
  rw [show 8 * ((4 * k + 3) % 4) = 24 by omega, show 8 * ((4 * k + 2) % 4) = 16 by omega,
    show 8 * ((4 * k + 1) % 4) = 8 by omega, show 8 * ((4 * k) % 4) = 0 by omega]
  apply BitVec.eq_of_getLsbD_eq; intro i hi
  simp only [BitVec.getLsbD_append, BitVec.getLsbD_extractLsb']
  interval_cases i <;> simp

theorem wf_hostPut {d : Nat} {m : Buffer} (i : Nat) (v : Byte) (h : Buffer.wf d m = true) :
    Buffer.wf d (hostPut d m i v) = true := by
  unfold hostPut; split
  · exact Buffer.wf_write _ ‹_› h
  · exact h

theorem wf_putBufferWord {d : Nat} {m : Buffer} (k : Nat) (w : Word) (h : Buffer.wf d m = true) :
    Buffer.wf d (putBufferWord d m k w) = true :=
  wf_hostPut _ _ (wf_hostPut _ _ (wf_hostPut _ _ (wf_hostPut _ _ h)))

/-- A host write that is no command changes neither the depths nor the script nor the engine (R70). -/
theorem poke_frame (s : State) (a : WordAddr) (w : Word) :
    (poke s a w).depths = s.depths ∧ (poke s a w).pending = s.pending ∧ (poke s a w).engine = s.engine := by
  unfold poke
  rcases locate a with r | _ | _ | _ | sp | _
  · cases r <;> exact ⟨rfl, rfl, rfl⟩
  · exact ⟨rfl, rfl, rfl⟩
  · exact ⟨rfl, rfl, rfl⟩
  · exact ⟨rfl, rfl, rfl⟩
  · cases sp <;> exact ⟨rfl, rfl, rfl⟩
  · exact ⟨rfl, rfl, rfl⟩

end Sys2Proof.Machine
end

