-- ==== Sys2Proof/Laws/Invariant.lean ====
section
/-! SUPPORT. What keeps the data part of the invariant: every body of every command, acceptance, completion and every host
write. -/

namespace Sys2Proof.Machine

/-- The "no tree" state of R47 has the tree's shape. -/
theorem treeShape_empty {s : State} (h1 : s.nleaf = 0#9) (h2 : s.nodeCnt = 0#9) (h3 : s.root = Config.nullIdx)
    (h4 : s.node = Vector.replicate 511 Node.empty) : TreeShape s := by
  have hn : s.nleaf.toNat = 0 := by rw [h1]; rfl
  have hc : s.nodeCnt.toNat = 0 := by rw [h2]; rfl
  refine ⟨by omega, by omega, fun _ => h3, by omega, by intros; omega, by intros; omega, by intros; omega,
    by intros; omega, by intros; omega, by intros; omega, ?_⟩
  intro n _; rw [h4]; exact nodeAt_replicate n

/-- The tree is NODE, NODE_CNT, NLEAF and ROOT, nothing else (R47). -/
theorem treeShape_congr {s t : State} (h : TreeShape s) (h1 : t.nleaf = s.nleaf) (h2 : t.nodeCnt = s.nodeCnt)
    (h3 : t.root = s.root) (h4 : t.node = s.node) : TreeShape t := by
  obtain ⟨a1, a2, a3, a4, a5, a6, a7, a8, a9, a10, a11⟩ := h
  constructor <;> (try rw [h1]) <;> (try rw [h2]) <;> (try rw [h3]) <;> (try rw [h4]) <;> assumption

/-- The part of the invariant that speaks of data state and STAGE. -/
structure DataInv (s : State) : Prop where
  mem : s.memWf = true
  tree : TreeShape s
  decLen : s.decLen.toNat ≤ s.depths.dbuf.val
  stage : s.stage.toNat ≤ 4

theorem memWf_iff (s : State) : s.memWf = true ↔ Buffer.wf s.depths.ibuf.val s.ibuf = true ∧
    Buffer.wf s.depths.obuf.val s.obuf = true ∧ Buffer.wf s.depths.dbuf.val s.dbuf = true := by
  unfold State.memWf; simp [Bool.and_eq_true, and_assoc]

theorem dataInv_congr {s t : State} (h : DataInv s) (h0 : t.depths = s.depths) (hi : t.ibuf = s.ibuf) 
    (ho : t.obuf = s.obuf) (hd : t.dbuf = s.dbuf)
    (h1 : t.nleaf = s.nleaf) (h2 : t.nodeCnt = s.nodeCnt) (h3 : t.root = s.root) (h4 : t.node = s.node)
    (h5 : t.decLen = s.decLen) (h6 : t.stage.toNat ≤ 4) : DataInv t := by
  refine ⟨?_, treeShape_congr h.tree h1 h2 h3 h4, by rw [h5, h0]; exact h.decLen, h6⟩
  rw [memWf_iff, h0, hi, ho, hd, ← memWf_iff]; exact h.mem

theorem dataInv_unpack {γ : Type} (act : State → γ → Bool → Act γ) (init : State → γ) (mid : State → γ → Bool)
    {s : State} (h : DataInv s) : DataInv (unpackBody act init mid s).1 := by
  by_cases hb : s.bitLen.toNat ≤ 8 * s.depths.obuf.val
  · have hd := (decoded_unpackBits (d := s.depths.dbuf.val) (act := act s) (init := init s) s.obuf s.dbuf
      s.bitLen.toNat).endOfStream (mid s)
    change Decoded _ _ (unpacked act init mid s) at hd
    have hm := (memWf_iff s).mp h.mem
    have hdl := s.depths.dbuf.isLt
    rcases hr : (unpacked act init mid s).raised with _ | r
    · rw [unpackBody_ok hb hr]
      refine ⟨(memWf_iff _).mpr ⟨hm.1, hm.2.1, hd.wf hm.2.2⟩, treeShape_congr h.tree rfl rfl rfl rfl, ?_, h.stage⟩
      have := hd.n
      show (BitVec.ofNat 17 _).toNat ≤ s.depths.dbuf.val
      rw [BitVec.toNat_ofNat, Nat.mod_eq_of_lt (by omega)]; exact this
    · rw [unpackBody_raised hb hr]
      exact ⟨(memWf_iff _).mpr ⟨hm.1, hm.2.1, hd.wf hm.2.2⟩, treeShape_congr h.tree rfl rfl rfl rfl, Nat.zero_le _, h.stage⟩
  · rw [unpackBody_bad (by omega)]; exact h

theorem dataInv_count {s : State} (h : DataInv s) : DataInv (countBody s).1 := by
  unfold countBody; split
  · exact h
  · exact dataInv_congr h rfl rfl rfl rfl rfl rfl rfl rfl rfl h.stage

theorem dataInv_build {s : State} (h : DataInv s) : DataInv (buildBody s).1 :=
  ⟨h.mem, treeShape_of_build (ft := s.ft) rfl rfl rfl rfl, h.decLen, h.stage⟩

theorem dataInv_encode {s : State} (h : DataInv s) : DataInv (encodeBody s).1 := by
  have hm := (memWf_iff s).mp h.mem
  have hw := wf_packSymbols (ct := s.ct) (ibuf := s.ibuf) s.inLen.toNat hm.2.1
  by_cases hb : s.inLen.toNat ≤ s.depths.ibuf.val
  · rcases hr : (packSymbols s.depths.obuf.val s.ct s.ibuf s.obuf s.inLen.toNat).raised with _ | r
    · rw [encodeBody_ok hb hr]
      exact ⟨(memWf_iff _).mpr ⟨hm.1, wf_flushed hw.1 hw.2, hm.2.2⟩, treeShape_congr h.tree rfl rfl rfl rfl, h.decLen, h.stage⟩
    · rw [encodeBody_raised hb hr]
      exact ⟨(memWf_iff _).mpr ⟨hm.1, hw.1, hm.2.2⟩, treeShape_congr h.tree rfl rfl rfl rfl, h.decLen, h.stage⟩
  · rw [encodeBody_bad (by omega)]; exact h

theorem dataInv_stage {s : State} (h : DataInv s) (k : BitVec 3) (hk : k.toNat ≤ 4) : DataInv { s with stage := k } :=
  dataInv_congr h rfl rfl rfl rfl rfl rfl rfl rfl rfl hk

/-- Every body of every command keeps it. -/
theorem dataInv_body (i : Instr) : ∀ b ∈ phasesOf i, ∀ s, DataInv s → DataInv (b s).1 := by
  intro b hb s h
  cases i <;> simp only [phasesOf, compressStages, List.mem_cons, List.not_mem_nil, or_false] at hb
  · subst hb; exact h
  · subst hb; exact ⟨h.mem, treeShape_empty rfl rfl rfl rfl, Nat.zero_le _, h.stage⟩
  · subst hb; exact dataInv_count h
  · subst hb; exact dataInv_build h
  · subst hb; exact dataInv_congr h rfl rfl rfl rfl rfl rfl rfl rfl rfl h.stage
  · subst hb; exact dataInv_encode h
  · subst hb; exact dataInv_unpack _ _ _ h
  · subst hb; exact dataInv_unpack _ _ _ h
  · subst hb; exact dataInv_congr h rfl rfl rfl rfl rfl rfl rfl rfl rfl h.stage
  · rcases hb with rfl | rfl | rfl | rfl | rfl
    · exact dataInv_count (dataInv_stage h _ (by decide))
    · exact dataInv_build (dataInv_stage h _ (by decide))
    · exact dataInv_congr (dataInv_stage h 2#3 (by decide)) rfl rfl rfl rfl rfl rfl rfl rfl rfl (by decide : (2#3).toNat ≤ 4)
    · exact dataInv_encode (dataInv_stage h _ (by decide))
    · exact dataInv_congr (dataInv_stage h 4#3 (by decide)) rfl rfl rfl rfl rfl rfl rfl rfl rfl (by decide : (4#3).toNat ≤ 4)

theorem dataInv_runBodies : ∀ bs : List Body, (∀ b ∈ bs, ∀ s, DataInv s → DataInv (b s).1) → ∀ s, DataInv s → DataInv (runBodies bs s).1 := by
  intro bs
  induction bs with
  | nil => intro _ s h; exact h
  | cons b bs ih =>
    intro h s hs
    have hb := h b (by simp) s hs
    simp only [runBodies]
    rcases hbs : b s with ⟨t, _ | r⟩
    · rw [hbs] at hb; exact ih (fun b' hb' => h b' (by simp [hb'])) t hb
    · rw [hbs] at hb; exact hb

theorem dataInv_accept {s : State} (h : DataInv s) (w : Word) : DataInv (accept w s) :=
  dataInv_congr h rfl rfl rfl rfl rfl rfl rfl rfl rfl (Nat.zero_le _)

theorem dataInv_complete {s : State} (h : DataInv s) (r : Option Raise) : DataInv (complete r s) :=
  dataInv_congr h (by simp) (by simp) (by simp) (by simp) (by simp) (by simp) (by simp) (by simp) (by simp)
    (by simpa using h.stage)

theorem dataInv_poke {s : State} (h : DataInv s) (a : WordAddr) (w : Word) : DataInv (poke s a w) := by
  have hm := (memWf_iff s).mp h.mem
  unfold poke
  rcases locate a with r | _ | _ | _ | ⟨sp, k⟩ | _
  · cases r <;> exact dataInv_congr h rfl rfl rfl rfl rfl rfl rfl rfl rfl h.stage
  · exact dataInv_congr h rfl rfl rfl rfl rfl rfl rfl rfl rfl h.stage
  · exact h
  · exact dataInv_congr h rfl rfl rfl rfl rfl rfl rfl rfl rfl h.stage
  · cases sp
    · exact ⟨(memWf_iff _).mpr ⟨wf_putBufferWord _ _ hm.1, hm.2.1, hm.2.2⟩, treeShape_congr h.tree rfl rfl rfl rfl, h.decLen, h.stage⟩
    · exact ⟨(memWf_iff _).mpr ⟨hm.1, wf_putBufferWord _ _ hm.2.1, hm.2.2⟩, treeShape_congr h.tree rfl rfl rfl rfl, h.decLen, h.stage⟩
    · exact h
  · exact h

end Sys2Proof.Machine
end

