-- ==== Sys2Proof/Laws/Loops.lean ====
section
/-! SUPPORT. The small steps of the command rules end where the one-step bodies do (spec/10_state.md R57): each command's
list of loops, run to its end, gives its body's state and error. -/

namespace Sys2Proof.Machine

/-- The loops `ls`, entered with the cursor `c` in `s`, end in `t`, with the error `r` if one was raised. -/
inductive Runs : List Loop → Cursor → State → Option Raise → State → Prop
  | done (c : Cursor) (s : State) : Runs [] c s none s
  | more {l ls c s c' s' r t} (h : l s c = .more s' c') (hr : Runs (l :: ls) c' s' r t) : Runs (l :: ls) c s r t
  | leave {l ls c s c' s' r t} (h : l s c = .leave s' c') (hr : Runs ls c' s' r t) : Runs (l :: ls) c s r t
  | raised {l ls c s t e} (h : l s c = .raised t e) : Runs (l :: ls) c s (some e) t

/-- `ls` does in small steps what `b` does in one, whatever loops follow. -/
def Refines (ls : List Loop) (b : Body) : Prop :=
  ∀ (s : State) (rest : List Loop),
    (∀ t e, b s = (t, some e) → Runs (ls ++ rest) Cursor.init s (some e) t) ∧
    (∀ t, b s = (t, none) → ∀ r u, Runs rest Cursor.init t r u → Runs (ls ++ rest) Cursor.init s r u)

theorem Refines.nil : Refines [] (runBodies []) := by
  intro s rest
  refine ⟨fun t e h => by simp [runBodies] at h, fun t h r u hr => ?_⟩
  simp only [runBodies, Prod.mk.injEq, and_true] at h
  rw [h]; exact hr

/-- Loops in sequence refine bodies in sequence (R260). -/
theorem Refines.cons {ls ls' : List Loop} {b : Body} {bs : List Body} (h : Refines ls b)
    (h' : Refines ls' (runBodies bs)) : Refines (ls ++ ls') (runBodies (b :: bs)) := by
  intro s rest
  obtain ⟨h1, h2⟩ := h s (ls' ++ rest)
  rcases hb : b s with ⟨u, _ | e⟩
  · have hrb : runBodies (b :: bs) s = runBodies bs u := by simp only [runBodies, hb]
    obtain ⟨h3, h4⟩ := h' u rest
    rw [hrb, List.append_assoc]
    exact ⟨fun t e ht => h2 u hb _ _ (h3 t e ht), fun t ht r v hr => h2 u hb _ _ (h4 t ht r v hr)⟩
  · have hrb : runBodies (b :: bs) s = (u, some e) := by simp only [runBodies, hb]
    rw [hrb, List.append_assoc]
    refine ⟨fun t e' ht => ?_, fun t ht => by simp at ht⟩
    injection ht with h3 h4
    subst h3
    injection h4 with h4
    subst h4
    exact h1 _ _ hb

theorem Refines.one {ls : List Loop} {b : Body} (h : Refines ls b) : Refines ls (runBodies [b]) := by
  rw [runBodies_one]; exact h

/-- A list of loops that always runs to its end refines a body that never raises. -/
theorem Refines.of_runs {ls : List Loop} {f : State → State}
    (h : ∀ s rest r u, Runs rest Cursor.init (f s) r u → Runs (ls ++ rest) Cursor.init s r u) :
    Refines ls fun s => (f s, none) := by
  intro s rest
  refine ⟨fun t e ht => by simp at ht, fun t ht r u hr => ?_⟩
  simp only [Prod.mk.injEq, and_true] at ht
  rw [← ht] at hr
  exact h s rest r u hr

theorem runs_statement {f : State → State} {ls : List Loop} {c : Cursor} {s : State} {r : Option Raise} {t : State}
    (h : Runs ls c (f s) r t) : Runs (statement f :: ls) c s r t := .leave rfl h

theorem runs_require {bad : State → Option Raise} {ls : List Loop} {c : Cursor} {s : State} {r : Option Raise} {t : State}
    (hb : bad s = none) (h : Runs ls c s r t) : Runs (require bad :: ls) c s r t :=
  .leave (by unfold require; rw [hb]) h

theorem runs_require_raised {bad : State → Option Raise} {ls : List Loop} {c : Cursor} {s : State} {e : Raise}
    (hb : bad s = some e) : Runs (require bad :: ls) c s (some e) s :=
  .raised (by unfold require; rw [hb])

/-- A `for` loop from `g 0`, each iteration `i` leading from `g i` to `g (i+1)`, ends in `g n`. -/
theorem runs_forLoop {n : State → Nat} {f : Nat → State → State} {ls : List Loop} {r : Option Raise} {t : State}
    (g : Nat → State) {N : Nat} (hn : ∀ i, i ≤ N → n (g i) = N) (hf : ∀ i, i < N → f i (g i) = g (i + 1)) {c : Cursor}
    (hc : c.idx = 0) (h : Runs ls { c with idx := 0 } (g N) r t) : Runs (forLoop n f :: ls) c (g 0) r t := by
  have key : ∀ k i, i + k = N → Runs (forLoop n f :: ls) { c with idx := i } (g i) r t := by
    intro k
    induction k with
    | zero =>
      intro i hi
      refine .leave ?_ h
      unfold forLoop
      rw [hn i (by omega), if_neg (by dsimp only; omega), show i = N by omega]
    | succ k ih =>
      intro i hi
      refine .more ?_ (ih (i + 1) (by omega))
      unfold forLoop
      rw [hn i (by omega), if_pos (by dsimp only; omega), hf i (by omega)]
  have h0 : c = { c with idx := 0 } := by rw [← hc]
  rw [h0]
  exact key N 0 (by omega)

/-! ### The clears -/

/-- FT with its first `n` entries cleared. -/
def ftClear (t : Vector Word 256) : Nat → Vector Word 256
  | 0 => t
  | n + 1 => ftSet (ftClear t n) (BitVec.ofNat 8 n) 0#32

/-- CT with its first `n` entries cleared. -/
def ctClear (t : Vector Code 256) : Nat → Vector Code 256
  | 0 => t
  | n + 1 => ctSet (ctClear t n) (BitVec.ofNat 8 n) Code.empty

/-- NODE with its first `n` entries cleared. -/
def nodeClear (t : Vector Node 511) : Nat → Vector Node 511
  | 0 => t
  | n + 1 => (nodeClear t n).setIfInBounds n Node.empty

theorem byte_eq_ofNat {x : Byte} {n : Nat} (hn : n < 256) : x = BitVec.ofNat 8 n ↔ x.toNat = n := by
  constructor
  · intro h; rw [h, BitVec.toNat_ofNat]; exact Nat.mod_eq_of_lt hn
  · intro h; apply BitVec.eq_of_toNat_eq; rw [h, BitVec.toNat_ofNat]; exact (Nat.mod_eq_of_lt hn).symm

theorem ftClear_all (t : Vector Word 256) : ftClear t 256 = Vector.replicate 256 0#32 := by
  have key : ∀ n, n ≤ 256 → ∀ x : Byte, ftAt (ftClear t n) x = if x.toNat < n then 0#32 else ftAt t x := by
    intro n
    induction n with
    | zero => intro _ x; rfl
    | succ n ih =>
      intro hn x
      rw [ftClear, ftAt_ftSet, ih (by omega)]
      simp only [byte_eq_ofNat (x := x) (show n < 256 by omega)]
      split_ifs <;> first | rfl | omega
  exact ft_ext fun x => by rw [key 256 (le_refl _), if_pos x.isLt, ftAt_replicate]

theorem ctClear_all (t : Vector Code 256) : ctClear t 256 = Vector.replicate 256 Code.empty := by
  have key : ∀ n, n ≤ 256 → ∀ x : Byte, ctAt (ctClear t n) x = if x.toNat < n then Code.empty else ctAt t x := by
    intro n
    induction n with
    | zero => intro _ x; rfl
    | succ n ih =>
      intro hn x
      rw [ctClear, ctAt_ctSet, ih (by omega)]
      simp only [byte_eq_ofNat (x := x) (show n < 256 by omega)]
      split_ifs <;> first | rfl | omega
  exact ct_ext fun x => by rw [key 256 (le_refl _), if_pos x.isLt, ctAt_replicate]

theorem nodeClear_all (t : Vector Node 511) : nodeClear t 511 = Vector.replicate 511 Node.empty := by
  have key : ∀ n (x : Nat) (hx : x < 511), (nodeClear t n)[x] = if x < n then Node.empty else t[x] := by
    intro n
    induction n with
    | zero => intro x hx; rfl
    | succ n ih =>
      intro x hx
      simp only [nodeClear]
      rw [Vector.getElem_setIfInBounds, ih x hx]
      split_ifs <;> first | rfl | omega
  apply Vector.ext
  intro x hx
  rw [key 511 x hx, if_pos hx, Vector.getElem_replicate]

section
variable {ls : List Loop} {s : State} {r : Option Raise} {t : State}

theorem runs_clearCounts (h : Runs ls Cursor.init { s with ft := Vector.replicate 256 0#32 } r t) :
    Runs (forLoop (fun _ => 256) clearCount :: ls) Cursor.init s r t :=
  runs_forLoop (fun i => { s with ft := ftClear s.ft i }) (fun _ _ => rfl) (fun _ _ => rfl) rfl
    (by simp only [ftClear_all]; exact h)

theorem runs_clearCodes (h : Runs ls Cursor.init { s with ct := Vector.replicate 256 Code.empty } r t) :
    Runs (forLoop (fun _ => 256) clearCode :: ls) Cursor.init s r t :=
  runs_forLoop (fun i => { s with ct := ctClear s.ct i }) (fun _ _ => rfl) (fun _ _ => rfl) rfl
    (by simp only [ctClear_all]; exact h)

theorem runs_clearNodes (h : Runs ls Cursor.init { s with node := Vector.replicate 511 Node.empty } r t) :
    Runs (forLoop (fun _ => 511) clearNode :: ls) Cursor.init s r t :=
  runs_forLoop (fun i => { s with node := nodeClear s.node i }) (fun _ _ => rfl) (fun _ _ => rfl) rfl
    (by simp only [nodeClear_all]; exact h)

end

theorem refines_nop : Refines [] nopBody := Refines.of_runs fun _ _ _ _ h => h

theorem refines_clear : Refines clearLoops clearBody := by
  refine Refines.of_runs fun s rest r u h => ?_
  unfold clearLoops
  refine runs_forLoop (fun i => { s with ft := ftClear s.ft i, ct := ctClear s.ct i }) (fun _ _ => rfl)
    (fun _ _ => rfl) rfl ?_
  simp only [ftClear_all, ctClear_all]
  refine runs_clearNodes ?_
  exact runs_statement (runs_statement (runs_statement (runs_statement (runs_statement (runs_statement h)))))

/-! ### COUNT -/

theorem refines_count : Refines countLoops countBody := by
  intro s rest
  unfold countBody countLoops
  by_cases hb : s.depths.ibuf.val < s.inLen.toNat
  · rw [if_pos hb]
    refine ⟨fun t e ht => ?_, fun t ht => by simp at ht⟩
    simp only [Prod.mk.injEq, Option.some.injEq] at ht
    obtain ⟨rfl, rfl⟩ := ht
    exact runs_require_raised (if_pos hb)
  · rw [if_neg hb]
    refine ⟨fun t e ht => by simp at ht, fun t ht r u hr => ?_⟩
    simp only [Prod.mk.injEq, and_true] at ht
    subst ht
    refine runs_require (if_neg hb) (runs_clearCounts ?_)
    exact runs_forLoop (fun i => { s with ft := countTable s.ibuf i }) (fun _ _ => rfl) (fun _ _ => rfl) rfl hr

/-! ### BUILD -/

theorem nodesOf_written {s : State} {ns : List Node} (h : ns.length ≤ 511) (hn : s.node = nodeMemory ns)
    (hc : s.nodeCnt = BitVec.ofNat 9 ns.length) : nodesOf s = ns := by
  unfold nodesOf
  have : (BitVec.ofNat 9 ns.length).toNat = ns.length := by rw [BitVec.toNat_ofNat]; exact Nat.mod_eq_of_lt (by omega)
  rw [hn, hc, this]
  unfold nodeMemory Vector.toList
  simp only [List.take_take]
  rw [Nat.min_eq_left h, List.take_append_of_le_length (le_refl _), List.take_length]

/-- Writing more nodes over the nodes created so far. -/
theorem writeNodes_written {s : State} {ns ns' : List Node} (h : ns.length ≤ ns'.length) (h' : ns'.length ≤ 511)
    (hn : s.node = nodeMemory ns) :
    writeNodes ns' s = { s with node := nodeMemory ns', nodeCnt := BitVec.ofNat 9 ns'.length } := by
  suffices hv : (Vector.ofFn fun i : Fin 511 => (ns'[i.val]?).getD s.node[i]) = nodeMemory ns' by
    unfold writeNodes; rw [hv]
  rw [hn]
  apply node_ext
  intro n
  rw [nodeAt_nodeMemory h']
  unfold nodeAt
  by_cases hi : n.toNat < 511
  · have hx : (nodeMemory ns)[n.toNat] = (ns[n.toNat]?).getD Node.empty := by
      have := nodeAt_nodeMemory (ns := ns) (by omega) n
      unfold nodeAt at this
      simpa [hi] using this
    simp only [Vector.getElem?_ofFn, hi, dif_pos, Option.getD_some]
    show (ns'[n.toNat]?).getD ((nodeMemory ns)[n.toNat]) = _
    rw [hx]
    by_cases hl : n.toNat < ns'.length
    · simp [hl]
    · rw [List.getElem?_eq_none (by omega), List.getElem?_eq_none (by omega)]; rfl
  · rw [List.getElem?_eq_none (by omega)]
    simp [hi]

/-- The leaves of the first `i` symbols (R152). -/
def leavesUpTo (ft : Vector Word 256) (i : Nat) : List Node := leavesFrom (ft.toList.take i) 0

theorem leavesUpTo_length (ft : Vector Word 256) (i : Nat) : (leavesUpTo ft i).length ≤ 256 := by
  unfold leavesUpTo
  rw [leavesFrom_length]
  refine (List.length_filter_le _ _).trans ?_
  rw [List.length_take, Vector.length_toList]
  omega

theorem leavesFrom_append (l l' : List Word) (k : Nat) :
    leavesFrom (l ++ l') k = leavesFrom l k ++ leavesFrom l' (k + l.length) := by
  induction l generalizing k with
  | nil => simp [leavesFrom]
  | cons c l ih =>
    rw [List.cons_append, leavesFrom_cons, leavesFrom_cons, ih, List.length_cons,
      show k + 1 + l.length = k + (l.length + 1) by omega]
    split <;> simp

theorem leavesUpTo_succ (ft : Vector Word 256) {i : Nat} (hi : i < 256) :
    leavesUpTo ft (i + 1) = leavesUpTo ft i ++
      if ftAt ft (BitVec.ofNat 8 i) = 0#32 then [] else [Node.newLeaf (BitVec.ofNat 8 i) (ftAt ft (BitVec.ofNat 8 i))] := by
  have hx : ftAt ft (BitVec.ofNat 8 i) = ft[i] := by simp [ftAt, Nat.mod_eq_of_lt hi]
  have hl : i < ft.toList.length := by simpa using hi
  have ht : ft.toList.take (i + 1) = ft.toList.take i ++ [ft[i]] := by
    rw [List.take_succ_eq_append_getElem hl]; simp
  unfold leavesUpTo
  rw [ht, leavesFrom_append, List.length_take, Nat.min_eq_left (by omega), leavesFrom_cons, hx, Nat.zero_add]
  simp [leavesFrom]

/-- The merge loop, from a forest (R157). -/
theorem runs_mergeLoop {leaves : List Node} {ls : List Loop} {c : Cursor} {r : Option Raise} {t : State} (fuel : Nat) :
    ∀ (ns : List Node) (s : State), Forest leaves ns → ns.length ≤ 511 → s.node = nodeMemory ns →
      s.nodeCnt = BitVec.ofNat 9 ns.length → mergeOnce (mergeAll fuel ns) = none →
      Runs ls c { s with
        node := nodeMemory (mergeAll fuel ns), nodeCnt := BitVec.ofNat 9 (mergeAll fuel ns).length } r t →
      Runs (mergeLoop :: ls) c s r t := by
  have stop : ∀ (ns : List Node) (s : State), ns.length ≤ 511 → s.node = nodeMemory ns →
      s.nodeCnt = BitVec.ofNat 9 ns.length → mergeOnce ns = none →
      Runs ls c { s with node := nodeMemory ns, nodeCnt := BitVec.ofNat 9 ns.length } r t →
      Runs (mergeLoop :: ls) c s r t := by
    intro ns s hl hn hc hm h
    rw [← hn, ← hc] at h
    refine .leave ?_ h
    unfold mergeLoop
    rw [nodesOf_written hl hn hc, hm]
  induction fuel with
  | zero => intro ns s _ hl hn hc hm h; exact stop ns s hl hn hc hm h
  | succ fuel ih =>
    intro ns s hF hl hn hc hm h
    simp only [mergeAll] at hm h
    rcases hmo : mergeOnce ns with _ | ns'
    · rw [hmo] at h
      exact stop ns s hl hn hc hmo h
    · rw [hmo] at hm h
      have hF' := hF.merge hmo
      have hlen : ns'.length = ns.length + 1 := by
        obtain ⟨a, b, -, -, -, -, -, -, -, rfl⟩ := mergeOnce_spec hmo
        simp
      have hl' : ns'.length ≤ 511 := by
        obtain ⟨a, b, ha, hb, haa, hba, hab, -⟩ := mergeOnce_spec hmo
        have hw := two_le_workingSum (fun _ => 1) ha hb haa hba hab
        rw [← working_length] at hw
        have := hF.size; have := hF.bound
        omega
      refine .more (s' := { s with node := nodeMemory ns', nodeCnt := BitVec.ofNat 9 ns'.length }) ?_
        (ih ns' _ hF' hl' rfl rfl hm h)
      unfold mergeLoop
      rw [nodesOf_written hl hn hc, hmo]
      simp only [writeNodes_written (by omega) hl' hn]

theorem mergeOnce_treeOf (ft : Vector Word 256) : mergeOnce (treeOf ft) = none := by
  rcases hmo : mergeOnce (treeOf ft) with _ | ns'
  · rfl
  · obtain ⟨a, b, ha, hb, haa, hba, hab, -⟩ := mergeOnce_spec hmo
    have hw := two_le_workingSum (fun _ => 1) ha hb haa hba hab
    rw [← working_length] at hw
    have := working_treeOf_le ft
    omega

theorem refines_build : Refines buildLoops buildBody := by
  refine Refines.of_runs fun s rest r u h => ?_
  unfold buildLoops
  refine runs_clearNodes (runs_statement ?_)
  have h0 := leavesUpTo_length s.ft
  have hinit : leavesUpTo s.ft 0 = [] := by simp [leavesUpTo, leavesFrom]
  have hend : leavesUpTo s.ft 256 = leavesOf s.ft := by
    unfold leavesUpTo; rw [List.take_of_length_le (by simp), leavesOf_eq]
  let g : Nat → State := fun i => { s with
    node := nodeMemory (leavesUpTo s.ft i), nodeCnt := BitVec.ofNat 9 (leavesUpTo s.ft i).length
    nleaf := 0#9, root := Config.nullIdx }
  have hg0 : forgetTree { s with node := Vector.replicate 511 Node.empty } = g 0 := by
    simp only [g, hinit, nodeMemory_nil]; rfl
  rw [hg0]
  refine runs_forLoop g (fun _ _ => rfl) (fun i hi => ?_) rfl ?_
  · have hno : nodesOf (g i) = leavesUpTo s.ft i := nodesOf_written (by have := h0 i; omega) rfl rfl
    unfold addLeaf
    dsimp only
    rw [hno]
    show (if ftAt s.ft (BitVec.ofNat 8 i) = 0#32 then g i
      else writeNodes (leavesUpTo s.ft i ++ [Node.newLeaf (BitVec.ofNat 8 i) (ftAt s.ft (BitVec.ofNat 8 i))]) (g i)) = _
    have hsucc := leavesUpTo_succ s.ft hi
    split
    · rename_i hz
      rw [if_pos hz, List.append_nil] at hsucc
      simp only [g, hsucc]
    · rename_i hz
      rw [if_neg hz] at hsucc
      rw [← hsucc, writeNodes_written (ns := leavesUpTo s.ft i) (by rw [hsucc]; simp) (by have := h0 (i + 1); omega) rfl]
  · refine runs_statement ?_
    have hlen := leavesOf_length_le s.ft
    refine runs_mergeLoop 256 (leavesOf s.ft) _ (forest_leaves s.ft) (by omega) (by simp only [g, hend])
      (by simp only [g, hend]) (mergeOnce_treeOf s.ft) (runs_statement ?_)
    rw [nodesOf_written (ns := treeOf s.ft) (treeOf_length_le s.ft) rfl rfl]
    simp only [g, hend]
    exact h

/-! ### GENCODES -/

theorem runs_walk {ls : List Loop} {c : Cursor} {r : Option Raise} {t : State} (fuel : Nat) :
    ∀ (n : NodeIdx) (path : Bits) (rest : List (NodeIdx × Bits)) (s : State), fuel + path.length = 256 →
      Runs (walkLoop :: ls) { c with stack := rest } { s with ct := walk s.node fuel n path s.ct } r t →
      Runs (walkLoop :: ls) { c with stack := (n, path) :: rest } s r t := by
  induction fuel with
  | zero =>
    intro n path rest s hl h
    refine .more ?_ h
    unfold walkLoop
    dsimp only
    rw [if_pos (Or.inl (by omega))]
    rfl
  | succ fuel ih =>
    intro n path rest s hl h
    simp only [walk] at h
    by_cases hn : n = Config.nullIdx
    · rw [if_pos hn] at h
      refine .more ?_ h
      unfold walkLoop
      dsimp only
      rw [if_pos (Or.inr hn)]
    · rw [if_neg hn] at h
      have hg : ¬ (256 ≤ path.length ∨ n = Config.nullIdx) := by
        rintro (h1 | h1)
        · omega
        · exact hn h1
      by_cases hleaf : (nodeAt s.node n).leaf = true
      · rw [if_pos hleaf] at h
        refine .more ?_ h
        unfold walkLoop
        dsimp only
        rw [if_neg hg, if_pos hleaf]
      · rw [if_neg hleaf] at h
        refine .more (s' := s) ?_ (ih _ _ _ _ ?_ (ih _ _ _ _ ?_ h))
        · unfold walkLoop
          dsimp only
          rw [if_neg hg, if_neg hleaf]
        · simp; omega
        · simp; omega

theorem refines_gencodes : Refines gencodesLoops gencodesBody := by
  refine Refines.of_runs fun s rest r u h => ?_
  unfold gencodesLoops
  refine runs_clearCodes ?_
  have hend : Runs (walkLoop :: rest) Cursor.init { s with ct := codeTable s.node s.root } r u := .leave rfl h
  clear h
  unfold codeTable at hend
  dsimp only at hend
  by_cases hn : s.root = Config.nullIdx
  · rw [if_pos hn] at hend
    exact .leave (by unfold beginWalk; dsimp only; rw [if_pos hn]) hend
  · rw [if_neg hn] at hend
    by_cases hleaf : (nodeAt s.node s.root).leaf = true
    · rw [if_pos hleaf] at hend
      exact .leave (by unfold beginWalk; dsimp only; rw [if_neg hn, if_pos hleaf]) hend
    · rw [if_neg hleaf] at hend
      have hw := runs_walk (c := Cursor.init) 256 s.root [] [] { s with ct := Vector.replicate 256 Code.empty }
        (by simp) hend
      exact .leave (by unfold beginWalk; dsimp only; rw [if_neg hn, if_neg hleaf]) hw

/-! ### ENCODE -/

/-- The bits of one code (R200). -/
theorem runs_emit {ls : List Loop} {r : Option Raise} {t : State} (bits : Bits) :
    ∀ (p : Pack) (s : State) (c : Cursor), p.raised = none →
      Runs (encodeLoop :: ls) { c with nb := (bits.foldl packBit p).nb, acc := (bits.foldl packBit p).acc, todo := [] }
        { s with obuf := (bits.foldl packBit p).obuf } r t →
      Runs (encodeLoop :: ls) { c with nb := p.nb, acc := p.acc, todo := bits } { s with obuf := p.obuf } r t := by
  induction bits with
  | nil => intro p s c _ h; exact h
  | cons b bits ih =>
    intro p s c hp h
    have hpe : (⟨p.nb, p.acc, p.obuf, none⟩ : Pack) = p := by rw [← hp]
    refine .more ?_ (ih (packBit p b) s c ?_ h)
    · unfold encodeLoop
      dsimp only
      rw [hpe]
    · unfold packBit; dsimp only; split <;> exact hp

/-- The loop over the symbols, from any symbol reached without an error (R200). -/
theorem runs_encodeLoop {ls : List Loop} {r : Option Raise} {t : State} (s : State) (k : Nat) :
    ∀ i, i + k = s.inLen.toNat → (packSymbols s.depths.obuf.val s.ct s.ibuf s.obuf i).raised = none →
      (match (packSymbols s.depths.obuf.val s.ct s.ibuf s.obuf s.inLen.toNat).raised with
        | some e => r = some e ∧ t = { s with
            obuf := (packSymbols s.depths.obuf.val s.ct s.ibuf s.obuf s.inLen.toNat).obuf, bitLen := 0#20 }
        | none => Runs ls { Cursor.init with
            nb := (packSymbols s.depths.obuf.val s.ct s.ibuf s.obuf s.inLen.toNat).nb
            acc := (packSymbols s.depths.obuf.val s.ct s.ibuf s.obuf s.inLen.toNat).acc }
            { s with obuf := (packSymbols s.depths.obuf.val s.ct s.ibuf s.obuf s.inLen.toNat).obuf } r t) →
      Runs (encodeLoop :: ls) { Cursor.init with
          idx := i
          nb := (packSymbols s.depths.obuf.val s.ct s.ibuf s.obuf i).nb
          acc := (packSymbols s.depths.obuf.val s.ct s.ibuf s.obuf i).acc }
        { s with obuf := (packSymbols s.depths.obuf.val s.ct s.ibuf s.obuf i).obuf } r t := by
  induction k with
  | zero =>
    intro i hi hok h
    rw [show s.inLen.toNat = i by omega, hok] at h
    refine .leave ?_ h
    unfold encodeLoop
    dsimp only [Cursor.init]
    rw [if_neg (by omega)]
  | succ k ih =>
    intro i hi hok h
    have hsucc : packSymbols s.depths.obuf.val s.ct s.ibuf s.obuf (i + 1) =
        packSymbol s.depths.obuf.val s.ct i (symbolAt s.ibuf i) (packSymbols s.depths.obuf.val s.ct s.ibuf s.obuf i) := rfl
    have ih := ih (i + 1) (by omega)
    unfold packSymbol at hsucc
    rw [if_neg (by simp [hok])] at hsucc
    generalize packSymbols s.depths.obuf.val s.ct s.ibuf s.obuf i = p at *
    rcases he : symbolError s.depths.obuf.val s.ct i (symbolAt s.ibuf i) p.nb with _ | e
    · rw [he] at hsucc
      dsimp only at hsucc
      refine .more (s' := { s with obuf := p.obuf }) (c' := { Cursor.init with
        idx := i + 1, nb := p.nb, acc := p.acc, todo := (ctAt s.ct (symbolAt s.ibuf i)).str }) ?_ ?_
      · unfold encodeLoop
        dsimp only [Cursor.init]
        rw [if_pos (by omega), he]
      · refine runs_emit _ p s { Cursor.init with idx := i + 1 } hok ?_
        rw [← hsucc]
        refine ih ?_ h
        rw [hsucc]
        have : ∀ (l : Bits) (q : Pack), q.raised = none → (l.foldl packBit q).raised = none := by
          intro l
          induction l with
          | nil => intro q h; exact h
          | cons b l ih => intro q h; exact ih _ (by unfold packBit; dsimp only; split <;> exact h)
        exact this _ _ hok
    · rw [he] at hsucc
      dsimp only at hsucc
      have hall := packSymbols_raised (depth := s.depths.obuf.val) (ct := s.ct) (ibuf := s.ibuf) (obuf := s.obuf)
        (n := i + 1) (m := s.inLen.toNat) (by omega) (by rw [hsucc]; rfl)
      rw [hall, hsucc] at h
      dsimp only at h
      obtain ⟨rfl, rfl⟩ := h
      refine .raised ?_
      unfold encodeLoop
      dsimp only [Cursor.init]
      rw [if_pos (by omega), he]

theorem refines_encode : Refines encodeLoops encodeBody := by
  intro s rest
  unfold encodeLoops
  by_cases hb : s.depths.ibuf.val < s.inLen.toNat
  · rw [encodeBody_bad hb]
    refine ⟨fun t e ht => ?_, fun t ht => by simp at ht⟩
    simp only [Prod.mk.injEq, Option.some.injEq] at ht
    obtain ⟨rfl, rfl⟩ := ht
    exact runs_require_raised (if_pos hb)
  · have start : ∀ {r t}, (match (packSymbols s.depths.obuf.val s.ct s.ibuf s.obuf s.inLen.toNat).raised with
        | some e => r = some e ∧ t = { s with
            obuf := (packSymbols s.depths.obuf.val s.ct s.ibuf s.obuf s.inLen.toNat).obuf, bitLen := 0#20 }
        | none => Runs ([flushLast, setBitLen] ++ rest) { Cursor.init with
            nb := (packSymbols s.depths.obuf.val s.ct s.ibuf s.obuf s.inLen.toNat).nb
            acc := (packSymbols s.depths.obuf.val s.ct s.ibuf s.obuf s.inLen.toNat).acc }
            { s with obuf := (packSymbols s.depths.obuf.val s.ct s.ibuf s.obuf s.inLen.toNat).obuf } r t) →
        Runs ([require inputTooLong, encodeLoop, flushLast, setBitLen] ++ rest) Cursor.init s r t := fun h =>
      runs_require (if_neg hb) (runs_encodeLoop s s.inLen.toNat 0 (Nat.zero_add _) rfl h)
    rcases hr : (packSymbols s.depths.obuf.val s.ct s.ibuf s.obuf s.inLen.toNat).raised with _ | e
    · rw [encodeBody_ok (by omega) hr]
      refine ⟨fun t e ht => by simp at ht, fun t ht r u h => start ?_⟩
      simp only [Prod.mk.injEq, and_true] at ht
      subst ht
      rw [hr]
      exact .leave rfl (.leave rfl h)
    · rw [encodeBody_raised (by omega) hr]
      refine ⟨fun t e ht => start ?_, fun t ht => by simp at ht⟩
      simp only [Prod.mk.injEq, Option.some.injEq] at ht
      obtain ⟨rfl, rfl⟩ := ht
      rw [hr]
      exact ⟨rfl, rfl⟩

/-! ### DECODE -/

theorem unpackBits_raised {γ : Type} {d : Nat} {act : γ → Bool → Act γ} {init : γ} {obuf dbuf : Buffer} {n m : Nat}
    (hnm : n ≤ m) (h : (unpackBits d act init obuf dbuf n).raised.isSome = true) :
    unpackBits d act init obuf dbuf m = unpackBits d act init obuf dbuf n := by
  induction hnm with
  | refl => rfl
  | step _ ih => simp only [unpackBits]; rw [ih, unpackBit, if_pos h]

section
variable {γ : Type} {act : State → γ → Bool → Act γ} {init : State → γ} {mid : State → γ → Bool} {get : Cursor → γ}
  {put : γ → Cursor → Cursor}

/-- The unpacker after `i` bits of the stream of `s` (R220). -/
def unpackedTo (act : State → γ → Bool → Act γ) (init : State → γ) (s : State) (i : Nat) : Unpack γ :=
  unpackBits s.depths.dbuf.val (act s) (init s) s.obuf s.dbuf i

/-- The loop over the bits, from any bit reached without an error (R220).  DECODE's mode may look at everything but DBUF. -/
theorem runs_unpackLoop {ls : List Loop} {r : Option Raise} {t : State} (s : State)
    (hact : ∀ m, act { s with dbuf := m } = act s) (hinit : ∀ m, init { s with dbuf := m } = init s)
    (hget : ∀ cur c i n st, get { put cur c with idx := i, count := n, start := st } = cur)
    (hput : ∀ cur cur' c i n st, { put cur' { put cur c with idx := i, count := n, start := st } with
      idx := i + 1 } = { put cur' c with idx := i + 1, count := n, start := st }) (k : Nat) :
    ∀ i, i + k = s.bitLen.toNat → (unpackedTo act init s i).raised = none →
      (match (unpackedTo act init s s.bitLen.toNat).raised with
        | some e => r = some e ∧ t = { s with dbuf := (unpackedTo act init s s.bitLen.toNat).dbuf, decLen := 0#17 }
        | none => Runs ls { put (unpackedTo act init s s.bitLen.toNat).cur Cursor.init with
            idx := 0
            count := (unpackedTo act init s s.bitLen.toNat).n
            start := (unpackedTo act init s s.bitLen.toNat).start }
            { s with dbuf := (unpackedTo act init s s.bitLen.toNat).dbuf } r t) →
      Runs (unpackLoop act init get put :: ls) { put (unpackedTo act init s i).cur Cursor.init with
          idx := i, count := (unpackedTo act init s i).n, start := (unpackedTo act init s i).start }
        { s with dbuf := (unpackedTo act init s i).dbuf } r t := by
  induction k with
  | zero =>
    intro i hi hok h
    rw [show s.bitLen.toNat = i by omega, hok] at h
    refine .leave ?_ h
    unfold unpackLoop
    dsimp only
    rw [if_neg (by omega)]
  | succ k ih =>
    intro i hi hok h
    have hsucc : unpackedTo act init s (i + 1) =
        unpackBit s.depths.dbuf.val (act s) (init s) i (streamBit s.obuf i) (unpackedTo act init s i) := rfl
    have ih := ih (i + 1) (by omega)
    have hall := fun h => unpackBits_raised (d := s.depths.dbuf.val) (act := act s) (init := init s) (obuf := s.obuf)
      (dbuf := s.dbuf) (n := i + 1) (m := s.bitLen.toNat) (by omega) h
    change (unpackedTo act init s (i + 1)).raised.isSome = true → unpackedTo act init s s.bitLen.toNat =
      unpackedTo act init s (i + 1) at hall
    generalize unpackedTo act init s i = u at *
    have hu : (⟨u.n, u.start, u.cur, u.dbuf, none⟩ : Unpack γ) = u := by rw [← hok]
    rcases he : (unpackedTo act init s (i + 1)).raised with _ | e
    · refine .more ?_ (ih he h)
      unfold unpackLoop
      dsimp only
      rw [if_pos (by omega), hact, hinit, hget, hu, ← hsucc, he]
      dsimp only
      congr 1
      exact congrArg (fun c : Cursor => { c with
        count := (unpackedTo act init s (i + 1)).n, start := (unpackedTo act init s (i + 1)).start }) (hput _ _ _ _ _ _)
    · have hall := hall (by rw [he]; rfl)
      rw [hall, he] at h
      dsimp only at h
      obtain ⟨rfl, rfl⟩ := h
      refine .raised ?_
      unfold unpackLoop
      dsimp only
      rw [if_pos (by omega), hact, hinit, hget, hu, ← hsucc, he]

theorem refines_unpack (hact : ∀ s m, act { s with dbuf := m } = act s) (hinit : ∀ s m, init { s with dbuf := m } = init s)
    (hmid : ∀ s m, mid { s with dbuf := m } = mid s)
    (hget : ∀ cur c i n st, get { put cur c with idx := i, count := n, start := st } = cur)
    (hput : ∀ cur cur' c i n st, { put cur' { put cur c with idx := i, count := n, start := st } with
      idx := i + 1 } = { put cur' c with idx := i + 1, count := n, start := st })
    (hzero : ∀ cur, { put cur Cursor.init with idx := 0, count := 0, start := 0 } = put cur Cursor.init) :
    Refines (unpackLoops act init mid get put) (unpackBody act init mid) := by
  intro s rest
  unfold unpackLoops
  by_cases hb : 8 * s.depths.obuf.val < s.bitLen.toNat
  · rw [unpackBody_bad hb]
    refine ⟨fun t e ht => ?_, fun t ht => by simp at ht⟩
    simp only [Prod.mk.injEq, Option.some.injEq] at ht
    obtain ⟨rfl, rfl⟩ := ht
    exact runs_require_raised (if_pos hb)
  · have start : ∀ {r t}, (match (unpackedTo act init s s.bitLen.toNat).raised with
        | some e => r = some e ∧ t = { s with dbuf := (unpackedTo act init s s.bitLen.toNat).dbuf, decLen := 0#17 }
        | none => Runs ([unpackEnd mid get, setDecLen] ++ rest)
            { put (unpackedTo act init s s.bitLen.toNat).cur Cursor.init with
              idx := 0
              count := (unpackedTo act init s s.bitLen.toNat).n
              start := (unpackedTo act init s s.bitLen.toNat).start }
            { s with dbuf := (unpackedTo act init s s.bitLen.toNat).dbuf } r t) →
        Runs ([require streamTooLong, fun s c => .leave s (put (init s) c), unpackLoop act init get put,
          unpackEnd mid get, setDecLen] ++ rest) Cursor.init s r t := by
      intro r t h
      refine runs_require (if_neg hb) (.leave rfl ?_)
      have := runs_unpackLoop (get := get) (put := put) s (hact s) (hinit s) hget hput s.bitLen.toNat 0
        (Nat.zero_add _) rfl h
      rw [← hzero]
      exact this
    have hun : unpacked act init mid s = endOfStream (mid s) (unpackedTo act init s s.bitLen.toNat) := rfl
    rcases hr : (unpackedTo act init s s.bitLen.toNat).raised with _ | e
    · have hu : (⟨(unpackedTo act init s s.bitLen.toNat).n, (unpackedTo act init s s.bitLen.toNat).start,
          (unpackedTo act init s s.bitLen.toNat).cur, (unpackedTo act init s s.bitLen.toNat).dbuf, none⟩ : Unpack γ) =
          unpackedTo act init s s.bitLen.toNat := by rw [← hr]
      rcases hm : mid s (unpackedTo act init s s.bitLen.toNat).cur with _ | _
      · have hdone := endOfStream_done (mid s) (u := unpackedTo act init s s.bitLen.toNat) hm
        rw [hdone] at hun
        rw [unpackBody_ok (by omega) (by rw [hun]; exact hr), hun]
        refine ⟨fun t e ht => by simp at ht, fun t ht r u h => start ?_⟩
        simp only [Prod.mk.injEq, and_true] at ht
        subst ht
        rw [hr]
        apply Runs.leave
        · unfold unpackEnd
          dsimp only
          rw [hmid, hget, hu, hdone, hr]
        · exact .leave rfl h
      · have hfail := endOfStream_mid (mid s) hr hm
        rw [hfail] at hun
        rw [unpackBody_raised (by omega) (by rw [hun]; rfl), hun]
        refine ⟨fun t e ht => start ?_, fun t ht => by simp at ht⟩
        simp only [Prod.mk.injEq, Option.some.injEq] at ht
        obtain ⟨rfl, rfl⟩ := ht
        rw [hr]
        refine .raised ?_
        unfold unpackEnd
        dsimp only
        rw [hmid, hget, hu, hfail]
        rfl
    · have hrs := endOfStream_raised (mid s) (u := unpackedTo act init s s.bitLen.toNat) (by rw [hr]; rfl)
      rw [hrs] at hun
      rw [unpackBody_raised (by omega) (by rw [hun]; exact hr), hun]
      refine ⟨fun t e' ht => start ?_, fun t ht => by simp at ht⟩
      simp only [Prod.mk.injEq, Option.some.injEq] at ht
      obtain ⟨rfl, rfl⟩ := ht
      rw [hr]
      exact ⟨rfl, rfl⟩

end

theorem refines_decodeT : Refines decodeTLoops decodeTBody :=
  refines_unpack (fun _ _ => rfl) (fun _ _ => rfl) (fun _ _ => rfl) (fun _ _ _ _ _ => rfl) (fun _ _ _ _ _ _ => rfl)
    (fun _ => rfl)

theorem refines_decodeC : Refines decodeCLoops decodeCBody :=
  refines_unpack (fun _ _ => rfl) (fun _ _ => rfl) (fun _ _ => rfl) (fun _ _ _ _ _ => rfl) (fun _ _ _ _ _ _ => rfl)
    (fun _ => rfl)

/-! ### METRICS, COMPRESS, every command -/

theorem refines_metrics : Refines metricsLoops metricsBody :=
  Refines.of_runs (f := fun s => (metricsBody s).1) fun _ _ _ _ h => runs_statement h

theorem refines_inStage {ls : List Loop} {b : Body} (h : Refines ls b) (k : BitVec 3) :
    Refines (statement (fun s => { s with stage := k }) :: ls) (inStage k b) := by
  intro s rest
  obtain ⟨h1, h2⟩ := h { s with stage := k } rest
  exact ⟨fun t e ht => runs_statement (h1 t e ht), fun t ht r u hr => runs_statement (h2 t ht r u hr)⟩

theorem refines_compress : Refines compressLoops (runBodies compressStages) := by
  have h := (refines_inStage refines_count 0#3).cons ((refines_inStage refines_build 1#3).cons
    ((refines_inStage refines_gencodes 2#3).cons ((refines_inStage refines_encode 3#3).cons
      ((refines_inStage refines_metrics 4#3).cons Refines.nil))))
  simpa [compressLoops, compressStages] using h

/-- Each command's small steps end where its one-step body does (R57). -/
theorem refines_loopsOf (i : Instr) : Refines (loopsOf i) (runBodies (phasesOf i)) := by
  cases i
  · exact refines_nop.one
  · exact refines_clear.one
  · exact refines_count.one
  · exact refines_build.one
  · exact refines_gencodes.one
  · exact refines_encode.one
  · exact refines_decodeT.one
  · exact refines_decodeC.one
  · exact refines_metrics.one
  · exact refines_compress

/-- The small steps of a command, run to their end. -/
theorem runs_loopsOf (i : Instr) (s : State) :
    Runs (loopsOf i) Cursor.init s (runBodies (phasesOf i) s).2 (runBodies (phasesOf i) s).1 := by
  have h := refines_loopsOf i s []
  rw [List.append_nil] at h
  rcases hb : runBodies (phasesOf i) s with ⟨t, _ | e⟩
  · exact h.2 t hb _ _ (.done _ _)
  · exact h.1 t e hb

end Sys2Proof.Machine
end

