-- ==== Sys2Proof/Laws/Step.lean ====
section
/-! SUPPORT. What one step is, by the next event of the script (spec/10_state.md R57; spec/20_memory.md R72). -/

namespace Sys2Proof.Machine

/-- A step handles the next event, that event taken off the script. -/
theorem step_event {s : State} {e : Event} {rest : List Event} (h : s.pending = e :: rest) :
    step s = handle e { s with pending := rest } := by unfold step; rw [h]

/-- With an empty script the engine goes on. -/
theorem step_empty {s : State} (h : s.pending = []) : step s = .next (advance s) := by unfold step; rw [h]

/-- An idle engine takes no action (R303). -/
theorem advance_idle {s : State} (h : s.busy = false) : advance s = s := by
  unfold advance
  rcases he : s.engine with _ | r
  · rfl
  · simp [State.busy, he] at h

theorem hostRead_idle {s : State} (h : s.busy = false) (a : WordAddr) :
    hostRead a s = { s with answers := .word (peek s a) :: s.answers } := by
  unfold hostRead; rw [h]; simp [answer]

theorem hostWrite_busy {s : State} (h : s.busy = true) (a : WordAddr) (w : Word) :
    hostWrite a w s = .next { s with ovr := true } := by
  unfold hostWrite; rw [h]; rfl

theorem hostWrite_idle {s : State} (h : s.busy = false) {a : WordAddr} (ha : a ≠ cmdAddr) (w : Word) :
    hostWrite a w s = .next (poke s a w) := by
  unfold hostWrite; rw [h, if_neg (by decide), if_neg ha]

theorem hostWrite_cmd {s : State} (h : s.busy = false) (w : Word) : hostWrite cmdAddr w s = execWord w s := by
  unfold hostWrite; rw [h, if_neg (by decide), if_pos rfl]

theorem startCommand_idle {s : State} (h : s.busy = false) (w : Word) : startCommand w s = accept w s := by
  unfold startCommand; rw [h, if_neg (by decide)]

end Sys2Proof.Machine
end

