-- ==== Sys2Proof/Laws/Engine.lean ====
section
/-! SUPPORT. What one small step of a running command can do (spec/10_state.md R57; spec/20_memory.md R72): it neither
looks at nor changes what the host's accesses leave behind, it writes no status the host can see but STAGE and what CLEAR
writes, it stays within the buffers; and a command left alone ends as the one-step model says. -/

namespace Sys2Proof.Machine

/-- The state a small step leaves. -/
def LoopOut.state : LoopOut → State
  | .more s _ => s
  | .leave s _ => s
  | .raised s _ => s

/-- The cursor a small step leaves. -/
def LoopOut.cursor : LoopOut → Cursor
  | .more _ c => c
  | .leave _ c => c
  | .raised _ _ => Cursor.init

def LoopOut.map (f : State → State) : LoopOut → LoopOut
  | .more s c => .more (f s) c
  | .leave s c => .leave (f s) c
  | .raised s e => .raised (f s) e

/-- What the running command has become after a small step. -/
def LoopOut.running (r : Running) : LoopOut → Running
  | .more _ c => { r with cursor := c }
  | .leave _ c => { r with loop := r.loop + 1, cursor := c }
  | .raised _ e => { r with cursor := Cursor.init, raised := some e }

@[simp] theorem LoopOut.state_map (f : State → State) (o : LoopOut) : (o.map f).state = f o.state := by cases o <;> rfl

@[simp] theorem LoopOut.cursor_map (f : State → State) (o : LoopOut) : (o.map f).cursor = o.cursor := by cases o <;> rfl

@[simp] theorem LoopOut.running_map (f : State → State) (r : Running) (o : LoopOut) :
    (o.map f).running r = o.running r := by cases o <;> rfl

@[simp] theorem LoopOut.running_word (r : Running) (o : LoopOut) : (o.running r).word = r.word := by cases o <;> rfl

@[simp] theorem LoopOut.running_cursor (r : Running) (o : LoopOut) : (o.running r).cursor = o.cursor := by cases o <;> rfl

theorem runLoop_eq (l : Loop) (r : Running) (s : State) :
    runLoop l r s = { (l s r.cursor).state with engine := some ((l s r.cursor).running r) } := by
  unfold runLoop
  cases l s r.cursor <;> rfl

/-- The part of the invariant that holds after every small step: canonical buffers, DEC_LEN and STAGE in range, the cursor
within the buffers. -/
structure Safe (s : State) (c : Cursor) : Prop where
  mem : s.memWf = true
  decLen : s.decLen.toNat ≤ s.depths.dbuf.val
  stage : s.stage.toNat ≤ 4
  cursor : c.fits s.depths

/-- `Safe` looks at the buffers, the depths, DEC_LEN, STAGE and the cursor's counts. -/
theorem Safe.congr {s t : State} {c d : Cursor} (h : Safe s c) (h0 : t.depths = s.depths) (hi : t.ibuf = s.ibuf)
    (ho : t.obuf = s.obuf) (hd : t.dbuf = s.dbuf) (hl : t.decLen.toNat ≤ s.depths.dbuf.val) (hs : t.stage.toNat ≤ 4)
    (hc : d.fits s.depths) : Safe t d := by
  refine ⟨?_, by rw [h0]; exact hl, hs, by rw [h0]; exact hc⟩
  rw [memWf_iff, h0, hi, ho, hd, ← memWf_iff]; exact h.mem

theorem fits_init (d : Config.Depths) : Cursor.init.fits d := ⟨Nat.zero_le _, Nat.zero_le _⟩

/-- What a statement of a command rule leaves alone. -/
structure Quiet (f : State → State) : Prop where
  engine : ∀ s e, f { s with engine := e } = { f s with engine := e }
  host : ∀ s, (f s.withoutHost).withoutHost = (f s).withoutHost
  status : ∀ s, (f s).done = s.done ∧ (f s).err = s.err ∧ (f s).op = s.op ∧ (f s).depths = s.depths ∧
    (f s).pending = s.pending
  safe : ∀ s c, Safe s c → Safe (f s) c

/-- What a small step leaves alone. -/
structure LoopLaws (l : Loop) : Prop where
  engine : ∀ s c e, l { s with engine := e } c = (l s c).map fun t => { t with engine := e }
  host : ∀ s c, (l s.withoutHost c).map State.withoutHost = (l s c).map State.withoutHost
  status : ∀ s c, (l s c).state.done = s.done ∧ (l s c).state.err = s.err ∧ (l s c).state.op = s.op ∧
    (l s c).state.depths = s.depths ∧ (l s c).state.pending = s.pending
  safe : ∀ s c, Safe s c → Safe (l s c).state (l s c).cursor

theorem laws_statement {f : State → State} (h : Quiet f) : LoopLaws (statement f) where
  engine s c e := congrArg (LoopOut.leave · c) (h.engine s e)
  host s c := congrArg (LoopOut.leave · c) (h.host s)
  status s _ := h.status s
  safe s c hs := h.safe s c hs

theorem laws_require {bad : State → Option Raise} (he : ∀ s e, bad { s with engine := e } = bad s)
    (hh : ∀ s, bad s.withoutHost = bad s) : LoopLaws (require bad) where
  engine s c e := by unfold require; rw [he]; cases bad s <;> rfl
  host s c := by unfold require; rw [hh]; cases bad s <;> rfl
  status s c := by unfold require; cases bad s <;> exact ⟨rfl, rfl, rfl, rfl, rfl⟩
  safe s c hs := by
    unfold require
    cases bad s
    · exact hs
    · exact hs.congr rfl rfl rfl rfl hs.decLen hs.stage (fits_init _)

theorem laws_forLoop {n : State → Nat} {f : Nat → State → State} (he : ∀ s e, n { s with engine := e } = n s)
    (hh : ∀ s, n s.withoutHost = n s) (h : ∀ i, Quiet (f i)) : LoopLaws (forLoop n f) where
  engine s c e := by
    unfold forLoop
    rw [he]
    split
    · rw [(h _).engine]; rfl
    · rfl
  host s c := by
    unfold forLoop
    rw [hh]
    split
    · simp only [LoopOut.map, (h _).host]
    · rfl
  status s c := by
    unfold forLoop
    split
    · exact (h _).status s
    · exact ⟨rfl, rfl, rfl, rfl, rfl⟩
  safe s c hs := by
    unfold forLoop
    split
    · exact (h _).safe s { c with idx := c.idx + 1 } ⟨hs.mem, hs.decLen, hs.stage, hs.cursor⟩
    · exact ⟨hs.mem, hs.decLen, hs.stage, hs.cursor⟩

/-- A statement that writes tables or registers other than DEC_LEN and STAGE. -/
theorem quiet_of {f : State → State} (he : ∀ s e, f { s with engine := e } = { f s with engine := e })
    (hh : ∀ s, (f s.withoutHost).withoutHost = (f s).withoutHost)
    (hs : ∀ s, (f s).done = s.done ∧ (f s).err = s.err ∧ (f s).op = s.op ∧ (f s).depths = s.depths ∧
      (f s).pending = s.pending)
    (hb : ∀ s, (f s).ibuf = s.ibuf ∧ (f s).obuf = s.obuf ∧ (f s).dbuf = s.dbuf ∧ (f s).decLen = s.decLen ∧
      (f s).stage = s.stage) : Quiet f where
  engine := he
  host := hh
  status := hs
  safe s c h := by
    obtain ⟨h1, h2, h3, h4, h5⟩ := hb s
    exact h.congr (hs s).2.2.2.1 h1 h2 h3 (by rw [h4]; exact h.decLen) (by rw [h5]; exact h.stage) h.cursor

theorem quiet_clearCount (i : Nat) : Quiet (clearCount i) :=
  quiet_of (fun _ _ => rfl) (fun _ => rfl) (fun _ => ⟨rfl, rfl, rfl, rfl, rfl⟩) (fun _ => ⟨rfl, rfl, rfl, rfl, rfl⟩)

theorem quiet_clearCode (i : Nat) : Quiet (clearCode i) :=
  quiet_of (fun _ _ => rfl) (fun _ => rfl) (fun _ => ⟨rfl, rfl, rfl, rfl, rfl⟩) (fun _ => ⟨rfl, rfl, rfl, rfl, rfl⟩)

theorem quiet_clearNode (i : Nat) : Quiet (clearNode i) :=
  quiet_of (fun _ _ => rfl) (fun _ => rfl) (fun _ => ⟨rfl, rfl, rfl, rfl, rfl⟩) (fun _ => ⟨rfl, rfl, rfl, rfl, rfl⟩)

theorem quiet_forgetTree : Quiet forgetTree :=
  quiet_of (fun _ _ => rfl) (fun _ => rfl) (fun _ => ⟨rfl, rfl, rfl, rfl, rfl⟩) (fun _ => ⟨rfl, rfl, rfl, rfl, rfl⟩)

theorem quiet_addLeaf (i : Nat) : Quiet (addLeaf i) := by
  refine quiet_of (fun s e => ?_) (fun s => ?_) (fun s => ?_) (fun s => ?_) <;> unfold addLeaf <;> dsimp only
  · split <;> rfl
  · by_cases h : ftAt s.ft (BitVec.ofNat 8 i) = 0#32
    · rw [if_pos h, if_pos (show ftAt s.withoutHost.ft (BitVec.ofNat 8 i) = 0#32 from h)]; rfl
    · rw [if_neg h, if_neg (show ¬ ftAt s.withoutHost.ft (BitVec.ofNat 8 i) = 0#32 from h)]; rfl
  · split <;> exact ⟨rfl, rfl, rfl, rfl, rfl⟩
  · split <;> exact ⟨rfl, rfl, rfl, rfl, rfl⟩

theorem laws_mergeLoop : LoopLaws mergeLoop where
  engine s c e := by
    unfold mergeLoop
    rw [show nodesOf { s with engine := e } = nodesOf s from rfl]
    cases mergeOnce (nodesOf s) <;> rfl
  host s c := by
    unfold mergeLoop
    rw [show nodesOf s.withoutHost = nodesOf s from rfl]
    cases mergeOnce (nodesOf s) <;> rfl
  status s c := by unfold mergeLoop; cases mergeOnce (nodesOf s) <;> exact ⟨rfl, rfl, rfl, rfl, rfl⟩
  safe s c h := by
    unfold mergeLoop
    cases mergeOnce (nodesOf s)
    · exact h
    · exact h.congr rfl rfl rfl rfl h.decLen h.stage h.cursor

theorem laws_beginWalk : LoopLaws beginWalk where
  engine s c e := by unfold beginWalk; dsimp only; split_ifs <;> rfl
  host s c := by
    change (beginWalk { s with ovr := false, pending := [], answers := [], freeReads := 0 } c).map _ = _
    unfold beginWalk
    dsimp only
    split_ifs <;> rfl
  status s c := by unfold beginWalk; split_ifs <;> exact ⟨rfl, rfl, rfl, rfl, rfl⟩
  safe s c h := by
    unfold beginWalk
    split_ifs <;> exact h.congr rfl rfl rfl rfl h.decLen h.stage h.cursor

theorem laws_walkLoop : LoopLaws walkLoop where
  engine s c e := by
    unfold walkLoop
    rcases c.stack with _ | ⟨⟨n, path⟩, rest⟩
    · rfl
    · dsimp only; split_ifs <;> rfl
  host s c := by
    change (walkLoop { s with ovr := false, pending := [], answers := [], freeReads := 0 } c).map _ = _
    unfold walkLoop
    rcases c.stack with _ | ⟨⟨n, path⟩, rest⟩
    · rfl
    · dsimp only; split_ifs <;> rfl
  status s c := by
    unfold walkLoop
    rcases c.stack with _ | ⟨⟨n, path⟩, rest⟩
    · exact ⟨rfl, rfl, rfl, rfl, rfl⟩
    · dsimp only; split_ifs <;> exact ⟨rfl, rfl, rfl, rfl, rfl⟩
  safe s c h := by
    unfold walkLoop
    rcases c.stack with _ | ⟨⟨n, path⟩, rest⟩
    · exact h
    · dsimp only; split_ifs <;> exact h.congr rfl rfl rfl rfl h.decLen h.stage h.cursor

theorem laws_encodeLoop : LoopLaws encodeLoop where
  engine s c e := by
    unfold encodeLoop
    rcases c.todo with _ | ⟨b, rest⟩
    · dsimp only
      split
      · cases symbolError s.depths.obuf.val s.ct c.idx (symbolAt s.ibuf c.idx) c.nb <;> rfl
      · rfl
    · rfl
  host s c := by
    change (encodeLoop { s with ovr := false, pending := [], answers := [], freeReads := 0 } c).map _ = _
    unfold encodeLoop
    rcases c.todo with _ | ⟨b, rest⟩
    · dsimp only
      split
      · cases symbolError s.depths.obuf.val s.ct c.idx (symbolAt s.ibuf c.idx) c.nb <;> rfl
      · rfl
    · rfl
  status s c := by
    unfold encodeLoop
    rcases c.todo with _ | ⟨b, rest⟩
    · dsimp only
      split
      · cases symbolError s.depths.obuf.val s.ct c.idx (symbolAt s.ibuf c.idx) c.nb <;> exact ⟨rfl, rfl, rfl, rfl, rfl⟩
      · exact ⟨rfl, rfl, rfl, rfl, rfl⟩
    · exact ⟨rfl, rfl, rfl, rfl, rfl⟩
  safe s c h := by
    have hm := (memWf_iff s).mp h.mem
    have hc := h.cursor
    unfold encodeLoop
    rcases ht : c.todo with _ | ⟨b, rest⟩
    · dsimp only
      split
      · rcases he : symbolError s.depths.obuf.val s.ct c.idx (symbolAt s.ibuf c.idx) c.nb with _ | e
        · have hf := symbolError_none he
          refine h.congr rfl rfl rfl rfl h.decLen h.stage ⟨?_, hc.2⟩
          show c.nb + (ctAt s.ct (symbolAt s.ibuf c.idx)).str.length ≤ _
          rw [Code.str_length]
          exact hf.2
        · exact h.congr rfl rfl rfl rfl h.decLen h.stage (fits_init _)
      · refine h.congr rfl rfl rfl rfl h.decLen h.stage ⟨?_, hc.2⟩
        have := hc.1
        rw [ht] at this
        exact this
    · have hl := hc.1
      rw [ht, List.length_cons] at hl
      dsimp only
      refine ⟨(memWf_iff _).mpr ⟨hm.1, wf_packBit (d := s.depths.obuf.val) (p := ⟨c.nb, c.acc, s.obuf, none⟩) b (by dsimp only; omega) hm.2.1,
        hm.2.2⟩, h.decLen, h.stage, ?_, hc.2⟩
      show (packBit ⟨c.nb, c.acc, s.obuf, none⟩ b).nb + rest.length ≤ 8 * s.depths.obuf.val
      rw [packBit_nb]
      dsimp only
      omega

theorem laws_flushLast : LoopLaws flushLast where
  engine _ _ _ := rfl
  host _ _ := rfl
  status _ _ := ⟨rfl, rfl, rfl, rfl, rfl⟩
  safe s c h := by
    have hm := (memWf_iff s).mp h.mem
    have hc := h.cursor.1
    exact ⟨(memWf_iff _).mpr ⟨hm.1, wf_flushed (depth := s.depths.obuf.val) (p := ⟨c.nb, c.acc, s.obuf, none⟩) hm.2.1 (by dsimp only; omega), hm.2.2⟩,
      h.decLen, h.stage, h.cursor⟩

theorem laws_setBitLen : LoopLaws setBitLen where
  engine _ _ _ := rfl
  host _ _ := rfl
  status _ _ := ⟨rfl, rfl, rfl, rfl, rfl⟩
  safe s c h := h.congr rfl rfl rfl rfl h.decLen h.stage ⟨by have := h.cursor.1; simp [setBitLen, LoopOut.cursor]; omega,
    h.cursor.2⟩

section
variable {γ : Type} {act : State → γ → Bool → Act γ} {init : State → γ} {mid : State → γ → Bool} {get : Cursor → γ}
  {put : γ → Cursor → Cursor}

theorem laws_unpackStart (he : ∀ s e, init { s with engine := e } = init s) (hh : ∀ s, init s.withoutHost = init s)
    (hp : ∀ cur c, (put cur c).nb = c.nb ∧ (put cur c).todo = c.todo ∧ (put cur c).count = c.count) :
    LoopLaws (fun s c => .leave s (put (init s) c)) where
  engine s c e := by rw [he]; rfl
  host s c := by rw [hh]; rfl
  status _ _ := ⟨rfl, rfl, rfl, rfl, rfl⟩
  safe s c h := by
    obtain ⟨h1, h2, h3⟩ := hp (init s) c
    refine h.congr rfl rfl rfl rfl h.decLen h.stage ?_
    show (put (init s) c).nb + (put (init s) c).todo.length ≤ _ ∧ (put (init s) c).count ≤ _
    rw [h1, h2, h3]; exact h.cursor

theorem laws_unpackLoop (hae : ∀ s e, act { s with engine := e } = act s) (hah : ∀ s, act s.withoutHost = act s)
    (he : ∀ s e, init { s with engine := e } = init s) (hh : ∀ s, init s.withoutHost = init s)
    (hp : ∀ cur c, (put cur c).nb = c.nb ∧ (put cur c).todo = c.todo) : LoopLaws (unpackLoop act init get put) where
  engine s c e := by
    unfold unpackLoop
    rw [hae, he]
    dsimp only
    split
    · cases (unpackBit s.depths.dbuf.val (act s) (init s) c.idx (streamBit s.obuf c.idx)
        ⟨c.count, c.start, get c, s.dbuf, none⟩).raised <;> rfl
    · rfl
  host s c := by
    have hah' : act { s with ovr := false, pending := [], answers := [], freeReads := 0 } = act s := hah s
    have hh' : init { s with ovr := false, pending := [], answers := [], freeReads := 0 } = init s := hh s
    change (unpackLoop act init get put { s with ovr := false, pending := [], answers := [], freeReads := 0 } c).map _ = _
    unfold unpackLoop
    rw [hah', hh']
    dsimp only
    split
    · cases (unpackBit s.depths.dbuf.val (act s) (init s) c.idx (streamBit s.obuf c.idx)
        ⟨c.count, c.start, get c, s.dbuf, none⟩).raised <;> rfl
    · rfl
  status s c := by
    unfold unpackLoop
    dsimp only
    split
    · split <;> exact ⟨rfl, rfl, rfl, rfl, rfl⟩
    · exact ⟨rfl, rfl, rfl, rfl, rfl⟩
  safe s c h := by
    have hm := (memWf_iff s).mp h.mem
    have hc := h.cursor
    have hd : Decoded s.depths.dbuf.val s.dbuf (⟨c.count, c.start, get c, s.dbuf, none⟩ : Unpack γ) :=
      ⟨hc.2, fun _ _ => rfl, fun h => h⟩
    have hd := hd.unpackBit (act := act s) (init := init s) c.idx (streamBit s.obuf c.idx)
    unfold unpackLoop
    dsimp only
    split
    · split
      · exact ⟨(memWf_iff _).mpr ⟨hm.1, hm.2.1, hd.wf hm.2.2⟩, Nat.zero_le _, h.stage, fits_init _⟩
      · refine ⟨(memWf_iff _).mpr ⟨hm.1, hm.2.1, hd.wf hm.2.2⟩, h.decLen, h.stage, ?_, hd.n⟩
        dsimp only [LoopOut.cursor, LoopOut.state]
        rw [(hp _ _).1, (hp _ _).2]
        exact hc.1
    · exact h.congr rfl rfl rfl rfl h.decLen h.stage hc

theorem laws_unpackEnd (he : ∀ s e, mid { s with engine := e } = mid s) (hh : ∀ s, mid s.withoutHost = mid s) :
    LoopLaws (unpackEnd mid get) where
  engine s c e := by
    unfold unpackEnd
    rw [he]
    dsimp only
    split <;> rfl
  host s c := by
    unfold unpackEnd
    rw [hh]
    dsimp only [State.withoutHost]
    split <;> rfl
  status s c := by unfold unpackEnd; split <;> exact ⟨rfl, rfl, rfl, rfl, rfl⟩
  safe s c h := by
    unfold unpackEnd
    split
    · exact h.congr rfl rfl rfl rfl (Nat.zero_le _) h.stage (fits_init _)
    · exact h

end

theorem laws_setDecLen : LoopLaws setDecLen where
  engine _ _ _ := rfl
  host _ _ := rfl
  status _ _ := ⟨rfl, rfl, rfl, rfl, rfl⟩
  safe s c h := by
    refine h.congr rfl rfl rfl rfl ?_ h.stage (fits_init _)
    have := s.depths.dbuf.isLt
    have := h.cursor.2
    show (BitVec.ofNat 17 c.count).toNat ≤ _
    rw [BitVec.toNat_ofNat, Nat.mod_eq_of_lt (by omega)]
    exact this

theorem laws_inputTooLong : LoopLaws (require inputTooLong) := laws_require (fun _ _ => rfl) (fun _ => rfl)

theorem laws_count : ∀ l ∈ countLoops, LoopLaws l := by
  intro l hl
  simp only [countLoops, List.mem_cons, List.not_mem_nil, or_false] at hl
  rcases hl with rfl | rfl | rfl
  · exact laws_inputTooLong
  · exact laws_forLoop (fun _ _ => rfl) (fun _ => rfl) quiet_clearCount
  · exact laws_forLoop (fun _ _ => rfl) (fun _ => rfl) fun _ => quiet_of (fun _ _ => rfl) (fun _ => rfl)
      (fun _ => ⟨rfl, rfl, rfl, rfl, rfl⟩) (fun _ => ⟨rfl, rfl, rfl, rfl, rfl⟩)

theorem laws_build : ∀ l ∈ buildLoops, LoopLaws l := by
  intro l hl
  simp only [buildLoops, List.mem_cons, List.not_mem_nil, or_false] at hl
  rcases hl with rfl | rfl | rfl | rfl | rfl | rfl
  · exact laws_forLoop (fun _ _ => rfl) (fun _ => rfl) quiet_clearNode
  · exact laws_statement quiet_forgetTree
  · exact laws_forLoop (fun _ _ => rfl) (fun _ => rfl) quiet_addLeaf
  · exact laws_statement (quiet_of (fun _ _ => rfl) (fun _ => rfl)
      (fun _ => ⟨rfl, rfl, rfl, rfl, rfl⟩) (fun _ => ⟨rfl, rfl, rfl, rfl, rfl⟩))
  · exact laws_mergeLoop
  · exact laws_statement (quiet_of (fun _ _ => rfl) (fun _ => rfl)
      (fun _ => ⟨rfl, rfl, rfl, rfl, rfl⟩) (fun _ => ⟨rfl, rfl, rfl, rfl, rfl⟩))

theorem laws_gencodes : ∀ l ∈ gencodesLoops, LoopLaws l := by
  intro l hl
  simp only [gencodesLoops, List.mem_cons, List.not_mem_nil, or_false] at hl
  rcases hl with rfl | rfl | rfl
  · exact laws_forLoop (fun _ _ => rfl) (fun _ => rfl) quiet_clearCode
  · exact laws_beginWalk
  · exact laws_walkLoop

theorem laws_encode : ∀ l ∈ encodeLoops, LoopLaws l := by
  intro l hl
  simp only [encodeLoops, List.mem_cons, List.not_mem_nil, or_false] at hl
  rcases hl with rfl | rfl | rfl | rfl
  · exact laws_inputTooLong
  · exact laws_encodeLoop
  · exact laws_flushLast
  · exact laws_setBitLen

theorem laws_metrics : ∀ l ∈ metricsLoops, LoopLaws l := by
  intro l hl
  simp only [metricsLoops, List.mem_cons, List.not_mem_nil, or_false] at hl
  subst hl
  exact laws_statement (quiet_of (fun _ _ => rfl) (fun _ => rfl)
    (fun _ => ⟨rfl, rfl, rfl, rfl, rfl⟩) (fun _ => ⟨rfl, rfl, rfl, rfl, rfl⟩))

theorem laws_clear : ∀ l ∈ clearLoops, LoopLaws l := by
  intro l hl
  simp only [clearLoops, List.mem_cons, List.not_mem_nil, or_false] at hl
  rcases hl with rfl | rfl | rfl | rfl | rfl | rfl | rfl | rfl
  · exact laws_forLoop (fun _ _ => rfl) (fun _ => rfl) fun _ => quiet_of (fun _ _ => rfl) (fun _ => rfl)
      (fun _ => ⟨rfl, rfl, rfl, rfl, rfl⟩) (fun _ => ⟨rfl, rfl, rfl, rfl, rfl⟩)
  · exact laws_forLoop (fun _ _ => rfl) (fun _ => rfl) quiet_clearNode
  · exact laws_statement quiet_forgetTree
  · exact laws_statement ⟨fun _ _ => rfl, fun _ => rfl, fun _ => ⟨rfl, rfl, rfl, rfl, rfl⟩,
      fun s c h => h.congr rfl rfl rfl rfl (Nat.zero_le _) h.stage h.cursor⟩
  all_goals exact laws_statement (quiet_of (fun _ _ => rfl) (fun _ => rfl)
      (fun _ => ⟨rfl, rfl, rfl, rfl, rfl⟩) (fun _ => ⟨rfl, rfl, rfl, rfl, rfl⟩))

theorem laws_stage (k : BitVec 3) (hk : k.toNat ≤ 4) : LoopLaws (statement fun s => { s with stage := k }) :=
  laws_statement ⟨fun _ _ => rfl, fun _ => rfl, fun _ => ⟨rfl, rfl, rfl, rfl, rfl⟩,
    fun _ _ h => h.congr rfl rfl rfl rfl h.decLen hk h.cursor⟩

theorem laws_compress : ∀ l ∈ compressLoops, LoopLaws l := by
  intro l hl
  simp only [compressLoops, List.cons_append, List.append_assoc, List.mem_cons, List.mem_append] at hl
  rcases hl with rfl | hl | rfl | hl | rfl | hl | rfl | hl | rfl | hl
  · exact laws_stage 0#3 (by decide)
  · exact laws_count l hl
  · exact laws_stage 1#3 (by decide)
  · exact laws_build l hl
  · exact laws_stage 2#3 (by decide)
  · exact laws_gencodes l hl
  · exact laws_stage 3#3 (by decide)
  · exact laws_encode l hl
  · exact laws_stage 4#3 (by decide)
  · exact laws_metrics l hl

theorem laws_decodeT : ∀ l ∈ decodeTLoops, LoopLaws l := by
  intro l hl
  simp only [decodeTLoops, unpackLoops, List.mem_cons, List.not_mem_nil, or_false] at hl
  rcases hl with rfl | rfl | rfl | rfl | rfl
  · exact laws_require (fun _ _ => rfl) (fun _ => rfl)
  · exact laws_unpackStart (init := fun s => s.root) (put := fun cur c => { c with cur := cur }) (fun _ _ => rfl)
      (fun _ => rfl) (fun _ _ => ⟨rfl, rfl, rfl⟩)
  · exact laws_unpackLoop (fun _ _ => rfl) (fun _ => rfl) (fun _ _ => rfl) (fun _ => rfl) (fun _ _ => ⟨rfl, rfl⟩)
  · exact laws_unpackEnd (fun _ _ => rfl) (fun _ => rfl)
  · exact laws_setDecLen

theorem laws_decodeC : ∀ l ∈ decodeCLoops, LoopLaws l := by
  intro l hl
  simp only [decodeCLoops, unpackLoops, List.mem_cons, List.not_mem_nil, or_false] at hl
  rcases hl with rfl | rfl | rfl | rfl | rfl
  · exact laws_require (fun _ _ => rfl) (fun _ => rfl)
  · exact laws_unpackStart (init := fun _ => []) (put := fun acc c => { c with path := acc }) (fun _ _ => rfl)
      (fun _ => rfl) (fun _ _ => ⟨rfl, rfl, rfl⟩)
  · exact laws_unpackLoop (fun _ _ => rfl) (fun _ => rfl) (fun _ _ => rfl) (fun _ => rfl) (fun _ _ => ⟨rfl, rfl⟩)
  · exact laws_unpackEnd (fun _ _ => rfl) (fun _ => rfl)
  · exact laws_setDecLen

/-- Every small step of every accepted word obeys the laws. -/
theorem laws_loopsOfWord (w : Word) : ∀ l ∈ loopsOfWord w, LoopLaws l := by
  intro l hl
  unfold loopsOfWord at hl
  split at hl
  · rename_i i _
    cases i
    · simp [loopsOf] at hl
    · exact laws_clear l hl
    · exact laws_count l hl
    · exact laws_build l hl
    · exact laws_gencodes l hl
    · exact laws_encode l hl
    · exact laws_decodeT l hl
    · exact laws_decodeC l hl
    · exact laws_metrics l hl
    · exact laws_compress l hl
  · simp only [List.mem_cons, List.not_mem_nil, or_false] at hl
    subst hl
    exact laws_require (fun _ _ => rfl) (fun _ => rfl)

/-! ### The tree while a command that does not rebuild it runs -/

/-- NODE, NODE_CNT, NLEAF and ROOT are not written (R79). -/
def KeepsTree (l : Loop) : Prop :=
  ∀ s c, (l s c).state.nleaf = s.nleaf ∧ (l s c).state.nodeCnt = s.nodeCnt ∧ (l s c).state.root = s.root ∧
    (l s c).state.node = s.node

theorem keepsTree_require (bad : State → Option Raise) : KeepsTree (require bad) := by
  intro s c
  unfold require
  cases bad s <;> exact ⟨rfl, rfl, rfl, rfl⟩

theorem keepsTree_forLoop (n : State → Nat) {f : Nat → State → State}
    (h : ∀ i s, (f i s).nleaf = s.nleaf ∧ (f i s).nodeCnt = s.nodeCnt ∧ (f i s).root = s.root ∧ (f i s).node = s.node) :
    KeepsTree (forLoop n f) := by
  intro s c
  unfold forLoop
  split
  · exact h _ s
  · exact ⟨rfl, rfl, rfl, rfl⟩

theorem keepsTree_unpack {γ : Type} (act : State → γ → Bool → Act γ) (init : State → γ) (mid : State → γ → Bool)
    (get : Cursor → γ) (put : γ → Cursor → Cursor) : ∀ l ∈ unpackLoops act init mid get put, KeepsTree l := by
  intro l hl
  simp only [unpackLoops, List.mem_cons, List.not_mem_nil, or_false] at hl
  rcases hl with rfl | rfl | rfl | rfl | rfl
  · exact keepsTree_require _
  · exact fun s c => ⟨rfl, rfl, rfl, rfl⟩
  · intro s c
    unfold unpackLoop
    dsimp only
    split
    · split <;> exact ⟨rfl, rfl, rfl, rfl⟩
    · exact ⟨rfl, rfl, rfl, rfl⟩
  · intro s c
    unfold unpackEnd
    split <;> exact ⟨rfl, rfl, rfl, rfl⟩
  · exact fun s c => ⟨rfl, rfl, rfl, rfl⟩

/-- Only CLEAR, BUILD and COMPRESS write the tree (R55, R79). -/
theorem keepsTree_loopsOf (i : Instr) (h1 : i ≠ .clear) (h2 : i ≠ .build) (h3 : i ≠ .compress) :
    ∀ l ∈ loopsOf i, KeepsTree l := by
  intro l hl
  cases i
  · simp [loopsOf] at hl
  · exact absurd rfl h1
  · simp only [loopsOf, countLoops, List.mem_cons, List.not_mem_nil, or_false] at hl
    rcases hl with rfl | rfl | rfl
    · exact keepsTree_require _
    · exact keepsTree_forLoop _ fun _ _ => ⟨rfl, rfl, rfl, rfl⟩
    · exact keepsTree_forLoop _ fun _ _ => ⟨rfl, rfl, rfl, rfl⟩
  · exact absurd rfl h2
  · simp only [loopsOf, gencodesLoops, List.mem_cons, List.not_mem_nil, or_false] at hl
    rcases hl with rfl | rfl | rfl
    · exact keepsTree_forLoop _ fun _ _ => ⟨rfl, rfl, rfl, rfl⟩
    · intro s c; unfold beginWalk; split_ifs <;> exact ⟨rfl, rfl, rfl, rfl⟩
    · intro s c
      unfold walkLoop
      rcases c.stack with _ | ⟨⟨n, path⟩, rest⟩
      · exact ⟨rfl, rfl, rfl, rfl⟩
      · dsimp only; split_ifs <;> exact ⟨rfl, rfl, rfl, rfl⟩
  · simp only [loopsOf, encodeLoops, List.mem_cons, List.not_mem_nil, or_false] at hl
    rcases hl with rfl | rfl | rfl | rfl
    · exact keepsTree_require _
    · intro s c
      unfold encodeLoop
      rcases c.todo with _ | ⟨b, rest⟩
      · dsimp only
        split
        · split <;> exact ⟨rfl, rfl, rfl, rfl⟩
        · exact ⟨rfl, rfl, rfl, rfl⟩
      · exact ⟨rfl, rfl, rfl, rfl⟩
    · exact fun s c => ⟨rfl, rfl, rfl, rfl⟩
    · exact fun s c => ⟨rfl, rfl, rfl, rfl⟩
  · exact keepsTree_unpack treeAct _ _ _ _ l (by simpa only [loopsOf, decodeTLoops] using hl)
  · exact keepsTree_unpack tableAct _ _ _ _ l (by simpa only [loopsOf, decodeCLoops] using hl)
  · simp only [loopsOf, metricsLoops, List.mem_cons, List.not_mem_nil, or_false] at hl
    subst hl
    exact fun s c => ⟨rfl, rfl, rfl, rfl⟩
  · exact absurd rfl h3

/-! ### The engine's actions -/

theorem advance_loop {s : State} {r : Running} {l : Loop} (he : s.engine = some r) (hr : r.raised = none)
    (hl : (loopsOfWord r.word)[r.loop]? = some l) : advance s = runLoop l r s := by
  unfold advance
  simp only [he, hr, hl]

/-- What one action of a running engine is: completion, or one small step (R57, R122). -/
theorem advance_cases {s : State} {r : Running} (he : s.engine = some r) :
    advance s = complete r.raised s ∨
      ∃ l ∈ loopsOfWord r.word, (loopsOfWord r.word)[r.loop]? = some l ∧ r.raised = none ∧ advance s = runLoop l r s := by
  rcases hr : r.raised with _ | e
  · rcases hl : (loopsOfWord r.word)[r.loop]? with _ | l
    · left; unfold advance; simp only [he, hr, hl]
    · exact Or.inr ⟨l, List.mem_of_getElem? hl, rfl, rfl, advance_loop he hr hl⟩
  · left; unfold advance; simp only [he, hr]

theorem runLoop_engine {l : Loop} (h : LoopLaws l) (r : Running) (u : State) (e : Option Running) :
    runLoop l r { u with engine := e } = { (l u r.cursor).state with engine := some ((l u r.cursor).running r) } := by
  rw [runLoop_eq, h.engine]
  simp

/-- A command left alone: it is BUSY, with no DONE, no ERR and its opcode on display, until it completes with the state and
the error its small steps end in (R57, R72 (a), R122). -/
theorem runs_advance {w : Word} {ls : List Loop} {c : Cursor} {u : State} {r : Option Raise} {t : State}
    (h : Runs ls c u r t) : ∀ n, (loopsOfWord w).drop n = ls →
    ∃ k, advanceMany k { u with engine := some ⟨w, n, c, none⟩ } = complete r t ∧
      ∀ j, j < k → (advanceMany j { u with engine := some ⟨w, n, c, none⟩ }).busy = true ∧
        (advanceMany j { u with engine := some ⟨w, n, c, none⟩ }).done = u.done ∧
        (advanceMany j { u with engine := some ⟨w, n, c, none⟩ }).err = u.err ∧
        (advanceMany j { u with engine := some ⟨w, n, c, none⟩ }).op = u.op := by
  have head : ∀ {n : Nat} {l : Loop} {ls : List Loop}, (loopsOfWord w).drop n = l :: ls →
      (loopsOfWord w)[n]? = some l ∧ LoopLaws l := by
    intro n l ls hd
    have : (loopsOfWord w)[n]? = some l := by rw [← List.head?_drop, hd]; rfl
    exact ⟨this, laws_loopsOfWord w l (List.mem_of_getElem? this)⟩
  have more : ∀ {u u' : State} {e : Running} {n : Nat} {c : Cursor} {r : Option Raise} {t : State},
      advance { u with engine := some ⟨w, n, c, none⟩ } = { u' with engine := some e } →
      (u'.done = u.done ∧ u'.err = u.err ∧ u'.op = u.op) →
      (∃ k, advanceMany k { u' with engine := some e } = complete r t ∧
        ∀ j, j < k → (advanceMany j { u' with engine := some e }).busy = true ∧
          (advanceMany j { u' with engine := some e }).done = u'.done ∧
          (advanceMany j { u' with engine := some e }).err = u'.err ∧
          (advanceMany j { u' with engine := some e }).op = u'.op) →
      ∃ k, advanceMany k { u with engine := some ⟨w, n, c, none⟩ } = complete r t ∧
        ∀ j, j < k → (advanceMany j { u with engine := some ⟨w, n, c, none⟩ }).busy = true ∧
          (advanceMany j { u with engine := some ⟨w, n, c, none⟩ }).done = u.done ∧
          (advanceMany j { u with engine := some ⟨w, n, c, none⟩ }).err = u.err ∧
          (advanceMany j { u with engine := some ⟨w, n, c, none⟩ }).op = u.op := by
    rintro u u' e n c r t ha ⟨h1, h2, h3⟩ ⟨k, hk1, hk2⟩
    refine ⟨k + 1, by rw [advanceMany, ha, hk1], fun j hj => ?_⟩
    cases j with
    | zero => exact ⟨rfl, rfl, rfl, rfl⟩
    | succ j =>
      have := hk2 j (by omega)
      rw [advanceMany, ha]
      exact ⟨this.1, this.2.1.trans h1, this.2.2.1.trans h2, this.2.2.2.trans h3⟩
  induction h with
  | done c s =>
    intro n hd
    refine ⟨1, ?_, fun j hj => ?_⟩
    · have hn : (loopsOfWord w)[n]? = none := by rw [← List.head?_drop, hd]; rfl
      simp only [advanceMany, advance, hn]
      exact complete_withEngine none s _
    · obtain rfl : j = 0 := by omega
      exact ⟨rfl, rfl, rfl, rfl⟩
  | @more l ls c s c' s' r t ho _ ih =>
    intro n hd
    obtain ⟨hn, hL⟩ := head hd
    have hs := hL.status s c
    have ha := (advance_loop (s := { s with engine := some ⟨w, n, c, none⟩ }) rfl rfl hn).trans
      (runLoop_engine hL ⟨w, n, c, none⟩ s _)
    dsimp only at ha
    rw [ho] at ha hs
    exact more ha ⟨hs.1, hs.2.1, hs.2.2.1⟩ (ih n hd)
  | @leave l ls c s c' s' r t ho _ ih =>
    intro n hd
    obtain ⟨hn, hL⟩ := head hd
    have hs := hL.status s c
    have ha := (advance_loop (s := { s with engine := some ⟨w, n, c, none⟩ }) rfl rfl hn).trans
      (runLoop_engine hL ⟨w, n, c, none⟩ s _)
    dsimp only at ha
    rw [ho] at ha hs
    exact more ha ⟨hs.1, hs.2.1, hs.2.2.1⟩ (ih (n + 1) (by rw [← List.drop_drop, hd]; rfl))
  | @raised l ls c s t e ho =>
    intro n hd
    obtain ⟨hn, hL⟩ := head hd
    have hs := hL.status s c
    have ha := (advance_loop (s := { s with engine := some ⟨w, n, c, none⟩ }) rfl rfl hn).trans
      (runLoop_engine hL ⟨w, n, c, none⟩ s _)
    dsimp only at ha
    rw [ho] at ha hs
    refine more ha ⟨hs.1, hs.2.1, hs.2.2.1⟩ ⟨1, ?_, fun j hj => ?_⟩
    · exact complete_withEngine (some e) t _
    · obtain rfl : j = 0 := by omega
      exact ⟨rfl, rfl, rfl, rfl⟩

/-- The same for an accepted word, legal or not, the end being the state `execWord` gives in one step (R57, R126).  That
encoding undoes decoding (R105) is a statement of its own and enters as a hypothesis. -/
theorem advance_accept (w : Word) (s : State) (hw : ∀ i, decode w = .ok i → encode i = w) :
    ∃ k, execWord w s = .next (advanceMany k (accept w s)) ∧
      ∀ j, j < k → (advanceMany j (accept w s)).busy = true ∧ (advanceMany j (accept w s)).done = false ∧
        (advanceMany j (accept w s)).err = none ∧ (advanceMany j (accept w s)).op = opField w := by
  have fin : ∀ {r t}, Runs (loopsOfWord w) Cursor.init (accept w s) r t → execWord w s = .next (complete r t) →
      ∃ k, execWord w s = .next (advanceMany k (accept w s)) ∧
        ∀ j, j < k → (advanceMany j (accept w s)).busy = true ∧ (advanceMany j (accept w s)).done = false ∧
          (advanceMany j (accept w s)).err = none ∧ (advanceMany j (accept w s)).op = opField w := by
    intro r t h he
    obtain ⟨k, hk1, hk2⟩ := runs_advance h 0 rfl
    exact ⟨k, by rw [he, ← hk1]; rfl, hk2⟩
  rcases hd : decode w with e | i
  · have hl : loopsOfWord w = [require fun _ => some ⟨.illegalCmd, w⟩] := by unfold loopsOfWord; rw [hd]
    refine fin (r := some ⟨.illegalCmd, w⟩) (t := accept w s) ?_ ?_
    · rw [hl]; exact runs_require_raised rfl
    · unfold execWord; rw [hd]; rfl
  · have hl : loopsOfWord w = loopsOf i := by unfold loopsOfWord; rw [hd]
    refine fin (by rw [hl]; exact runs_loopsOf i (accept w s)) ?_
    unfold execWord
    rw [hd]
    dsimp only
    rw [exec_eq, hw i hd]
    rfl

/-- An action of the engine does not look at what the host's accesses leave behind (R72). -/
theorem advance_withoutHost (s : State) : (advance s.withoutHost).withoutHost = (advance s).withoutHost := by
  rcases he : s.engine with _ | r
  · rw [advance_idle (s := s) (by simp [State.busy, he]),
      advance_idle (s := s.withoutHost) (by simp [State.busy, State.withoutHost, he])]
    rfl
  · have hc : ∀ x, (complete x s.withoutHost).withoutHost = (complete x s).withoutHost := by intro x; cases x <;> rfl
    rcases hr : r.raised with _ | e
    · rcases hl : (loopsOfWord r.word)[r.loop]? with _ | l
      · have h1 : advance s = complete none s := by unfold advance; simp only [he, hr, hl]
        have h2 : advance s.withoutHost = complete none s.withoutHost := by
          unfold advance; simp only [State.withoutHost, he, hr, hl]
        rw [h1, h2, hc]
      · have hL := laws_loopsOfWord r.word l (List.mem_of_getElem? hl)
        have hh := hL.host s r.cursor
        rw [advance_loop he hr hl, advance_loop (s := s.withoutHost) he hr hl, runLoop_eq, runLoop_eq]
        have h1 := congrArg LoopOut.state hh
        have h2 := congrArg (LoopOut.running r) hh
        simp only [LoopOut.state_map, LoopOut.running_map] at h1 h2
        rw [h2]
        exact congrArg (fun u : State => { u with engine := some ((l s r.cursor).running r) }) h1
    · have h1 : advance s = complete (some e) s := by unfold advance; simp only [he, hr]
      have h2 : advance s.withoutHost = complete (some e) s.withoutHost := by
        unfold advance; simp only [State.withoutHost, he, hr]
      rw [h1, h2, hc]

/-- Two states that differ only there go on alike. -/
theorem advance_congr {s t : State} (h : s.withoutHost = t.withoutHost) :
    (advance s).withoutHost = (advance t).withoutHost := by
  rw [← advance_withoutHost s, h, advance_withoutHost]

theorem advanceMany_succ (k : Nat) (s : State) : advanceMany (k + 1) s = advance (advanceMany k s) := by
  induction k generalizing s with
  | zero => rfl
  | succ k ih => rw [advanceMany, ih, ← advanceMany]

/-! ### The end of a command whose course the host's accesses did not disturb -/

/-- TreeShape looks at nothing the host's accesses leave behind. -/
theorem treeShape_of_withoutHost {s t : State} (h : s.withoutHost = t.withoutHost) (ht : TreeShape t) : TreeShape s :=
  treeShape_congr ht (congrArg State.nleaf h :) (congrArg State.nodeCnt h :) (congrArg State.root h :)
    (congrArg State.node h :)

theorem busy_of_withoutHost {s t : State} (h : s.withoutHost = t.withoutHost) : s.busy = t.busy :=
  (congrArg State.busy h :)

/-- Every body leaves a tree of R47 where there was one. -/
theorem treeShape_body (i : Instr) : ∀ b ∈ phasesOf i, ∀ s, TreeShape s → TreeShape (b s).1 := by
  have hc : ∀ s, TreeShape s → TreeShape (countBody s).1 := by
    intro s h; unfold countBody; split
    · exact h
    · exact treeShape_congr h rfl rfl rfl rfl
  have he : ∀ s, TreeShape s → TreeShape (encodeBody s).1 := by
    intro s h; unfold encodeBody; split
    · exact h
    · dsimp only; split <;> exact treeShape_congr h rfl rfl rfl rfl
  have hu : ∀ {γ : Type} (act : State → γ → Bool → Act γ) (init : State → γ) (mid : State → γ → Bool) (s : State),
      TreeShape s → TreeShape (unpackBody act init mid s).1 := by
    intro γ act init mid s h; unfold unpackBody; split
    · exact h
    · dsimp only; split <;> exact treeShape_congr h rfl rfl rfl rfl
  intro b hb s h
  cases i <;> simp only [phasesOf, compressStages, List.mem_cons, List.not_mem_nil, or_false] at hb
  · subst hb; exact h
  · subst hb; exact treeShape_empty rfl rfl rfl rfl
  · subst hb; exact hc s h
  · subst hb; exact treeShape_of_build (ft := s.ft) rfl rfl rfl rfl
  · subst hb; exact treeShape_congr h rfl rfl rfl rfl
  · subst hb; exact he s h
  · subst hb; exact hu _ _ _ _ h
  · subst hb; exact hu _ _ _ _ h
  · subst hb; exact treeShape_congr h rfl rfl rfl rfl
  · rcases hb with rfl | rfl | rfl | rfl | rfl
    · exact hc _ (treeShape_congr h rfl rfl rfl rfl)
    · exact treeShape_of_build (ft := s.ft) rfl rfl rfl rfl
    · exact treeShape_congr h rfl rfl rfl rfl
    · exact he _ (treeShape_congr h rfl rfl rfl rfl)
    · exact treeShape_congr h rfl rfl rfl rfl

theorem treeShape_runBodies : ∀ bs : List Body, (∀ b ∈ bs, ∀ s, TreeShape s → TreeShape (b s).1) →
    ∀ s, TreeShape s → TreeShape (runBodies bs s).1 := by
  intro bs
  induction bs with
  | nil => intro _ s h; exact h
  | cons b bs ih =>
    intro h s hs
    have hb := h b (by simp) s hs
    simp only [runBodies]
    rcases hbs : b s with ⟨t, _ | r⟩
    · rw [hbs] at hb; exact ih (fun b' hb' => h b' (by simp [hb'])) t hb
    · rw [hbs] at hb; exact hb

/-- So does every command. -/
theorem treeShape_execWord {w : Word} {s t : State} (h : TreeShape s) (he : execWord w s = .next t) :
    t.busy = false ∧ TreeShape t := by
  have hc : ∀ {u : State} (r : Option Raise), TreeShape u → TreeShape (complete r u) := fun r hu =>
    treeShape_congr hu (by simp) (by simp) (by simp) (by simp)
  unfold execWord at he
  split at he
  · rename_i i _
    rw [exec_eq] at he; injection he with he; subst he
    exact ⟨rfl, hc _ (treeShape_runBodies _ (treeShape_body i) _ (treeShape_congr h rfl rfl rfl rfl))⟩
  · injection he with he; subst he
    exact ⟨rfl, hc _ (treeShape_congr (t := accept w s) h rfl rfl rfl rfl)⟩

/-- The action that takes a command left alone from BUSY to idle ends in the state `execWord` gives (R57). -/
theorem advance_completes {w : Word} {s : State} (hw : ∀ i, decode w = .ok i → encode i = w) (hs : TreeShape s) {k : Nat}
    (hk : (advanceMany k (accept w s)).busy = true) (hk' : (advanceMany (k + 1) (accept w s)).busy = false) :
    execWord w s = .next (advanceMany (k + 1) (accept w s)) := by
  obtain ⟨K, h1, h2⟩ := advance_accept w s hw
  have hKf := (treeShape_execWord hs h1).1
  have idle : ∀ j, advanceMany (K + j) (accept w s) = advanceMany K (accept w s) := by
    intro j
    induction j with
    | zero => rfl
    | succ j ih => rw [← Nat.add_assoc, advanceMany_succ, ih, advance_idle hKf]
  have hlt : k < K := by
    by_contra hc
    have := idle (k - K)
    rw [show K + (k - K) = k by omega] at this
    rw [this, hKf] at hk; cases hk
  have hK : k + 1 = K := by
    by_contra hc
    have := (h2 (k + 1) (by omega)).1
    rw [hk'] at this; cases this
  rw [hK]; exact h1

end Sys2Proof.Machine
end

