-- ==== Sys2Proof/Laws/PerInstr.lean ====
section
/-! SUPPORT. What holds of every command's word: its three fields are what R90 and R95 say. -/

/-- The fields of the command word: OP is the opcode, M the mode, ZERO is zero (spec/30_encoding.md R90, R95). -/
def Sys2Proof.Laws.EncodesItsFields.Statement (i : Sys2Proof.Instr) : Prop :=
  Sys2Proof.opField (Sys2Proof.encode i) = Sys2Proof.opcodeOf i ∧
    Sys2Proof.modeField (Sys2Proof.encode i) = Sys2Proof.modeOf i ∧
    Sys2Proof.zeroField (Sys2Proof.encode i) = 0#23

theorem Sys2Proof.Laws.EncodesItsFields.nop : Sys2Proof.Laws.EncodesItsFields.Statement .nop := by
  unfold Sys2Proof.Laws.EncodesItsFields.Statement; decide

theorem Sys2Proof.Laws.EncodesItsFields.clear : Sys2Proof.Laws.EncodesItsFields.Statement .clear := by
  unfold Sys2Proof.Laws.EncodesItsFields.Statement; decide

theorem Sys2Proof.Laws.EncodesItsFields.count : Sys2Proof.Laws.EncodesItsFields.Statement .count := by
  unfold Sys2Proof.Laws.EncodesItsFields.Statement; decide

theorem Sys2Proof.Laws.EncodesItsFields.build : Sys2Proof.Laws.EncodesItsFields.Statement .build := by
  unfold Sys2Proof.Laws.EncodesItsFields.Statement; decide

theorem Sys2Proof.Laws.EncodesItsFields.gencodes : Sys2Proof.Laws.EncodesItsFields.Statement .gencodes := by
  unfold Sys2Proof.Laws.EncodesItsFields.Statement; decide

theorem Sys2Proof.Laws.EncodesItsFields.encode : Sys2Proof.Laws.EncodesItsFields.Statement .encode := by
  unfold Sys2Proof.Laws.EncodesItsFields.Statement; decide

theorem Sys2Proof.Laws.EncodesItsFields.decodeT : Sys2Proof.Laws.EncodesItsFields.Statement .decodeT := by
  unfold Sys2Proof.Laws.EncodesItsFields.Statement; decide

theorem Sys2Proof.Laws.EncodesItsFields.decodeC : Sys2Proof.Laws.EncodesItsFields.Statement .decodeC := by
  unfold Sys2Proof.Laws.EncodesItsFields.Statement; decide

theorem Sys2Proof.Laws.EncodesItsFields.metrics : Sys2Proof.Laws.EncodesItsFields.Statement .metrics := by
  unfold Sys2Proof.Laws.EncodesItsFields.Statement; decide

theorem Sys2Proof.Laws.EncodesItsFields.compress : Sys2Proof.Laws.EncodesItsFields.Statement .compress := by
  unfold Sys2Proof.Laws.EncodesItsFields.Statement; decide
end

