-- ==== Sys2Proof/Tests/Slice0.lean ====
section
/-! SUPPORT. Small tests: ill-formed script entries the check refuses, the command words written out from
spec/30_encoding.md R95, at most two vectors of spec/95_test_vectors.md per command (each test names its vector), and for
every obligation with hypotheses a witness that meets them. -/

namespace Sys2Proof.Tests

open Sys2Proof Sys2Proof.Machine

-- One test at a time: run side by side their kernel checks take more memory than a check may use.
set_option Elab.async false

/-! ### Helpers -/

/-- A freshly reset HEC with small buffers. -/
def blank : State := State.afterReset ⟨8, 4, 8⟩ [] [] [] [] [] 0

/-- A buffer holding these bytes from element 0. -/
def bytes (l : List Byte) : Buffer := l.zipIdx.foldl (fun m p => m.write p.2 p.1) []

def ftOf (l : List (Byte × Word)) : Vector Word 256 := l.foldl (fun t p => ftSet t p.1 p.2) (Vector.replicate 256 0#32)

def ctOf (l : List (Byte × Code)) : Vector Code 256 := l.foldl (fun t p => ctSet t p.1 p.2) (Vector.replicate 256 Code.empty)

/-- The state a command answers. -/
def after (i : Instr) (s : State) : State :=
  match exec i s with
  | .next t => t
  | _ => s

/-- The state a step answers. -/
def stepped (s : State) : State :=
  match step s with
  | .next t => t
  | _ => s

theorem exec_after (i : Instr) (s : State) : exec i s = .next (after i s) := by cases i <;> rfl

/-- A state whose tree is BUILD's tree of a table. -/
def built (ft : Vector Word 256) : State := (buildBody { blank with ft := ft }).1

theorem built_shape (ft : Vector Word 256) : TreeShape (built ft) := treeShape_of_build (ft := ft) rfl rfl rfl rfl

/-- "abracadabra" (R159). -/
def abraTable : Vector Word 256 := ftOf [(0x61#8, 5#32), (0x62#8, 2#32), (0x63#8, 1#32), (0x64#8, 1#32), (0x72#8, 2#32)]

/-- The codes of "abracadabra" (V-G3). -/
def abraCodes : Vector Code 256 :=
  ctOf [(0x61#8, ⟨1#8, 0#255⟩), (0x62#8, ⟨3#8, 3#255⟩), (0x63#8, ⟨3#8, 1#255⟩), (0x64#8, ⟨3#8, 5#255⟩),
    (0x72#8, ⟨3#8, 7#255⟩)]

/-- One leaf, symbol 0x41 (V-B2). -/
def oneTable : Vector Word 256 := ftOf [(0x41#8, 1000#32)]

/-- "aaaab" in IBUF. -/
def aaaab : State := { blank with ibuf := bytes [0x61#8, 0x61#8, 0x61#8, 0x61#8, 0x62#8], inLen := 5#17 }

/-! ### Well-formedness -/

theorem test_wf_unsorted_refused :
    Event.wf ⟨8, 4, 8⟩ (.reset [(3, 1#8), (2, 1#8)] [] []) = false := by decide

theorem test_wf_repeated_refused :
    Event.wf ⟨8, 4, 8⟩ (.reset [] [(2, 1#8), (2, 3#8)] []) = false := by decide

theorem test_wf_default_value_refused :
    Event.wf ⟨8, 4, 8⟩ (.reset [] [] [(2, 0#8)]) = false := by decide

theorem test_wf_above_depth_refused :
    Event.wf ⟨8, 4, 8⟩ (.reset [] [(4, 1#8)] []) = false ∧ Event.wf ⟨8, 4, 8⟩ (.reset [] [(3, 1#8)] []) = true := by
  decide

/-! ### The command words (R95), one by one, and words of each illegal kind (R94) -/

theorem test_decode_words :
    decode 0b00000000000000000000000000000000#32 = .ok .nop ∧
    decode 0b00000000000000000000000000000001#32 = .ok .clear ∧
    decode 0b00000000000000000000000000000010#32 = .ok .count ∧
    decode 0b00000000000000000000000000000011#32 = .ok .build ∧
    decode 0b00000000000000000000000000000100#32 = .ok .gencodes ∧
    decode 0b00000000000000000000000000000101#32 = .ok .encode ∧
    decode 0b00000000000000000000000000000110#32 = .ok .decodeT ∧
    decode 0b00000000000000000000000100000110#32 = .ok .decodeC ∧
    decode 0b00000000000000000000000000000111#32 = .ok .metrics ∧
    decode 0b00000000000000000000000000001000#32 = .ok .compress := by decide

/-- V-X5, V-X6, V-X7, V-X8. -/
theorem test_decode_illegal :
    decode 0x00000009#32 = .error .reservedOpcode ∧ decode 0x00000105#32 = .error .modeBit ∧
    decode 0x80000003#32 = .error .reservedBits ∧ decode 0x000000FF#32 = .error .reservedOpcode := by decide

theorem test_decodeTableWord :
    decodeTableWord 32 0x106 = some .decodeC ∧ decodeTableWord 32 0x108 = none := by decide

/-! ### One step of each command, against spec/95_test_vectors.md -/

/-- V-X2. -/
theorem test_nop_clears_err :
    let t := after .nop { blank with err := some .corruptStream, errInfo := 17#32, serr := true }
    t.statusWord = 0x00000006#32 ∧ t.errInfo = 0#32 := by decide

/-- V-X4. -/
theorem test_clear_turns_interrupt_off :
    let t := after .clear { blank with ie := true, bitLen := 5#20, obuf := bytes [0xF0#8] }
    t.statusWord = 0x00000102#32 ∧ t.ctrlWord = 0#32 ∧ t.irq = false ∧ t.bitLen = 0#20 ∧ t.obuf = [(0, 0xF0#8)] := by
  decide +kernel

/-- V-C1, V-C8. -/
theorem test_count_aaaab :
    let t := after .count { aaaab with ft := ftOf [(0x30#8, 99#32)] }
    t.statusWord = 0x00000202#32 ∧ ftAt t.ft 0x61#8 = 4#32 ∧ ftAt t.ft 0x62#8 = 1#32 ∧ ftAt t.ft 0x30#8 = 0#32 := by
  decide +kernel

/-- V-C7. -/
theorem test_count_bad_param :
    let t := after .count { State.reset with inLen := 0x10001#17, ft := ftOf [(0x61#8, 5#32)] }
    t.statusWord = 0x00000246#32 ∧ t.errInfo = 0x00010001#32 ∧ ftAt t.ft 0x61#8 = 5#32 := by decide +kernel

/-- V-B3: nodes 5 to 8, word 1 and word 3. -/
theorem test_build_abracadabra :
    let t := after .build { blank with ft := abraTable }
    t.nodeCnt = 9#9 ∧ t.nleaf = 5#9 ∧ t.root = 8#9 ∧
    [5#9, 6#9, 7#9, 8#9].map (fun n => ((nodeAt t.node n).image 1, (nodeAt t.node n).image 3)) =
      [(2#32, 0x00030002#32), (4#32, 0x00040001#32), (6#32, 0x00060005#32), (11#32, 0x00070000#32)] := by
  decide +kernel

/-- V-B8: leaf 0 and node 3 tie at weight 3. -/
theorem test_build_tie :
    let t := after .build { blank with ft := ftOf [(0x00#8, 3#32), (0x80#8, 1#32), (0xFF#8, 2#32)] }
    t.root = 4#9 ∧ (nodeAt t.node 4#9).image 3 = 0x00030000#32 ∧ (nodeAt t.node 3#9).image 3 = 0x00020001#32 := by
  decide +kernel

/-- V-G3. -/
theorem test_gencodes_abracadabra :
    let t := after .gencodes (built abraTable)
    [0x61#8, 0x62#8, 0x63#8, 0x64#8, 0x72#8, 0x7A#8].map (ctAt t.ct) =
      [⟨1#8, 0#255⟩, ⟨3#8, 3#255⟩, ⟨3#8, 1#255⟩, ⟨3#8, 5#255⟩, ⟨3#8, 7#255⟩, ⟨0#8, 0#255⟩] := by decide +kernel

/-- V-G2, V-G11. -/
theorem test_gencodes_single_leaf :
    let t := after .gencodes { built oneTable with ct := ctOf [(0x30#8, ⟨5#8, 0x1F#255⟩)] }
    ctAt t.ct 0x41#8 = ⟨1#8, 0#255⟩ ∧ ctAt t.ct 0x30#8 = ⟨0#8, 0#255⟩ := by decide +kernel

/-- V-E12. -/
theorem test_encode_missing_entry :
    let t := after .encode { blank with
      ibuf := bytes [0x63#8, 0x64#8, 0x63#8, 0x7A#8], inLen := 4#17, ct := abraCodes
      obuf := bytes [0x11#8, 0x22#8], bitLen := 7#20 }
    t.err = some .invariantViolation ∧ t.errInfo = 3#32 ∧ t.bitLen = 0#20 ∧ t.obuf = [(0, 0x96#8), (1, 0x22#8)] := by
  decide +kernel

/-- V-E7: a 9-bit stream. -/
theorem test_encode_pads :
    let t := after .encode { blank with
      ibuf := bytes [0x00#8, 0xFF#8, 0x00#8, 0x80#8, 0xFF#8, 0x00#8], inLen := 6#17
      ct := ctOf [(0x00#8, ⟨1#8, 0#255⟩), (0x80#8, ⟨2#8, 1#255⟩), (0xFF#8, ⟨2#8, 3#255⟩)]
      obuf := bytes [0x11#8, 0x22#8, 0x33#8] }
    t.bitLen = 9#20 ∧ t.obuf = [(0, 0x6B#8), (2, 0x33#8)] ∧ t.outBytes = 2 := by decide +kernel

/-- V-D4: a stream cut inside a code. -/
theorem test_decodeT_cut :
    let t := after .decodeT { built abraTable with
      depths := ⟨8, 4, 16⟩, obuf := bytes [0x6E#8, 0x8A#8, 0xDC#8], bitLen := 21#20 }
    t.statusWord = 0x00000626#32 ∧ t.errInfo = 19#32 ∧ t.decLen = 0#17 ∧
    t.dbuf = bytes [0x61#8, 0x62#8, 0x72#8, 0x61#8, 0x63#8, 0x61#8, 0x64#8, 0x61#8, 0x62#8] := by decide +kernel

/-- V-D17: DBUF full. -/
theorem test_decodeT_overflow :
    let t := after .decodeT { built oneTable with depths := ⟨8, 4, 4⟩, bitLen := 5#20 }
    t.err = some .overflow ∧ t.errInfo = 4#32 ∧ t.decLen = 0#17 ∧ t.dbuf = bytes [0x41#8, 0x41#8, 0x41#8, 0x41#8] := by
  decide +kernel

/-- V-D18: a table that is not prefix-free. -/
theorem test_decodeC_greedy :
    let t := after .decodeC { blank with
      ct := ctOf [(0x61#8, ⟨1#8, 0#255⟩), (0x62#8, ⟨2#8, 2#255⟩)], obuf := bytes [0x40#8], bitLen := 2#20 }
    t.err = some .corruptStream ∧ t.errInfo = 1#32 ∧ t.dbuf = [(0, 0x61#8)] ∧ t.decLen = 0#17 := by decide +kernel

/-- V-D19: the least symbol wins. -/
theorem test_decodeC_least_symbol :
    let t := after .decodeC { blank with
      ct := ctOf [(0x41#8, ⟨2#8, 1#255⟩), (0x42#8, ⟨2#8, 1#255⟩)], obuf := bytes [0x80#8], bitLen := 2#20 }
    t.err = none ∧ t.decLen = 1#17 ∧ t.dbuf = [(0, 0x41#8)] := by decide +kernel

/-- V-M7: the floor of a negative quotient. -/
theorem test_metrics_floor :
    let t := after .metrics { blank with inLen := 3#17, bitLen := 25#20 }
    t.metOrigBits = 24#20 ∧ t.metEncBits = 25#20 ∧ t.metDiff = 0xFFFFFFFF#32 ∧ t.metRed = 0xFFFFEFB9#32 := by decide

/-- V-M10: the saturation. -/
theorem test_metrics_saturates :
    let t := after .metrics { blank with inLen := 1#17, bitLen := 0xFFFFF#20 }
    t.metDiff = 0xFFF00009#32 ∧ t.metRed = 0x80000000#32 := by decide

/-- V-P1 (L1-1). -/
theorem test_compress_aaaab :
    let t := after .compress aaaab
    t.statusWord = 0x00040802#32 ∧ t.root = 2#9 ∧ ctAt t.ct 0x61#8 = ⟨1#8, 1#255⟩ ∧ ctAt t.ct 0x62#8 = ⟨1#8, 0#255⟩ ∧
    t.obuf = [(0, 0xF0#8)] ∧ t.bitLen = 5#20 ∧ t.metRed = 87500#32 := by decide +kernel

/-- V-P4. -/
theorem test_compress_bad_param :
    let t := after .compress { State.reset with inLen := 0x10001#17 }
    t.statusWord = 0x00000846#32 ∧ t.errInfo = 0x00010001#32 := by decide +kernel

/-- V-X6. -/
theorem test_illegal_word :
    let t := stepped { blank with pending := [.write 1#16 0x00000105#32] }
    t.statusWord = 0x00000556#32 ∧ t.errInfo = 0x00000105#32 := by decide +kernel

/-! ### The host port -/

/-- V-H1, V-H3, V-H4, V-H5. -/
theorem test_port_constants :
    peek State.reset 0#16 = 0x48454331#32 ∧ peek State.reset 1#16 = 0#32 ∧ peek State.reset 11#16 = 0x1FF#32 ∧
    peek State.reset 16#16 = 0x10000#32 := by decide

/-- V-H7, V-H8. -/
theorem test_port_bit_len :
    peek (poke blank 6#16 0xFFFFFFFF#32) 6#16 = 0x000FFFFF#32 ∧
    peek (poke blank 6#16 0xFFFFFFFF#32) 8#16 = 0x00020000#32 ∧ peek (poke blank 6#16 9#32) 8#16 = 2#32 := by decide

/-- V-H15, V-H16, V-H17. -/
theorem test_port_code_table :
    peek (poke blank 0x1100#16 0xFFFFFFFF#32) 0x1100#16 = 0x000000FF#32 ∧
    peek (poke blank 0x1108#16 0xFFFFFFFF#32) 0x1108#16 = 0x7FFFFFFF#32 ∧
    peek (poke blank 0x1109#16 0xFFFFFFFF#32) 0x1109#16 = 0#32 := by decide +kernel

/-- V-H18. -/
theorem test_port_little_endian :
    (poke blank 0x4000#16 0x44434241#32).ibuf = [(0, 0x41#8), (1, 0x42#8), (2, 0x43#8), (3, 0x44#8)] := by decide

/-- V-H19, V-H20. -/
theorem test_port_status_w1c :
    let s : State := { blank with done := true, serr := true, ovr := true, err := some .corruptStream, op := 6#8 }
    s.statusWord = 0x0000062E#32 ∧ (poke s 2#16 2#32).statusWord = 0x0000062C#32 ∧
    (poke s 2#16 0xFFFFFFFF#32).statusWord = 0x00000620#32 := by decide

/-- V-H22: a write during BUILD is dropped. -/
theorem test_port_busy_write :
    let s := accept 3#32 aaaab
    let t := stepped { s with pending := [.write 5#16 9#32] }
    t.inLen = 5#17 ∧ t.ovr = true ∧ t.busy = true := by decide +kernel

/-- R124, R72 (a): CLEAR at `CTRL <- 0`: afterwards IE is off while STATUS still shows SERR and OVR, BUSY and the opcode. -/
theorem test_clear_midway :
    let t := stepped { blank with
      ie := true, serr := true, ovr := true, op := 1#8, engine := some ⟨1#32, 5, Cursor.init, none⟩ }
    t.ctrlWord = 0#32 ∧ t.statusWord = 0x0000010D#32 := by decide

/-- R140: COUNT at `i = 4` counts the one symbol `IBUF[4] = "b"` and goes on at `i = 5`. -/
theorem test_engine_counts_one_symbol :
    let t := stepped { aaaab with engine := some ⟨2#32, 2, { Cursor.init with idx := 4 }, none⟩ }
    ftAt t.ft 0x62#8 = 1#32 ∧ ftAt t.ft 0x61#8 = 0#32 ∧
      t.engine = some ⟨2#32, 2, { Cursor.init with idx := 5 }, none⟩ := by decide

/-- V-R3: reset while a command runs. -/
theorem test_reset_while_busy :
    let t := stepped { accept 5#32 aaaab with pending := [.reset [] [(0, 7#8)] []] }
    t.statusWord = 0#32 ∧ t.busy = false ∧ t.obuf = [(0, 7#8)] := by decide +kernel

/-- V-H21: the interrupt line follows DONE and IE. -/
theorem test_irq :
    let t := after .nop { blank with ie := true }
    t.irq = true ∧ (poke t 2#16 2#32).irq = false := by decide

/-! ### Witnesses: for every obligation with hypotheses, states and operands that meet them -/

theorem witness_DecodeAndEncodeAgree : Instr.wf .decodeC = true ∧ decode 0x00000106#32 = .ok .decodeC := by decide

theorem witness_StepRunsDecodedCommand :
    let s : State := { blank with pending := [.write 1#16 0x00000106#32, .engine] }
    s.busy = false ∧ s.pending = .write 1#16 0x00000106#32 :: [.engine] ∧ decode 0x00000106#32 = .ok .decodeC := by
  decide

theorem witness_IllegalWordCompletesWithIllegalCmd :
    let s : State := { blank with pending := [.write 1#16 0x00000109#32] }
    s.busy = false ∧ s.pending = .write 1#16 0x00000109#32 :: [] ∧ ∀ i, decode 0x00000109#32 ≠ .ok i := by
  refine ⟨rfl, rfl, fun i h => ?_⟩
  rw [show decode 0x00000109#32 = .error .reservedOpcode by decide] at h
  cases h

theorem witness_StickyErrorFlag :
    (∃ t, Instr.nop ≠ .clear ∧ exec .nop blank = .next t) ∧ ∃ t, exec .clear blank = .next t :=
  ⟨⟨_, by decide, rfl⟩, ⟨_, rfl⟩⟩

/-- Both lengths at the least value above the buffer; a command that has no parameter. -/
theorem witness_LengthAboveBufferIsBadParam :
    (let s : State := { blank with inLen := 9#17 }; s.depths.ibuf.val < s.inLen.toNat) ∧
    (let s : State := { blank with bitLen := 33#20 }; 8 * s.depths.obuf.val < s.bitLen.toNat) ∧
    Instr.clear ∈ [Instr.build, .gencodes, .metrics, .nop, .clear] ∧ ∃ t, exec .clear blank = .next t :=
  ⟨by decide, by decide, by decide, _, rfl⟩

/-- Both clauses where they meet. -/
theorem witness_CountTabulatesOccurrences :
    (let s : State := { blank with inLen := 8#17 }; s.inLen.toNat ≤ s.depths.ibuf.val) ∧
    (let s : State := { blank with inLen := 9#17 }; s.depths.ibuf.val < s.inLen.toNat) := by decide

theorem witness_CountSumsToInputLength : ∃ t, exec .count aaaab = .next t ∧ t.err = none :=
  ⟨after .count aaaab, rfl, by decide +kernel⟩

theorem witness_BuildOfEmptyTableLeavesNoTree : ∀ x : Byte, ftAt blank.ft x = 0#32 := by decide +kernel

theorem witness_BuildOfOneSymbolIsSingleLeaf :
    ftAt oneTable 0x41#8 ≠ 0#32 ∧ ∀ y : Byte, y ≠ 0x41#8 → ftAt oneTable y = 0#32 := by decide +kernel

/-- The table of V-B7: nodes 3 and 4 are internal. -/
theorem witness_InternalWeightsRiseInCreationOrder :
    ∃ t, exec .build { blank with ft := ftOf [(0x61#8, 1#32), (0x62#8, 1#32), (0x63#8, 1#32)] } = .next t ∧
      t.nleaf.toNat ≤ (3#9).toNat ∧ (4#9).toNat = (3#9).toNat + 1 ∧ (4#9).toNat < t.nodeCnt.toNat :=
  ⟨after .build { blank with ft := ftOf [(0x61#8, 1#32), (0x62#8, 1#32), (0x63#8, 1#32)] }, rfl, by decide +kernel⟩

/-- Two leaves to merge; in the tree of V-B7 node 4, the last, and leaf 2, which waits for node 4 and is its LEFT, and for
node 3, of which it is no child. -/
theorem witness_MergeTakesTheTwoLeastNodes :
    2 ≤ (working [Node.newLeaf 0x61#8 4#32, Node.newLeaf 0x62#8 1#32]).length ∧
    ∃ t, exec .build { blank with ft := ftOf [(0x61#8, 1#32), (0x62#8, 1#32), (0x63#8, 1#32)] } = .next t ∧
      t.nleaf.toNat ≤ (3#9).toNat ∧ (3#9).toNat < t.nodeCnt.toNat ∧ t.waitsFor 3#9 2#9 ∧
      2#9 ≠ (nodeAt t.node 3#9).left ∧ 2#9 ≠ (nodeAt t.node 3#9).right :=
  ⟨by decide, after .build { blank with ft := ftOf [(0x61#8, 1#32), (0x62#8, 1#32), (0x63#8, 1#32)] }, rfl,
    by decide +kernel, by decide +kernel,
    ⟨by decide, fun p b h1 h2 => by
      have e : (after .build { blank with ft := ftOf [(0x61#8, 1#32), (0x62#8, 1#32), (0x63#8, 1#32)] }).nleaf.toNat = 3 := by
        decide +kernel
      rw [e] at h1
      exact absurd h2 (by show ¬ p.toNat < 3; omega)⟩,
    by decide +kernel, by decide +kernel⟩

/-- The no-tree clause and the single-leaf clause. -/
theorem witness_GencodesOfSmallTrees :
    blank.root = 0x1FF#9 ∧
    (built oneTable).root ≠ 0x1FF#9 ∧ (nodeAt (built oneTable).node (built oneTable).root).leaf = true := by
  decide +kernel

theorem witness_GencodesRecordsPathsToLeaves : TreeShape (built abraTable) ∧ 2 ≤ (built abraTable).nleaf.toNat :=
  ⟨built_shape _, by decide +kernel⟩

theorem witness_CodeLengthsAreBounded :
    TreeShape (built abraTable) ∧ 2 ≤ (built abraTable).nleaf.toNat ∧ (∃ t, exec .gencodes (built abraTable) = .next t) ∧
      (4#9).toNat < (built abraTable).nleaf.toNat :=
  ⟨built_shape _, by decide +kernel, ⟨_, rfl⟩, by decide +kernel⟩

/-- With two symbols that have entries. -/
theorem witness_GeneratedCodesArePrefixFree :
    TreeShape (built abraTable) ∧ ∃ t, exec .gencodes (built abraTable) = .next t ∧
      (ctAt t.ct 0x61#8).len ≠ 0#8 ∧ (ctAt t.ct 0x62#8).len ≠ 0#8 :=
  ⟨built_shape _, after .gencodes (built abraTable), rfl, by decide +kernel⟩

theorem witness_EntryExactlyForCountedSymbols :
    ∃ t u, exec .build { blank with ft := abraTable } = .next t ∧ exec .gencodes t = .next u := ⟨_, _, rfl, rfl⟩

/-- A stream that fills OBUF to its last bit. -/
theorem witness_EncodePacksTheStream :
    let s : State := { blank with
      depths := ⟨8, 1, 8⟩, ibuf := bytes [0x61#8, 0x61#8], inLen := 2#17, ct := ctOf [(0x61#8, ⟨4#8, 5#255⟩)] }
    s.inLen.toNat ≤ s.depths.ibuf.val ∧
    (∀ i, i < s.inLen.toNat → (ctAt s.ct (symbolAt s.ibuf i)).len ≠ 0#8) ∧
    (streamOf s.ct (symbolsOf s.ibuf s.inLen.toNat)).length ≤ 8 * s.depths.obuf.val := by decide +kernel

theorem witness_EncodeStopsAtMissingEntry :
    let s : State := { blank with
      depths := ⟨8, 1, 8⟩, ibuf := bytes [0x61#8, 0x61#8, 0x62#8], inLen := 3#17, ct := ctOf [(0x61#8, ⟨4#8, 5#255⟩)] }
    s.inLen.toNat ≤ s.depths.ibuf.val ∧ 2 < s.inLen.toNat ∧
    (∀ j, j < 2 → (ctAt s.ct (symbolAt s.ibuf j)).len ≠ 0#8) ∧
    (streamOf s.ct (symbolsOf s.ibuf 2)).length ≤ 8 * s.depths.obuf.val ∧ (ctAt s.ct (symbolAt s.ibuf 2)).len = 0#8 := by
  decide +kernel

theorem witness_EncodeStopsWhereTheStreamOverflows :
    let s : State := { blank with
      depths := ⟨8, 1, 8⟩, ibuf := bytes [0x61#8, 0x61#8, 0x61#8], inLen := 3#17, ct := ctOf [(0x61#8, ⟨3#8, 5#255⟩)] }
    s.inLen.toNat ≤ s.depths.ibuf.val ∧ 2 < s.inLen.toNat ∧
    (∀ j, j ≤ 2 → (ctAt s.ct (symbolAt s.ibuf j)).len ≠ 0#8) ∧
    (streamOf s.ct (symbolsOf s.ibuf 2)).length ≤ 8 * s.depths.obuf.val ∧
    8 * s.depths.obuf.val < (streamOf s.ct (symbolsOf s.ibuf (2 + 1))).length := by decide +kernel

theorem witness_DecodeWritesOnlyItsOutput :
    (Instr.decodeT = .decodeT ∨ Instr.decodeT = .decodeC) ∧ (Instr.decodeC = .decodeT ∨ Instr.decodeC = .decodeC) ∧
    (after .decodeT { built oneTable with bitLen := 3#20 }).err = none ∧
    (after .decodeC { blank with ct := abraCodes, bitLen := 3#20 }).err = none := by decide +kernel

theorem witness_DecodeOfEmptyStream : blank.bitLen = 0#20 := by decide

/-- Each mode, at one bit and at a full OBUF. -/
theorem witness_DecodeWithNothingToMatchIsCorrupt :
    (let s : State := { blank with bitLen := 1#20 };
      s.nleaf = 0#9 ∧ 1 ≤ s.bitLen.toNat ∧ s.bitLen.toNat ≤ 8 * s.depths.obuf.val) ∧
    (let s : State := { blank with bitLen := 32#20 };
      (∀ x : Byte, (ctAt s.ct x).len = 0#8) ∧ 1 ≤ s.bitLen.toNat ∧ s.bitLen.toNat ≤ 8 * s.depths.obuf.val) := by
  decide +kernel

/-- The three clauses: all bits used; a 1 bit at `k`; DBUF full at `k`. -/
theorem witness_DecodeOfSingleLeaf :
    (let s : State := { built oneTable with bitLen := 3#20 };
      s.nleaf = 1#9 ∧ s.bitLen.toNat ≤ 8 * s.depths.obuf.val ∧ 3 ≤ s.depths.dbuf.val ∧
        (∀ j, j < 3 → streamBit s.obuf j = false) ∧ 3 = s.bitLen.toNat) ∧
    (let s : State := { built oneTable with bitLen := 3#20, obuf := bytes [0x20#8] };
      s.nleaf = 1#9 ∧ s.bitLen.toNat ≤ 8 * s.depths.obuf.val ∧ 2 ≤ s.depths.dbuf.val ∧
        (∀ j, j < 2 → streamBit s.obuf j = false) ∧ 2 < s.bitLen.toNat ∧ streamBit s.obuf 2 = true) ∧
    (let s : State := { built oneTable with bitLen := 9#20 };
      s.nleaf = 1#9 ∧ s.bitLen.toNat ≤ 8 * s.depths.obuf.val ∧ 8 ≤ s.depths.dbuf.val ∧
        (∀ j, j < 8 → streamBit s.obuf j = false) ∧ 8 < s.bitLen.toNat ∧ streamBit s.obuf 8 = false ∧
        8 = s.depths.dbuf.val) := by decide +kernel

/-- V-D8 and V-D6 shortened: "a" then "b", with the empty path and with the path "11" after them. -/
theorem witness_DecodeWalksTheTree :
    (let s : State := { built abraTable with obuf := bytes [0x6E#8], bitLen := 4#20 };
      TreeShape s ∧ 2 ≤ s.nleaf.toNat ∧ s.bitLen.toNat ≤ 8 * s.depths.obuf.val ∧ 2 ≤ s.depths.dbuf.val ∧
      (∀ l ∈ [(0#9, [false]), (1#9, [true, true, false])], l.1.toNat < s.nleaf.toNat ∧
        descend s.node s.root l.2 = some l.1) ∧
      (∃ m, descend s.node s.root [] = some m ∧ (nodeAt s.node m).leaf = false) ∧
      packedBits s.obuf s.bitLen.toNat = [(0#9, [false]), (1#9, [true, true, false])].flatMap Prod.snd ++ []) ∧
    (let s : State := { built abraTable with obuf := bytes [0x6E#8], bitLen := 6#20 };
      TreeShape s ∧
      (∃ m, descend s.node s.root [true, true] = some m ∧ (nodeAt s.node m).leaf = false) ∧
      packedBits s.obuf s.bitLen.toNat = [(0#9, [false]), (1#9, [true, true, false])].flatMap Prod.snd ++ [true, true]) :=
  ⟨⟨treeShape_of_build (ft := abraTable) rfl rfl rfl rfl, by decide +kernel, by decide +kernel, by decide +kernel,
    by decide +kernel, ⟨8#9, by decide +kernel⟩, by decide +kernel⟩,
    ⟨treeShape_of_build (ft := abraTable) rfl rfl rfl rfl, ⟨6#9, by decide +kernel⟩, by decide +kernel⟩⟩

/-- DBUF holds two symbols: "a" and "b" fill it, a second "b" is the leaf too many, three pad bits follow. -/
theorem witness_DecodeWalksTheTree_overflow :
    let s : State := { built abraTable with depths := ⟨8, 4, 2⟩, obuf := bytes [0x6E#8, 0x00#8], bitLen := 10#20 }
    TreeShape s ∧ 2 ≤ s.nleaf.toNat ∧ s.bitLen.toNat ≤ 8 * s.depths.obuf.val ∧
    [(0#9, [false]), (1#9, [true, true, false])].length = s.depths.dbuf.val ∧
    (∀ e ∈ [(0#9, [false]), (1#9, [true, true, false])] ++ [(4#9, [true, true, true])],
      e.1.toNat < s.nleaf.toNat ∧ descend s.node s.root e.2 = some e.1) ∧
    packedBits s.obuf s.bitLen.toNat =
      [(0#9, [false]), (1#9, [true, true, false])].flatMap Prod.snd ++ [true, true, true] ++ [false, false, false] :=
  ⟨treeShape_of_build (ft := abraTable) rfl rfl rfl rfl, by decide +kernel, by decide +kernel, by decide +kernel,
    by decide +kernel, by decide +kernel⟩

/-- V-D18's table, a = "0", b = "01": the stream "0" is a; the stream "01" is a and then the broken "1". -/
def greedy : State :=
  { blank with ct := ctOf [(0x61#8, ⟨1#8, 0#255⟩), (0x62#8, ⟨2#8, 2#255⟩)], obuf := bytes [0x40#8], bitLen := 2#20 }

theorem greedy_codes : codeOf greedy.ct 0x61#8 = [false] ∧ codeOf greedy.ct 0x62#8 = [false, true] ∧
    ∀ y : Byte, y ≠ 0x61#8 → y ≠ 0x62#8 → codeOf greedy.ct y = [] := by decide +kernel

theorem witness_DecodeMatchesTheTable :
    (∀ x ∈ [0x61#8], codeOf greedy.ct x ≠ [] ∧ ∀ (r : Bits) (y : Byte), r ≠ [] → r <+: codeOf greedy.ct x →
      codeOf greedy.ct y = r → r = codeOf greedy.ct x ∧ x.toNat ≤ y.toNat) ∧
    (∀ (r : Bits) (y : Byte), r ≠ [] → r <+: [true] → codeOf greedy.ct y ≠ r) ∧
    greedy.bitLen.toNat ≤ 8 * greedy.depths.obuf.val ∧ [0x61#8].length ≤ greedy.depths.dbuf.val ∧
    packedBits greedy.obuf greedy.bitLen.toNat = streamOf greedy.ct [0x61#8] ++ [true] ∧
    packedBits greedy.obuf 1 = streamOf greedy.ct [0x61#8] ++ [] := by
  obtain ⟨ha, hb, ho⟩ := greedy_codes
  have one : ∀ (r : Bits) (c : Bool), r ≠ [] → r <+: [c] → r = [c] := by
    intro r c hr hp
    rcases List.prefix_cons_iff.mp hp with h | ⟨q, h, hq⟩
    · exact absurd h hr
    · rw [h, List.prefix_nil.mp hq]
  refine ⟨?_, ?_, by decide, by decide, by decide +kernel, by decide +kernel⟩
  · intro x hx
    rw [List.mem_singleton.mp hx, ha]
    refine ⟨by decide, fun r y hr hp hy => ?_⟩
    have h1 := one r false hr hp
    refine ⟨h1, ?_⟩
    by_cases e1 : y = 0x61#8
    · rw [e1]
    · by_cases e2 : y = 0x62#8
      · rw [e2]; decide
      · rw [ho y e1 e2] at hy; exact absurd hy.symm hr
  · intro r y hr hp hy
    have h1 := one r true hr hp
    by_cases e1 : y = 0x61#8
    · rw [e1, ha, h1] at hy; revert hy; decide
    · by_cases e2 : y = 0x62#8
      · rw [e2, hb, h1] at hy; revert hy; decide
      · rw [ho y e1 e2] at hy; exact hr hy.symm

/-- DBUF holds one symbol: the stream "001" has a first a and a second too many. -/
theorem witness_DecodeMatchesTheTable_overflow :
    let s : State := { greedy with depths := ⟨8, 4, 1⟩, obuf := bytes [0x20#8], bitLen := 3#20 }
    (∀ z ∈ [0x61#8] ++ [0x61#8], codeOf s.ct z ≠ [] ∧ ∀ (r : Bits) (y : Byte), r ≠ [] → r <+: codeOf s.ct z →
      codeOf s.ct y = r → r = codeOf s.ct z ∧ z.toNat ≤ y.toNat) ∧
    s.bitLen.toNat ≤ 8 * s.depths.obuf.val ∧ [0x61#8].length = s.depths.dbuf.val ∧
    packedBits s.obuf s.bitLen.toNat = streamOf s.ct [0x61#8] ++ codeOf s.ct 0x61#8 ++ [true] :=
  ⟨fun z hz => witness_DecodeMatchesTheTable.1 z (by simpa using hz), by decide, by decide, by decide +kernel⟩

theorem witness_DecodeModesAgree :
    let s : State := { built abraTable with ct := codeTable (built abraTable).node (built abraTable).root }
    TreeShape s ∧ s.ct = codeTable s.node s.root :=
  ⟨treeShape_of_build (ft := abraTable) rfl rfl rfl rfl, rfl⟩

/-- Each of the three commands fails on data. -/
theorem witness_FailedResultIsEmpty :
    (let t := after .encode { aaaab with bitLen := 7#20 }; t.err = some .invariantViolation) ∧
    (let t := after .decodeT { blank with bitLen := 1#20 }; t.err = some .corruptStream) ∧
    (let t := after .decodeC { blank with bitLen := 1#20 }; t.err = some .corruptStream) := by decide +kernel

theorem witness_RoundTripRestoresTheInput :
    let a := after .count aaaab
    let b := after .build a
    let c := after .gencodes b
    let d := after .encode c
    aaaab.inLen.toNat ≤ aaaab.depths.ibuf.val ∧ aaaab.inLen.toNat ≤ aaaab.depths.dbuf.val ∧
    exec .count aaaab = .next a ∧ exec .build a = .next b ∧ exec .gencodes b = .next c ∧ exec .encode c = .next d ∧
    a.err = none ∧ b.err = none ∧ c.err = none ∧ d.err = none :=
  ⟨by decide, by decide, exec_after _ _, exec_after _ _, exec_after _ _, exec_after _ _, by decide +kernel, by decide +kernel, by decide +kernel, by decide +kernel⟩

theorem witness_CompressEndsAtANamedStage : Instr.nop ≠ .compress ∧ ∃ t, exec .nop blank = .next t :=
  ⟨by decide, _, rfl⟩

theorem witness_CompressNeverMissesAnEntry : ∃ t, exec .compress aaaab = .next t := ⟨_, rfl⟩

theorem witness_CompressIsTheFiveCommands : ∃ t, exec .compress aaaab = .next t ∧ t.err = none :=
  ⟨after .compress aaaab, rfl, by decide +kernel⟩

theorem witness_CompressCompletesWhenItFits :
    aaaab.inLen.toNat ≤ aaaab.depths.ibuf.val ∧
    (streamOf aaaab.ownCodes (symbolsOf aaaab.ibuf aaaab.inLen.toNat)).length ≤ 8 * aaaab.depths.obuf.val := by
  decide +kernel

/-- An OBUF of no bytes: the first symbol overflows it; an OBUF of one byte: the seventh symbol does. -/
theorem witness_CompressStopsWhereTheStreamOverflows :
    (let s : State := { aaaab with depths := ⟨8, 0, 8⟩ };
      s.inLen.toNat ≤ s.depths.ibuf.val ∧ 0 < s.inLen.toNat ∧
      (streamOf s.ownCodes (symbolsOf s.ibuf 0)).length ≤ 8 * s.depths.obuf.val ∧
      8 * s.depths.obuf.val < (streamOf s.ownCodes (symbolsOf s.ibuf (0 + 1))).length) ∧
    (let s : State := { aaaab with depths := ⟨9, 1, 8⟩, inLen := 9#17 };
      s.inLen.toNat ≤ s.depths.ibuf.val ∧ 6 < s.inLen.toNat ∧
      (streamOf s.ownCodes (symbolsOf s.ibuf 6)).length ≤ 8 * s.depths.obuf.val ∧
      8 * s.depths.obuf.val < (streamOf s.ownCodes (symbolsOf s.ibuf (6 + 1))).length) := by decide +kernel

theorem witness_IdleReadHasNoSideEffect :
    (let s : State := { blank with pending := [.read 2#16] };
      s.busy = false ∧ s.pending = .read 2#16 :: []) ∧
    (let s : State := { accept 3#32 blank with ie := true, pending := [.observeIrq, .engine] };
      s.pending = .observeIrq :: [.engine]) := by decide

/-- Both ends of every range, for writes and for reads. -/
theorem witness_ReadOnlyPlacesIgnoreWrites :
    (∀ a ∈ [0#16, 4#16, 7#16, 255#16, 512#16, 4095#16, 4105#16, 8191#16, 8192#16, 16383#16, 49152#16, 65535#16],
      (a.toNat = 0 ∨ a.toNat = 4 ∨ (7 ≤ a.toNat ∧ a.toNat < 256) ∨ (512 ≤ a.toNat ∧ a.toNat < 4096) ∨
        (4096 ≤ a.toNat ∧ a.toNat < 8192 ∧ 9 ≤ a.toNat % 16) ∨ (8192 ≤ a.toNat ∧ a.toNat < 16384) ∨
        49152 ≤ a.toNat)) ∧
    (∀ a ∈ [19#16, 255#16, 512#16, 2047#16, 4092#16, 4095#16, 4105#16, 8191#16, 8192#16, 16383#16],
      ((19 ≤ a.toNat ∧ a.toNat < 256) ∨ (512 ≤ a.toNat ∧ a.toNat < 2048) ∨ (4092 ≤ a.toNat ∧ a.toNat < 4096) ∨
        (4096 ≤ a.toNat ∧ a.toNat < 8192 ∧ 9 ≤ a.toNat % 16) ∨ (8192 ≤ a.toNat ∧ a.toNat < 16384))) ∧
    (let s : State := { blank with pending := [.write 2#16 14#32] };
      s.busy = false ∧ (2#16 : WordAddr) ≠ 1#16 ∧ s.pending = .write 2#16 14#32 :: []) :=
  ⟨by simp, by simp, by decide⟩

theorem witness_CodeTableReadsBack :
    (1 ≤ 8 ∧ 8 ≤ 8 ∧ 31 < 32) ∧ (9 ≤ 15 ∧ 15 < 16) ∧ (0 < 16 ∧ 15 < 16) ∧ (8 < 16 ∧ 8 < 16) := by decide

theorem witness_NodeImageHasTheFields : (510#9).toNat < 511 := by decide

/-- The last word of a buffer at the default depths; a depth of 6, where word 1 has two elements that exist and two that do
not. -/
theorem witness_BufferWordsAreLittleEndian :
    (16383 < 16384 ∧ 3 < 4 ∧ 4 * 16383 + 3 < State.reset.depths.ibuf.val ∧
      4 * 16383 + 3 < State.reset.depths.obuf.val ∧ 4 * 16383 + 3 < State.reset.depths.dbuf.val) ∧
    (let s : State := { blank with depths := ⟨6, 6, 6⟩ };
      1 < 16384 ∧ 4 * 1 + 1 < s.depths.ibuf.val ∧ ¬ 4 * 1 + 2 < s.depths.ibuf.val ∧ 6 / 4 = 1 ∧
        ¬ 6 < s.depths.obuf.val) := by decide

theorem witness_BusyWriteOnlySetsOverrun :
    (let s : State := { accept 3#32 blank with pending := [.write 2#16 14#32] };
      s.busy = true ∧ s.pending = .write 2#16 14#32 :: []) ∧
    (let s : State := { accept 3#32 blank with pending := [.start 1#32] };
      s.busy = true ∧ s.pending = .start 1#32 :: []) := by decide

theorem witness_BusyReadsDoNotDisturb :
    let s : State := { accept 3#32 blank with pending := [.read 18#16] }
    s.busy = true ∧ s.pending = .read 18#16 :: [] := by decide

theorem witness_EngineStepsReachTheOneStepResult :
    blank.busy = false ∧
    (let s : State := { blank with pending := [.start 8#32, .engine] };
      s.busy = false ∧ s.pending = .start 8#32 :: [.engine]) ∧
    (let s : State := { accept 8#32 blank with pending := [.engine, .read 2#16] };
      s.pending = .engine :: [.read 2#16]) ∧
    (accept 8#32 blank).pending = [] ∧ blank.pending = [] := by decide

theorem witness_ResetReachesTheResetState :
    let s : State := { accept 3#32 blank with pending := [.reset [] [(0, 7#8)] []] }
    s.pending = .reset [] [(0, 7#8)] [] :: [] := by decide

theorem witness_ConstantsNeverChange : ∃ t, step blank = .next t := ⟨_, rfl⟩

/-- A BUILD two iterations into its first loop, a host write dropped meanwhile, a reset to come. -/
theorem witness_StepKeepsTheInvariant :
    let s : State := { advanceMany 2 (accept 3#32 (built abraTable)) with
      ovr := true, pending := [.reset [] [(0, 7#8)] []] }
    Inv s ∧ ∃ t, step s = .next t := by
  refine ⟨⟨by decide, by decide, fun h => absurd h (by decide), by decide, by decide, by decide, ?_, ?_⟩, ⟨_, rfl⟩⟩
  · intro r h; cases h; exact ⟨by decide, by decide⟩
  · intro r h; cases h; exact ⟨built abraTable, 2, rfl, built_shape abraTable, rfl⟩

end Sys2Proof.Tests
end

/-! PROOFS. BUILD merges the two least nodes of the working collection (spec/42_build.md R155, R156). -/

namespace Sys2Proof.Machine

/-- A node of the working collection is known by its index. -/
theorem eq_of_snd_eq_of_mem_working {ns : List Node} {x y : Node × Nat} (hx : x ∈ working ns) (hy : y ∈ working ns)
    (h : x.2 = y.2) : x = y :=
  List.inj_on_of_nodup_map (nodup_working ns) hx hy h

/-- BUILD completes with its body's data state over the state it began in, and raises nothing (R126, R158). -/
theorem exec_build (s : State) : exec .build s = .next (State.completed 0x00000003#32 (buildBody s).1) := by
  have hc : complete none (buildBody (accept 0x00000003#32 s)).1 = State.completed 0x00000003#32 (buildBody s).1 :=
    completed_of (w := 0x00000003#32) (t := (buildBody (accept 0x00000003#32 s)).1) rfl rfl rfl rfl
  exact congrArg Host.Outcome.next ((command_ok rfl).trans hc)

/-- The state BUILD answers. -/
theorem eq_completed_of_exec_build {s t : State} (h : exec .build s = .next t) :
    t = State.completed 0x00000003#32 (buildBody s).1 :=
  Host.Outcome.next.inj (h.symm.trans (exec_build s))

/-- R155, R156: with two nodes left there is a merge, of the least node and the least of the rest. -/
theorem mergeOnce_takes_two_least {ns : List Node} (h : 2 ≤ (working ns).length) :
    ∃ a b : Node × Nat, a ∈ working ns ∧ b ∈ working ns ∧ a ≠ b ∧
      (∀ x ∈ working ns, x ≠ a → lessNode a x = true) ∧
      (∀ x ∈ working ns, x ≠ a → x ≠ b → lessNode b x = true) ∧
      mergeOnce ns = some (deactivate (deactivate ns a.2) b.2 ++ [Node.newInternal (a.1.weight + b.1.weight) a.2 b.2]) := by
  obtain ⟨ns', hm⟩ := mergeOnce_isSome h
  obtain ⟨a, b, ha, hb, haa, hba, hab, hmin, hminb, rfl⟩ := mergeOnce_spec hm
  have hamem : a ∈ working ns := mem_working.mpr ⟨ha, haa⟩
  have hbmem : b ∈ working ns := mem_working.mpr ⟨hb, hba⟩
  refine ⟨a, b, hamem, hbmem, fun e => hab (congrArg Prod.snd e), ?_, ?_, hm⟩
  · exact fun x hx hxa => hmin x hx (hxa ∘ eq_of_snd_eq_of_mem_working hx hamem)
  · exact fun x hx hxa hxb => hminb x hx (hxa ∘ eq_of_snd_eq_of_mem_working hx hamem)
      (hxb ∘ eq_of_snd_eq_of_mem_working hx hbmem)

/-- Settles O19: the first clause is what one merge does; the second is what every merge of BUILD keeps (`Ordered`), read
in the NODE memory, whose shape tells LEFT from RIGHT. -/
theorem mergeTakesTheTwoLeastNodes : Obligations.MergeTakesTheTwoLeastNodes := by
  refine ⟨fun _ => mergeOnce_takes_two_least, fun s t h n hleaf hcnt => ?_⟩
  obtain rfl := eq_completed_of_exec_build h
  have hshape : TreeShape (State.completed 0x00000003#32 (buildBody s).1) :=
    treeShape_of_build (ft := s.ft) rfl rfl rfl rfl
  obtain ⟨-, -, -, -, hne, -⟩ := hshape.internals n hleaf hcnt
  obtain ⟨hl, hr, hleast⟩ := build_takes_least (ft := s.ft) rfl rfl rfl hleaf hcnt
  exact ⟨hl, hr, hne, fun m hm hml => (hleast m hm hml).1, fun m hm hml hmr => (hleast m hm hml).2 hmr⟩

end Sys2Proof.Machine

/-! PROOFS. The command word (spec/30_encoding.md R105): encoding undoes decoding. -/

namespace Sys2Proof

/-- A word is its three fields (R90). -/
theorem word_eq_fields (w : Word) : w = zeroField w ++ BitVec.ofBool (modeField w) ++ opField w := by
  apply BitVec.eq_of_getLsbD_eq
  intro i hi
  rw [BitVec.getLsbD_append, BitVec.getLsbD_append, zeroField, modeField, opField]
  by_cases h8 : i < 8
  · simp [h8]
  · by_cases h9 : i = 8
    · subst h9; simp
    · simp only [h8, show ¬ i - 8 < 1 by omega, if_false, BitVec.getLsbD_extractLsb']
      rw [show 9 + (i - 8 - 1) = i by omega]
      simp [show i - 8 - 1 < 23 by omega]

/-- The command a plain OP byte names has that opcode and mode 0 (R95). -/
theorem opcodeOf_of_plainCommand {op : Byte} {i : Instr} (h : plainCommand op.toNat = some i) :
    opcodeOf i = op ∧ modeOf i = false := by
  unfold plainCommand at h
  split at h
  case h_10 => cases h
  all_goals
    rename_i hop
    cases h
    exact ⟨BitVec.eq_of_toNat_eq hop.symm, rfl⟩

/-- A word decodes to the command whose fields it has (R94, R95). -/
theorem fields_of_decode {w : Word} {i : Instr} (h : decode w = .ok i) :
    zeroField w = 0#23 ∧ modeField w = modeOf i ∧ opField w = opcodeOf i := by
  unfold decode at h
  split at h
  · cases h
  · rename_i hz
    split at h
    · cases h
    · rename_i j hj
      obtain ⟨hop, hmode⟩ := opcodeOf_of_plainCommand hj
      split at h
      · rename_i hm
        split at h
        · rename_i hdec
          cases h; subst hdec
          exact ⟨not_not.mp hz, hm, hop.symm⟩
        · cases h
      · rename_i hm
        cases h
        exact ⟨not_not.mp hz, (Bool.not_eq_true _ ▸ hm).trans hmode.symm, hop.symm⟩

/-- R105: encoding undoes decoding. -/
theorem encode_of_decode {w : Word} {i : Instr} (h : decode w = .ok i) : encode i = w := by
  obtain ⟨hz, hm, ho⟩ := fields_of_decode h
  rw [word_eq_fields w, hz, hm, ho, encode]

end Sys2Proof

/-! PROOFS. The registers on the host port (spec/10_state.md R22 to R40; spec/20_memory.md R60, R61, R70). -/

namespace Sys2Proof.Machine

/-! ### Where the places of the map are -/

/-- Word `k` of the map is register `k` (R40). -/
theorem locate_reg {k : Nat} {r : Reg} (h : regMap[k]? = some r) : locate (BitVec.ofNat 16 k) = .reg r := by
  have hk : k < 19 := (List.getElem?_eq_some_iff.mp h).1
  have e : (BitVec.ofNat 16 k).toNat = k := by rw [BitVec.toNat_ofNat]; exact Nat.mod_eq_of_lt (by omega)
  unfold locate; rw [e]; dsimp only
  rw [if_pos (by omega), h]

/-- The holes of the map (R60, R61): above the registers, around the tables, and words 9 to 15 of a CT entry. -/
def inHole (a : WordAddr) : Prop :=
  (19 ≤ a.toNat ∧ a.toNat < 256) ∨ (512 ≤ a.toNat ∧ a.toNat < 2048) ∨ (4092 ≤ a.toNat ∧ a.toNat < 4096) ∨
    (4096 ≤ a.toNat ∧ a.toNat < 8192 ∧ 9 ≤ a.toNat % 16) ∨ (8192 ≤ a.toNat ∧ a.toNat < 16384)

theorem locate_hole {a : WordAddr} (h : inHole a) : locate a = .hole := by
  unfold locate
  dsimp only
  rcases h with h | h | h | h | h
  · rw [if_pos (by omega), show regMap[a.toNat]? = none from List.getElem?_eq_none h.1]
  · rw [if_neg (by omega), if_neg (by omega), if_pos (by omega)]
  · rw [if_neg (by omega), if_neg (by omega), if_neg (by omega), if_neg (by omega), if_pos (by omega)]
  · iterate 5 rw [if_neg (by omega)]
    rw [if_pos (by omega), if_neg (by omega)]
  · iterate 6 rw [if_neg (by omega)]
    rw [if_pos (by omega)]

theorem locate_node {a : WordAddr} (h : 2048 ≤ a.toNat ∧ a.toNat < 4092) : ∃ n k, locate a = .node n k := by
  refine ⟨BitVec.ofNat 9 ((a.toNat - 2048) / 4), (a.toNat - 2048) % 4, ?_⟩
  unfold locate
  dsimp only
  rw [if_neg (by omega), if_neg (by omega), if_neg (by omega), if_pos (by omega)]

theorem locate_dbuf {a : WordAddr} (h : 49152 ≤ a.toNat) : locate a = .buf .dbuf (a.toNat - 49152) := by
  unfold locate
  dsimp only
  iterate 9 rw [if_neg (by omega)]

/-! ### Reading and writing a register -/

theorem peek_reg {s : State} {k : Nat} {r : Reg} (h : regMap[k]? = some r) :
    peek s (BitVec.ofNat 16 k) = readReg s r := by
  unfold peek; rw [locate_reg h]; rfl

theorem toNat_peek_reg {s : State} {k n : Nat} {r : Reg} (h : regMap[k]? = some r) (hn : (readReg s r).toNat = n) :
    (peek s (BitVec.ofNat 16 k)).toNat = n := by
  rw [peek_reg h, hn]

theorem poke_reg {s : State} {k : Nat} {r : Reg} (h : regMap[k]? = some r) (w : Word) :
    poke s (BitVec.ofNat 16 k) w = writeReg s w r := by
  unfold poke; rw [locate_reg h]; rfl

/-- The fields of STATUS at their bits (R22). -/
theorem statusWord_toNat (s : State) : s.statusWord.toNat =
    s.busy.toNat + 2 * s.done.toNat + 4 * s.serr.toNat + 8 * s.ovr.toNat
      + 16 * (errCode s.err).toNat + 256 * s.op.toNat + 65536 * s.stage.toNat := by
  unfold State.statusWord
  simp only [toNat_append_eq, BitVec.toNat_ofBool, BitVec.toNat_ofNat]
  omega

/-- CTRL is the bit IE (R26). -/
theorem ctrlWord_toNat (s : State) : s.ctrlWord.toNat = s.ie.toNat := by
  rw [State.ctrlWord, toNat_append_eq, BitVec.toNat_ofBool, BitVec.toNat_ofNat]
  omega

/-- OUT_BYTES fits its word (R31). -/
theorem outBytes_toNat (s : State) : (BitVec.ofNat 32 s.outBytes).toNat = (s.bitLen.toNat + 7) / 8 := by
  have := s.bitLen.isLt
  rw [BitVec.toNat_ofNat, State.outBytes]
  exact Nat.mod_eq_of_lt (by omega)

/-- A depth fits its CAP register (R39). -/
theorem depth_toNat (d : Fin 65537) : (BitVec.ofNat 32 d.val).toNat = d.val := by
  rw [BitVec.toNat_ofNat]
  exact Nat.mod_eq_of_lt (by have := d.isLt; omega)

/-- The bits of STATUS (R22): four flags, of which all but BUSY are W1C, and the fields above them. -/
theorem statusWord_getLsbD (s : State) (i : Nat) : s.statusWord.getLsbD i =
    if i = 0 then s.busy else if i = 1 then s.done else if i = 2 then s.serr else if i = 3 then s.ovr
    else (0#13 ++ s.stage ++ s.op ++ errCode s.err).getLsbD (i - 4) := by
  unfold State.statusWord
  generalize 0#13 ++ s.stage ++ s.op ++ errCode s.err = upper
  simp only [BitVec.getLsbD_append, BitVec.getLsbD_ofBool]
  match i with
  | 0 | 1 | 2 | 3 | _ + 4 => simp

/-- A write to STATUS clears the W1C bits written as 1 in the word STATUS reads as (R22, R70). -/
theorem statusWord_writeStatus (s : State) (w : Word) :
    (s.writeStatus w).statusWord = s.statusWord &&& ~~~(w &&& 0x0000000E#32) := by
  apply BitVec.eq_of_getLsbD_eq
  intro i hi
  rw [BitVec.getLsbD_and, BitVec.getLsbD_not, BitVec.getLsbD_and, statusWord_getLsbD, statusWord_getLsbD]
  match i with
  | 0 | 1 | 2 | 3 => simp [State.writeStatus, State.busy]
  | i + 4 =>
    have hmask : (0x0000000E#32).getLsbD (i + 4) = false := by
      rw [BitVec.getLsbD_ofNat, Nat.testBit_lt_two_pow
        (lt_of_lt_of_le (by decide : 14 < 2 ^ 4) (Nat.pow_le_pow_right (by decide) (by omega))), Bool.and_false]
    rw [hmask]
    simp [hi, State.writeStatus]

/-- R24, R39: ID and the CAP registers, in any state. -/
theorem peek_constants (s : State) :
    peek s 0#16 = 0x48454331#32 ∧ (peek s 16#16).toNat = s.depths.ibuf.val ∧
      (peek s 17#16).toNat = s.depths.obuf.val ∧ (peek s 18#16).toNat = s.depths.dbuf.val :=
  ⟨peek_reg (r := .id) rfl, toNat_peek_reg (r := .capIbuf) rfl (depth_toNat _),
    toNat_peek_reg (r := .capObuf) rfl (depth_toNat _), toNat_peek_reg (r := .capDbuf) rfl (depth_toNat _)⟩

/-- Settles O46: each register is found at its offset and reads as its field. -/
theorem registersReadAtTheirOffsets : Obligations.RegistersReadAtTheirOffsets := by
  refine ⟨fun s => ?_, rfl, rfl, rfl, rfl, rfl, rfl⟩
  obtain ⟨hid, hib, hob, hdb⟩ := peek_constants s
  have ext : ∀ {n : Nat} (x : BitVec n), n ≤ 32 → (x.setWidth 32).toNat = x.toNat :=
    fun x h => BitVec.toNat_setWidth_of_le h
  exact ⟨hid, peek_reg (r := .cmd) rfl, toNat_peek_reg (r := .status) rfl (statusWord_toNat s),
    toNat_peek_reg (r := .ctrl) rfl (ctrlWord_toNat s), peek_reg (r := .errInfo) rfl,
    toNat_peek_reg (r := .inLen) rfl (ext _ (by omega)), toNat_peek_reg (r := .bitLen) rfl (ext _ (by omega)),
    toNat_peek_reg (r := .decLen) rfl (ext _ (by omega)), toNat_peek_reg (r := .outBytes) rfl (outBytes_toNat s),
    toNat_peek_reg (r := .nodeCnt) rfl (ext _ (by omega)), toNat_peek_reg (r := .nleaf) rfl (ext _ (by omega)),
    toNat_peek_reg (r := .root) rfl (ext _ (by omega)), toNat_peek_reg (r := .metOrigBits) rfl (ext _ (by omega)),
    toNat_peek_reg (r := .metEncBits) rfl (ext _ (by omega)), peek_reg (r := .metDiff) rfl,
    peek_reg (r := .metRed) rfl, hib, hob, hdb⟩

/-- Settles O47: the registers store the low bits of the word, which is the word under a mask. -/
theorem writableRegistersKeepTheirBits : Obligations.WritableRegistersKeepTheirBits := by
  intro s w
  have hin : poke s 5#16 w = { s with inLen := w.extractLsb' 0 17 } := poke_reg (r := .inLen) rfl w
  have hbit : poke s 6#16 w = { s with bitLen := w.extractLsb' 0 20 } := poke_reg (r := .bitLen) rfl w
  have hie : poke s 3#16 w = { s with ie := w.getLsbD 0 } := poke_reg (r := .ctrl) rfl w
  refine ⟨hin, hbit, hie, ?_, ?_, ?_, ?_⟩
  · rw [hin, peek_reg (r := .inLen) rfl]
    exact mask_eq w 17 (by omega) _ rfl
  · rw [hbit, peek_reg (r := .bitLen) rfl]
    exact mask_eq w 20 (by omega) _ rfl
  · rw [hie, peek_reg (r := .ctrl) rfl, ← mask_eq w 1 (by omega) _ rfl]
    apply BitVec.eq_of_toNat_eq
    rw [readReg, ctrlWord_toNat, BitVec.toNat_setWidth_of_le (by omega), BitVec.extractLsb'_toNat]
    rcases Nat.mod_two_eq_zero_or_one w.toNat with h | h <;> simp [BitVec.getLsbD, Nat.testBit_zero, h]
  · rw [hbit, toNat_peek_reg (r := .outBytes) rfl (outBytes_toNat _), ← mask_eq w 20 (by omega) _ rfl,
      BitVec.toNat_setWidth_of_le (by omega)]

/-- Settles O48: the state by the register's own write, the word bit by bit. -/
theorem statusWriteClearsOnlyW1C : Obligations.StatusWriteClearsOnlyW1C := by
  intro s w
  have hw : poke s 2#16 w = s.writeStatus w := poke_reg (r := .status) rfl w
  refine ⟨hw, ?_⟩
  rw [hw, peek_reg (r := .status) rfl, peek_reg (r := .status) rfl]
  exact statusWord_writeStatus s w

end Sys2Proof.Machine

/-! PROOFS. One step of an idle HEC (spec/10_state.md R57; spec/20_memory.md R62, R70). -/

namespace Sys2Proof.Machine

/-- A decoded word is run by `exec` (R57). -/
theorem execWord_of_decode {w : Word} {i : Instr} (h : decode w = .ok i) (s : State) : execWord w s = exec i s := by
  unfold execWord; rw [h]

/-- An idle HEC whose next event is a write to CMD runs its word (R25, R57). -/
theorem step_write_cmd {s : State} {w : Word} {rest : List Event} (hb : s.busy = false)
    (hp : s.pending = .write cmdAddr w :: rest) : step s = execWord w { s with pending := rest } :=
  (step_event hp).trans (hostWrite_cmd (s := { s with pending := rest }) hb w)

/-- Settles O4: the prepared state of `withFetchWord` is one such state. -/
theorem stepRunsDecodedCommand : Obligations.StepRunsDecodedCommand := by
  refine ⟨fun s w i rest hb hp hd => ?_, fun s w i hd => ?_⟩
  · rw [step_write_cmd hb hp, execWord_of_decode hd]
  · have hw : BitVec.ofNat 32 (w.toNat % 2 ^ 32) = w := by
      rw [Nat.mod_eq_of_lt w.isLt, BitVec.ofNat_toNat, BitVec.setWidth_eq]
    have hp : (s.withFetchWord 32 w.toNat).pending = .write cmdAddr w :: s.pending := by
      rw [State.withFetchWord, hw]
    rw [step_write_cmd rfl hp, execWord_of_decode hd]
    rfl

/-- Settles O45: by what handling a read while idle, and an observation, answers. -/
theorem idleReadHasNoSideEffect : Obligations.IdleReadHasNoSideEffect := by
  refine ⟨fun s a rest hb hp => ?_, fun s rest hp => step_event hp⟩
  rw [step_event hp]
  exact congrArg Host.Outcome.next (hostRead_idle (s := { s with pending := rest }) hb a)

/-- The registers that store something of a word written to them (R22, R26, R28, R29). -/
def writableRegs : List Reg := [.status, .ctrl, .inLen, .bitLen]

/-- A read-only register ignores writes (R70). -/
theorem writeReg_readOnly (s : State) (w : Word) {r : Reg} (h : r ∉ writableRegs) : writeReg s w r = s := by
  cases r
  case status | ctrl | inLen | bitLen => exact absurd (by decide) h
  all_goals rfl

/-- The read-only registers are at ID, at ERR_INFO and from DEC_LEN on (R40). -/
theorem regMap_readOnly : ∀ k : Fin regMap.length, (k.val = 0 ∨ k.val = 4 ∨ 7 ≤ k.val) → regMap[k] ∉ writableRegs := by
  decide

theorem poke_readOnly (s : State) (w : Word) {a : WordAddr}
    (h : a.toNat = 0 ∨ a.toNat = 4 ∨ (7 ≤ a.toNat ∧ a.toNat < 19)) : poke s a w = s := by
  have hlen : a.toNat < regMap.length := show a.toNat < 19 by omega
  have hreg := poke_reg (s := s) (List.getElem?_eq_getElem hlen) w
  rw [BitVec.ofNat_toNat, BitVec.setWidth_eq] at hreg
  exact hreg.trans (writeReg_readOnly s w (regMap_readOnly ⟨a.toNat, hlen⟩ (by dsimp only; omega)))

/-- Settles O49: each range of addresses is one kind of place. -/
theorem readOnlyPlacesIgnoreWrites : Obligations.ReadOnlyPlacesIgnoreWrites := by
  refine ⟨fun s a w h => ?_, fun s a h => ?_, fun s a w rest hb ha hp => ?_⟩
  · by_cases hreg : a.toNat = 0 ∨ a.toNat = 4 ∨ (7 ≤ a.toNat ∧ a.toNat < 19)
    · exact poke_readOnly s w hreg
    by_cases hnode : 2048 ≤ a.toNat ∧ a.toNat < 4092
    · obtain ⟨n, k, hl⟩ := locate_node hnode
      unfold poke; rw [hl]; rfl
    by_cases hdbuf : 49152 ≤ a.toNat
    · unfold poke; rw [locate_dbuf hdbuf]; rfl
    · have hhole : inHole a := by unfold inHole; omega
      unfold poke; rw [locate_hole hhole]; rfl
  · unfold peek; rw [locate_hole h]; rfl
  · rw [step_event hp]
    exact hostWrite_idle (s := { s with pending := rest }) hb ha w

end Sys2Proof.Machine

/-! PROOFS. What every step keeps (spec/10_state.md R24, R39, R57; spec/20_memory.md R72): a step is a reset, a host access,
the acceptance of a word or an action of the engine, and each keeps the constants and the invariant. -/

namespace Sys2Proof.Machine

/-! ### What a step can be -/

theorem busy_eq_false_iff {s : State} : s.busy = false ↔ s.engine = none :=
  Option.isSome_eq_false_iff.trans Option.isNone_iff_eq_none

theorem busy_of_engine {s : State} {r : Running} (he : s.engine = some r) : s.busy = true := by
  rw [State.busy, he]; rfl

/-- A command in one step is the acceptance of its word and some number of the engine's actions (R57, R126). -/
theorem execWord_eq_advanceMany (w : Word) (s : State) : ∃ k, execWord w s = .next (advanceMany k (accept w s)) := by
  obtain ⟨k, hk, -⟩ := advance_accept w s fun _ => encode_of_decode
  exact ⟨k, hk⟩

/-- Settles O56: the small steps end as `advance_accept` says; the other clauses are what a step makes of its event. -/
theorem engineStepsReachTheOneStepResult : Obligations.EngineStepsReachTheOneStepResult := by
  refine ⟨fun s w hb => ?_, fun s w rest hb hp => ⟨step_event hp, startCommand_idle hb w⟩,
    fun s rest hp => step_event hp, fun s hp => step_empty hp, fun s hp hb => ?_⟩
  · rw [startCommand_idle hb]
    exact advance_accept w s fun _ => encode_of_decode
  · rw [step_empty hp, advance_idle hb]

/-- What an event can make of a state (R57, R72): a reset, a write that is no command, a command begun and carried on by any
number of the engine's actions, one such action, or an access that leaves all but OVR and the host's answers as it is. -/
inductive Effect (s : State) : Event → State → Prop where
  | reset (i o b : Buffer) : Effect s (.reset i o b) (resetTo i o b s)
  | poke {e : Event} (a : WordAddr) (w : Word) : s.busy = false → Effect s e (poke s a w)
  | command {e : Event} (w : Word) (k : Nat) : s.busy = false → Effect s e (advanceMany k (accept w s))
  | engine {e : Event} : Effect s e (advance s)
  | access {e : Event} {t : State} : t.withoutHost = s.withoutHost → t.pending = s.pending → Effect s e t

/-- A host write is dropped, runs its word, or is stored (R57, R72). -/
theorem effect_of_hostWrite {e : Event} {a : WordAddr} {w : Word} {s t : State} (h : hostWrite a w s = .next t) :
    Effect s e t := by
  cases hb : s.busy
  · by_cases ha : a = cmdAddr
    · obtain ⟨k, hk⟩ := execWord_eq_advanceMany w s
      rw [ha, hostWrite_cmd hb, hk] at h
      cases h
      exact .command w k hb
    · rw [hostWrite_idle hb ha] at h
      cases h
      exact .poke a w hb
  · rw [hostWrite_busy hb] at h
    cases h
    exact .access rfl rfl

theorem effect_of_handle {e : Event} {s t : State} (h : handle e s = .next t) : Effect s e t := by
  cases e with
  | write a w => exact effect_of_hostWrite h
  | reset i o b => cases h; exact .reset i o b
  | observeIrq => cases h; exact .access rfl rfl
  | engine => cases h; exact .engine
  | read a =>
    cases h
    unfold hostRead
    split <;> exact .access rfl rfl
  | start w =>
    cases h
    cases hb : s.busy
    · rw [startCommand_idle hb]
      exact .command w 0 hb
    · rw [startCommand, hb]
      exact .access rfl rfl

/-- What every action of the engine keeps, any number of them keeps. -/
theorem advanceMany_keeps {P : State → Prop} (hadv : ∀ s, P s → P (advance s)) (k : Nat) {s : State} (h : P s) :
    P (advanceMany k s) := by
  induction k generalizing s with
  | zero => exact h
  | succ k ih => exact ih (hadv s h)

/-! ### The constants -/

/-- An action of the engine does not change the depths (R39). -/
theorem advance_depths (s : State) : (advance s).depths = s.depths := by
  rcases he : s.engine with _ | r
  · rw [advance_idle (busy_eq_false_iff.mpr he)]
  · rcases advance_cases he with ha | ⟨l, hl, -, -, ha⟩
    · rw [ha, complete_depths]
    · obtain ⟨-, -, -, hdepths, -⟩ := (laws_loopsOfWord r.word l hl).status s r.cursor
      rw [ha, runLoop_eq]
      exact hdepths

/-- Nor does any event. -/
theorem handle_depths {e : Event} {s t : State} (h : handle e s = .next t) : t.depths = s.depths := by
  cases effect_of_handle h with
  | reset i o b => rfl
  | poke a w _ => exact (poke_frame s a w).1
  | command w k _ =>
    exact advanceMany_keeps (P := fun u => u.depths = s.depths) (fun u hu => (advance_depths u).trans hu) k rfl
  | engine => exact advance_depths s
  | access hhost _ => exact (congrArg State.depths hhost :)

/-- Settles O58: the constants are the depths and a word, and no step changes the depths. -/
theorem constantsNeverChange : Obligations.ConstantsNeverChange := by
  intro s t h
  have hdepths : t.depths = s.depths := by
    rcases hp : s.pending with _ | ⟨e, rest⟩
    · rw [step_empty hp] at h
      cases h
      exact advance_depths s
    · rw [step_event hp] at h
      exact handle_depths (s := { s with pending := rest }) h
  obtain ⟨hid, hib, hob, hdb⟩ := peek_constants t
  rw [hdepths] at hib hob hdb
  exact ⟨hid, hib, hob, hdb, hdepths⟩

/-! ### The invariant of an idle state -/

/-- Of an idle state the invariant asks no more than of its data and of the script. -/
theorem inv_of_idle {s : State} (hb : s.busy = false) (hd : DataInv s)
    (hs : ∀ e ∈ s.pending, Event.wf s.depths e = true) : Inv s where
  mem := hd.mem
  script := hs
  tree _ := hd.tree
  decLen := hd.decLen
  stage := hd.stage
  running h := absurd h (by rw [hb]; decide)
  cursor r h := absurd (h.symm.trans (busy_eq_false_iff.mp hb)) (by simp)
  course r h := absurd (h.symm.trans (busy_eq_false_iff.mp hb)) (by simp)

theorem Inv.dataInv {s : State} (h : Inv s) (hb : s.busy = false) : DataInv s :=
  ⟨h.mem, h.tree (by rw [State.rebuildsTree, busy_eq_false_iff.mp hb]), h.decLen, h.stage⟩

/-- A reset with canonical contents leaves data that meets the invariant (R301, R302). -/
theorem dataInv_afterReset {d : Config.Depths} {i o b : Buffer} (h : Event.wf d (.reset i o b) = true)
    (evs : List Event) (ans : List Answer) (free : Nat) : DataInv (State.afterReset d i o b evs ans free) :=
  ⟨h, treeShape_empty rfl rfl rfl rfl, Nat.zero_le _, Nat.zero_le _⟩

/-- Settles O59: State.reset is the state after a reset that brings empty buffers, with nothing on the script. -/
theorem resetMeetsTheInvariant : Obligations.ResetMeetsTheInvariant :=
  inv_of_idle rfl (dataInv_afterReset rfl [] [] 0) fun e he => absurd he (by simp [State.reset, State.afterReset])

/-! ### The invariant and the host -/

/-- The host's accesses to a running HEC keep it (R72). -/
theorem Inv.of_withoutHost {s t : State} (h : Inv s) (hw : t.withoutHost = s.withoutHost)
    (hs : ∀ e ∈ t.pending, Event.wf s.depths e = true) : Inv t := by
  have hengine : t.engine = s.engine := (congrArg State.engine hw :)
  have hdepths : t.depths = s.depths := (congrArg State.depths hw :)
  refine ⟨(congrArg State.memWf hw :).trans h.mem, by rwa [hdepths], fun hr => ?_, ?_, ?_, fun hb => ?_, ?_, ?_⟩
  · exact treeShape_of_withoutHost hw (h.tree ((congrArg State.rebuildsTree hw :).symm.trans hr))
  · rw [hdepths, show t.decLen = s.decLen from (congrArg State.decLen hw :)]
    exact h.decLen
  · rw [show t.stage = s.stage from (congrArg State.stage hw :)]
    exact h.stage
  · obtain ⟨hdone, herr⟩ := h.running ((busy_of_withoutHost hw).symm.trans hb)
    exact ⟨(congrArg State.done hw :).trans hdone, (congrArg State.err hw :).trans herr⟩
  · rw [hengine, hdepths]
    exact h.cursor
  · intro r hr
    obtain ⟨s0, k, hb0, ht0, hcourse⟩ := h.course r (hengine.symm.trans hr)
    exact ⟨s0, k, hb0, ht0, hw.trans hcourse⟩

/-- A host write while idle keeps it (R70). -/
theorem Inv.poke {s : State} (h : Inv s) (hb : s.busy = false) (a : WordAddr) (w : Word) : Inv (poke s a w) := by
  obtain ⟨hdepths, hpending, hengine⟩ := poke_frame s a w
  refine inv_of_idle (by rwa [State.busy, hengine]) (dataInv_poke (h.dataInv hb) a w) ?_
  rw [hdepths, hpending]
  exact h.script

/-- A reset with canonical contents keeps it, whatever was running (R300). -/
theorem Inv.resetTo {s : State} (h : Inv s) {i o b : Buffer} (hwf : Event.wf s.depths (.reset i o b) = true) :
    Inv (resetTo i o b s) :=
  inv_of_idle rfl (dataInv_afterReset hwf _ _ _) h.script

/-! ### The invariant and the engine -/

/-- A command accepted while idle begins on its course (R120). -/
theorem Inv.accept {s : State} (h : Inv s) (hb : s.busy = false) (w : Word) : Inv (accept w s) where
  mem := h.mem
  script := h.script
  tree _ := treeShape_congr (h.dataInv hb).tree rfl rfl rfl rfl
  decLen := h.decLen
  stage := Nat.zero_le _
  running _ := ⟨rfl, rfl⟩
  cursor r hr := by cases hr; exact fits_init _
  course r hr := by cases hr; exact ⟨s, 0, hb, (h.dataInv hb).tree, rfl⟩

/-- The engine's own actions keep a command on its course. -/
theorem onCourse_advance {s : State} {w : Word} (h : s.onCourse w) : (advance s).onCourse w := by
  obtain ⟨s0, k, hb0, ht0, hcourse⟩ := h
  exact ⟨s0, k + 1, hb0, ht0, by rw [advanceMany_succ]; exact advance_congr hcourse⟩

/-- A command on its course ends with a tree of R47, whatever it did to NODE on its way: its end is that of the one-step
command. -/
theorem treeShape_of_completes {s : State} {w : Word} (h : s.onCourse w) (hb : s.busy = true)
    (hb' : (advance s).busy = false) : TreeShape (advance s) := by
  obtain ⟨s0, k, -, ht0, hcourse⟩ := h
  have hstep : (advance s).withoutHost = (advanceMany (k + 1) (accept w s0)).withoutHost := by
    rw [advanceMany_succ]; exact advance_congr hcourse
  have hend := advance_completes (fun _ => encode_of_decode) ht0 ((busy_of_withoutHost hcourse).symm.trans hb)
    ((busy_of_withoutHost hstep).symm.trans hb')
  exact treeShape_of_withoutHost hstep (treeShape_execWord ht0 hend).2

/-- The small steps of a word that is no CLEAR, BUILD or COMPRESS do not write the tree (R55, R79). -/
theorem keepsTree_loopsOfWord {w : Word}
    (h : ¬ (decode w = .ok .clear ∨ decode w = .ok .build ∨ decode w = .ok .compress)) :
    ∀ l ∈ loopsOfWord w, KeepsTree l := by
  intro l hl
  unfold loopsOfWord at hl
  rcases hd : decode w with e | i <;> rw [hd] at hl h
  · rw [List.mem_singleton.mp hl]
    exact keepsTree_require _
  · exact keepsTree_loopsOf i (fun e => h (.inl (e ▸ rfl))) (fun e => h (.inr (.inl (e ▸ rfl))))
      (fun e => h (.inr (.inr (e ▸ rfl)))) l hl

/-- One small step of a running command keeps the invariant. -/
theorem Inv.runLoop {s : State} {r : Running} {l : Loop} (h : Inv s) (he : s.engine = some r)
    (hl : l ∈ loopsOfWord r.word) (ha : advance s = runLoop l r s) : Inv (runLoop l r s) := by
  have hlaws := laws_loopsOfWord r.word l hl
  have hsafe := hlaws.safe s r.cursor ⟨h.mem, h.decLen, h.stage, h.cursor r he⟩
  obtain ⟨hdone, herr, -, hdepths, hpending⟩ := hlaws.status s r.cursor
  obtain ⟨hdone0, herr0⟩ := h.running (busy_of_engine he)
  have hcourse := onCourse_advance (h.course r he)
  rw [ha] at hcourse
  rw [runLoop_eq] at hcourse ⊢
  refine ⟨hsafe.mem, ?_, fun hr => ?_, hsafe.decLen, hsafe.stage, fun _ => ⟨hdone.trans hdone0, herr.trans herr0⟩, ?_, ?_⟩
  · show ∀ e ∈ (l s r.cursor).state.pending, Event.wf (l s r.cursor).state.depths e = true
    rw [hpending, hdepths]
    exact h.script
  · have hword := of_decide_eq_false hr
    rw [LoopOut.running_word] at hword
    obtain ⟨hnleaf, hcnt, hroot, hnode⟩ := keepsTree_loopsOfWord hword l hl s r.cursor
    refine treeShape_congr (h.tree ?_) hnleaf hcnt hroot hnode
    rw [State.rebuildsTree, he]
    exact decide_eq_false hword
  · intro r' hr'
    cases hr'
    rw [LoopOut.running_cursor]
    exact hsafe.cursor
  · intro r' hr'
    cases hr'
    rw [LoopOut.running_word]
    exact hcourse

/-- Every action of the engine keeps the invariant (R57). -/
theorem Inv.advance {s : State} (h : Inv s) : Inv (advance s) := by
  rcases he : s.engine with _ | r
  · rw [advance_idle (busy_eq_false_iff.mpr he)]
    exact h
  · rcases advance_cases he with ha | ⟨l, hl, -, -, ha⟩
    · have htree := treeShape_of_completes (h.course r he) (busy_of_engine he) (by rw [ha]; rfl)
      rw [ha] at htree ⊢
      refine inv_of_idle rfl ⟨?_, htree, ?_, ?_⟩ ?_
      · simpa [State.memWf] using h.mem
      · simpa using h.decLen
      · simpa using h.stage
      · simpa using h.script
    · rw [ha]
      exact h.runLoop he hl ha

/-- Every event keeps the invariant, if what a reset brings is canonical (R57, R302). -/
theorem Inv.handle {e : Event} {s t : State} (h : Inv s) (hwf : Event.wf s.depths e = true)
    (ht : handle e s = .next t) : Inv t := by
  cases effect_of_handle ht with
  | reset i o b => exact h.resetTo hwf
  | poke a w hb => exact h.poke hb a w
  | command w k hb => exact advanceMany_keeps (fun _ hu => hu.advance) k (h.accept hb w)
  | engine => exact h.advance
  | access hhost hpending => exact h.of_withoutHost hhost (hpending ▸ h.script)

/-- Settles O60: taking the event off the script keeps the invariant, and so does what the event does. -/
theorem stepKeepsTheInvariant : Obligations.StepKeepsTheInvariant := by
  intro s t h hstep
  rcases hp : s.pending with _ | ⟨e, rest⟩
  · rw [step_empty hp] at hstep
    cases hstep
    exact h.advance
  · rw [step_event hp] at hstep
    have hscript := h.script
    rw [hp] at hscript
    obtain ⟨hwf, hrest⟩ := List.forall_mem_cons.mp hscript
    have htaken : Inv { s with pending := rest } := h.of_withoutHost rfl hrest
    exact htaken.handle hwf hstep

end Sys2Proof.Machine

/-! PROOFS. BUILD leaves a strictly binary tree over its leaves (spec/10_state.md R56; spec/42_build.md R160). -/

namespace Sys2Proof.Machine

/-- Merging does not change a leaf's symbol (R156). -/
theorem sym_treeOf_leaf (ft : Vector Word 256) {i : Nat} (h : i < (leavesOf ft).length) :
    (nd (treeOf ft) i).sym = (nd (leavesOf ft) i).sym := by
  rw [← (forest_treeOf ft).leaf i h]

/-- R56 (a): the symbols of the leaves are those whose count is not zero. -/
theorem exists_leaf_iff (ft : Vector Word 256) (x : Byte) : ftAt ft x ≠ 0#32 ↔
    ∃ n : NodeIdx, n.toNat < (leavesOf ft).length ∧ (nodeAt (nodeMemory (treeOf ft)) n).sym = x := by
  constructor
  · intro hx
    obtain ⟨i, hi⟩ := List.mem_iff_getElem?.mp (mem_leavesOf.mpr ⟨x, hx, rfl⟩)
    have hlt := (List.getElem?_eq_some_iff.mp hi).1
    have hi9 : (BitVec.ofNat 9 i).toNat = i := by
      rw [BitVec.toNat_ofNat]; exact Nat.mod_eq_of_lt (by have := leavesOf_length_le ft; omega)
    refine ⟨BitVec.ofNat 9 i, by rwa [hi9], ?_⟩
    rw [nodeAt_treeOf, hi9, sym_treeOf_leaf ft hlt, nd_of_getElem? hi]
    rfl
  · rintro ⟨n, hlt, rfl⟩
    obtain ⟨x, hx, hleaf⟩ := nd_leaf ft hlt
    have hsym : (nd (treeOf ft) n.toNat).sym = x := congrArg Node.sym hleaf
    rwa [nodeAt_treeOf, hsym]

/-- R56 (e): the root weighs the sum of all counts. -/
theorem weight_rootOf_treeOf {ft : Vector Word 256} (h : 1 ≤ (leavesOf ft).length) :
    (nodeAt (nodeMemory (treeOf ft)) (rootOf (treeOf ft))).weight.toNat = totalCount ft := by
  rw [nodeAt_treeOf, rootOf_treeOf ft h, root_weight ft h]

/-- Settles O17: the shape is that of every table's tree; its leaves and its root are the two lemmas above. -/
theorem buildLeavesStrictlyBinaryTree : Obligations.BuildLeavesStrictlyBinaryTree := by
  intro s
  have hnleaf : (State.completed 0x00000003#32 (buildBody s).1).nleaf.toNat = (leavesOf s.ft).length :=
    leavesOf_length_toNat s.ft
  refine ⟨_, exec_build s, treeShape_of_build (ft := s.ft) rfl rfl rfl rfl, fun x => ?_, fun h => ?_⟩
  · rw [hnleaf]
    exact exists_leaf_iff s.ft x
  · exact weight_rootOf_treeOf (hnleaf ▸ h)

end Sys2Proof.Machine

/-! PROOFS. What a command leaves alone outside its results (spec/20_memory.md R79): GENCODES, DECODE and COMPRESS. -/

namespace Sys2Proof.Machine

/-! ### The status of a completion -/

/-- ERR shows no error only after a completion that was given none (R122, R276). -/
theorem raised_eq_none_of_complete_err {r : Option Raise} {s : State} (h : (complete r s).err = none) : r = none := by
  cases r with
  | none => rfl
  | some r => cases h

/-! ### GENCODES -/

/-- Settles O20: GENCODES's body writes CT and raises nothing. -/
theorem gencodesWritesOnlyTheCodeTable : Obligations.GencodesWritesOnlyTheCodeTable := by
  intro s
  have hc : complete none (gencodesBody (accept 0x00000004#32 s)).1 =
      State.completed 0x00000004#32 { s with ct := codeTable s.node s.root } :=
    completed_of (w := 0x00000004#32) (t := (gencodesBody (accept 0x00000004#32 s)).1) rfl rfl rfl rfl
  exact ⟨codeTable s.node s.root, congrArg Host.Outcome.next ((command_ok rfl).trans hc)⟩

/-! ### DECODE -/

/-- A body that writes DBUF and DEC_LEN and nothing else: DBUF below its depth and, when it raises nothing, below DEC_LEN. -/
def WritesOnlyDecoded (b : Body) : Prop :=
  ∀ s : State, ∃ (dbuf : Buffer) (n : BitVec 17) (r : Option Raise),
    b s = ({ s with dbuf := dbuf, decLen := n }, r) ∧
    (∀ j, s.depths.dbuf.val ≤ j → dbuf.read j = s.dbuf.read j) ∧
    (r = none → n.toNat ≤ s.depths.dbuf.val ∧ ∀ j, n.toNat ≤ j → dbuf.read j = s.dbuf.read j)

/-- The frame both modes share is such a body, whatever the mode does with a bit (R220, R225). -/
theorem writesOnlyDecoded_unpackBody {γ : Type} (act : State → γ → Bool → Act γ) (init : State → γ)
    (mid : State → γ → Bool) : WritesOnlyDecoded (unpackBody act init mid) := by
  intro s
  by_cases hlen : s.bitLen.toNat ≤ 8 * s.depths.obuf.val
  · have hdec : Decoded s.depths.dbuf.val s.dbuf (unpacked act init mid s) :=
      (decoded_unpackBits s.obuf s.dbuf s.bitLen.toNat).endOfStream (mid s)
    have habove : ∀ j, s.depths.dbuf.val ≤ j → (unpacked act init mid s).dbuf.read j = s.dbuf.read j :=
      fun j hj => hdec.rest j (hdec.n.trans hj)
    rcases hr : (unpacked act init mid s).raised with _ | r
    · have hn : (BitVec.ofNat 17 (unpacked act init mid s).n).toNat = (unpacked act init mid s).n := by
        rw [BitVec.toNat_ofNat]
        exact Nat.mod_eq_of_lt (by have := hdec.n; have := s.depths.dbuf.isLt; omega)
      refine ⟨_, _, _, unpackBody_ok hlen hr, habove, fun _ => ?_⟩
      rw [hn]
      exact ⟨hdec.n, hdec.rest⟩
    · exact ⟨_, _, _, unpackBody_raised hlen hr, habove, fun h => by cases h⟩
  · exact ⟨s.dbuf, s.decLen, _, unpackBody_bad (Nat.lt_of_not_le hlen), fun _ _ => rfl, fun h => by cases h⟩

/-- Settles O29: both modes have the body `unpackBody`, and completion adds the status. -/
theorem decodeWritesOnlyItsOutput : Obligations.DecodeWritesOnlyItsOutput := by
  intro i s hi
  have hwrites : WritesOnlyDecoded (runBodies (phasesOf i)) := by
    rcases hi with rfl | rfl
    all_goals
      rw [phasesOf, runBodies_one]
      exact writesOnlyDecoded_unpackBody _ _ _
  obtain ⟨dbuf, n, r, hb, habove, hbelow⟩ := hwrites (accept (encode i) s)
  have hexec := exec_eq i s
  cases r with
  | none =>
    rw [command_ok hb, completed_of rfl rfl rfl rfl] at hexec
    exact ⟨_, dbuf, n, hexec, .inl rfl, habove, fun _ => hbelow rfl⟩
  | some r =>
    rw [command_raised hb, failed_of (n := r.info.toNat) rfl rfl (by rw [BitVec.ofNat_toNat, BitVec.setWidth_eq])] at hexec
    exact ⟨_, dbuf, n, hexec, .inr ⟨r.kind, r.info.toNat, rfl⟩, habove, fun h => by cases h⟩

/-! ### COMPRESS -/

/-- `s` with everything COMPRESS may write taken from `t`, and the engine idle (R79, R260). -/
def State.withCompressed (s t : State) : State :=
  { s with
    done := t.done, serr := t.serr, err := t.err, op := t.op, stage := t.stage, errInfo := t.errInfo
    ft := t.ft, node := t.node, nodeCnt := t.nodeCnt, nleaf := t.nleaf, root := t.root, ct := t.ct
    obuf := t.obuf, bitLen := t.bitLen
    metOrigBits := t.metOrigBits, metEncBits := t.metEncBits, metDiff := t.metDiff, metRed := t.metRed
    engine := none }

/-- No stage writes anything else (R140 to R250). -/
theorem compressStages_withCompressed (z : State) :
    ∀ b ∈ compressStages, ∀ s, (b s).1.withCompressed z = s.withCompressed z := by
  intro b hb s
  simp only [compressStages, List.mem_cons, List.not_mem_nil, or_false] at hb
  rcases hb with rfl | rfl | rfl | rfl | rfl
  · unfold inStage countBody
    split <;> rfl
  · rfl
  · rfl
  · unfold inStage encodeBody
    dsimp only
    split
    · rfl
    · split <;> rfl
  · rfl

/-- Completion writes the status only, which is among what COMPRESS may write. -/
theorem complete_withCompressed (r : Option Raise) (s z : State) :
    (complete r s).withCompressed z = s.withCompressed z := by
  cases r <;> rfl

/-- COMPRESS as a whole writes nothing else. -/
theorem command_compress_eq_withCompressed (w : Word) (s : State) :
    command w (runBodies compressStages) s = s.withCompressed (command w (runBodies compressStages) s) := by
  have hkept : ∀ z, (command w (runBodies compressStages) s).withCompressed z = s.withCompressed z := fun z =>
    calc (command w (runBodies compressStages) s).withCompressed z
        = (runBodies compressStages (accept w s)).1.withCompressed z := complete_withCompressed _ _ z
      _ = (accept w s).withCompressed z :=
          runBodies_keeps (·.withCompressed z) compressStages (compressStages_withCompressed z) _
      _ = s.withCompressed z := rfl
  exact hkept (command w (runBodies compressStages) s)

/-- A body that writes OBUF below its depth and, when it raises nothing, below OUT_BYTES only. -/
def WritesOnlyStream (b : Body) : Prop :=
  ∀ s : State, (∀ j, s.depths.obuf.val ≤ j → (b s).1.obuf.read j = s.obuf.read j) ∧
    ((b s).2 = none → ∀ j, (b s).1.outBytes ≤ j → (b s).1.obuf.read j = s.obuf.read j)

/-- ENCODE is such a body (R201, R205). -/
theorem writesOnlyStream_encodeBody : WritesOnlyStream encodeBody := by
  intro s
  by_cases hlen : s.inLen.toNat ≤ s.depths.ibuf.val
  · have hrest := fun j => packSymbols_rest (d := s.depths.obuf.val) (ct := s.ct) (ibuf := s.ibuf) (obuf := s.obuf)
      s.inLen.toNat (j := j)
    rcases hr : (packSymbols s.depths.obuf.val s.ct s.ibuf s.obuf s.inLen.toNat).raised with _ | r
    · obtain ⟨hcodes, hfit⟩ := packSymbols_ok hr
      have hp := packed_symbols (obuf := s.obuf) hcodes hfit
      rw [encodeBody_ok hlen hr]
      refine ⟨fun j hj => (flushed_above (hrest j hj).2 hj).trans (hrest j hj).1, fun _ j hj => hp.flushed_rest ?_⟩
      have hnb : (BitVec.ofNat 20 (streamOf s.ct (symbolsOf s.ibuf s.inLen.toNat)).length).toNat =
          (streamOf s.ct (symbolsOf s.ibuf s.inLen.toNat)).length := by
        rw [BitVec.toNat_ofNat]
        exact Nat.mod_eq_of_lt (by have := s.depths.obuf.isLt; omega)
      rw [State.outBytes, hp.nb, hnb] at hj
      exact hj
    · rw [encodeBody_raised hlen hr]
      exact ⟨fun j hj => (hrest j hj).1, fun h => by cases h⟩
  · rw [encodeBody_bad (Nat.lt_of_not_le hlen)]
    exact ⟨fun _ _ => rfl, fun _ _ _ => rfl⟩

/-- A first body that leaves OBUF alone changes nothing of what the others write of it. -/
theorem WritesOnlyStream.after_keeping {b : Body} {bs : List Body} (hb : ∀ s, (b s).1.obuf = s.obuf ∧ (b s).1.depths = s.depths)
    (h : WritesOnlyStream (runBodies bs)) : WritesOnlyStream (runBodies (b :: bs)) := by
  intro s
  obtain ⟨hobuf, hdepths⟩ := hb s
  rcases hbs : b s with ⟨t, _ | r⟩ <;> rw [hbs] at hobuf hdepths
  · have hrest := h t
    rw [hobuf, hdepths] at hrest
    simpa only [runBodies, hbs] using hrest
  · simp only [runBodies, hbs]
    exact ⟨fun j _ => by rw [hobuf], fun hr => by cases hr⟩

/-- Nor do later bodies that leave OBUF and BIT_LEN alone. -/
theorem WritesOnlyStream.before_keeping {b : Body} {bs : List Body} (h : WritesOnlyStream b)
    (hbs : ∀ s, (runBodies bs s).1.obuf = s.obuf ∧ (runBodies bs s).1.bitLen = s.bitLen) :
    WritesOnlyStream (runBodies (b :: bs)) := by
  intro s
  have hb := h s
  rcases hbt : b s with ⟨t, _ | r⟩ <;> rw [hbt] at hb <;> simp only [runBodies, hbt]
  · obtain ⟨hobuf, hbitLen⟩ := hbs t
    rw [State.outBytes, hobuf, hbitLen]
    exact ⟨hb.1, fun _ => hb.2 rfl⟩
  · exact hb

/-- The stages of COMPRESS: the three before ENCODE leave OBUF alone, and METRICS after it OBUF and BIT_LEN. -/
theorem writesOnlyStream_compress : WritesOnlyStream (runBodies compressStages) := by
  have hcount : ∀ s, (countBody s).1.obuf = s.obuf ∧ (countBody s).1.depths = s.depths := by
    intro s
    unfold countBody
    split <;> exact ⟨rfl, rfl⟩
  have hencode : WritesOnlyStream (inStage 3#3 encodeBody) := fun s => writesOnlyStream_encodeBody { s with stage := 3#3 }
  have hfrom3 : WritesOnlyStream (runBodies [inStage 3#3 encodeBody, inStage 4#3 metricsBody]) :=
    hencode.before_keeping fun _ => ⟨rfl, rfl⟩
  exact .after_keeping (fun s => hcount { s with stage := 0#3 })
    (.after_keeping (fun _ => ⟨rfl, rfl⟩) (.after_keeping (fun _ => ⟨rfl, rfl⟩) hfrom3))

/-- Settles O44: nothing else is written by any stage, and of OBUF what ENCODE writes. -/
theorem compressFrame : Obligations.CompressFrame := by
  intro s
  obtain ⟨habove, hbelow⟩ := writesOnlyStream_compress (accept 0x00000008#32 s)
  refine ⟨_, rfl, command_compress_eq_withCompressed _ s, fun j hj => ?_, fun herr j hj => ?_⟩
  · exact (congrArg (Buffer.read · j) (complete_obuf _ _)).trans (habove j hj)
  · refine (congrArg (Buffer.read · j) (complete_obuf _ _)).trans (hbelow (raised_eq_none_of_complete_err herr) j ?_)
    rwa [command, complete_bitLen] at hj

end Sys2Proof.Machine

/-! PROOFS. The byte buffers on the host port (spec/20_memory.md R60, R61, R64). -/

namespace Sys2Proof.Machine

/-- Byte `j` of a buffer word is element `4k + j` (R64). -/
theorem extractLsb'_bufferWord (d : Nat) (m : Buffer) (k : Nat) {j : Nat} (hj : j < 4) :
    (bufferWord d m k).extractLsb' (8 * j) 8 = hostByte d m (4 * k + j) := by
  apply BitVec.eq_of_getLsbD_eq
  intro i hi
  simp only [bufferWord, BitVec.getLsbD_extractLsb', BitVec.getLsbD_append, hi, decide_true, Bool.true_and]
  match j with
  | 0 => rw [if_pos (by omega), show 8 * 0 + i = i by omega, Nat.add_zero]
  | 1 => rw [if_neg (by omega), if_pos (by omega), show 8 * 1 + i - 8 = i by omega]
  | 2 => rw [if_neg (by omega), if_neg (by omega), if_pos (by omega), show 8 * 2 + i - 8 - 8 = i by omega]
  | 3 => rw [if_neg (by omega), if_neg (by omega), if_neg (by omega), show 8 * 3 + i - 8 - 8 - 8 = i by omega]

/-- Where the words of a buffer stand in the map (R60). -/
def Space.base : Space → Nat
  | .ibuf => 16384
  | .obuf => 32768
  | .dbuf => 49152

theorem locate_base (sp : Space) {k : Nat} (hk : k < 16384) : locate (BitVec.ofNat 16 (sp.base + k)) = .buf sp k := by
  cases sp with
  | ibuf => exact loc_buf 16384 hk .ibuf (.inl ⟨rfl, rfl⟩)
  | obuf => exact loc_buf 32768 hk .obuf (.inr ⟨rfl, rfl⟩)
  | dbuf =>
    have e : (BitVec.ofNat 16 (49152 + k)).toNat = 49152 + k := by
      rw [BitVec.toNat_ofNat]; exact Nat.mod_eq_of_lt (by omega)
    rw [Space.base, locate_dbuf (by omega), e, Nat.add_sub_cancel_left]

theorem peek_base (s : State) (sp : Space) {k : Nat} (hk : k < 16384) :
    peek s (BitVec.ofNat 16 (sp.base + k)) = bufferWord (s.depth sp) (s.buffer sp) k := by
  unfold peek; rw [locate_base sp hk]; rfl

theorem poke_base (s : State) (sp : Space) {k : Nat} (hk : k < 16384) (w : Word) :
    poke s (BitVec.ofNat 16 (sp.base + k)) w = writeLoc s w (.buf sp k) := by
  unfold poke; rw [locate_base sp hk]

/-- An element that exists, as a byte of its word (R64). -/
theorem extractLsb'_peek_base (s : State) (sp : Space) {k j : Nat} (hk : k < 16384) (hj : j < 4)
    (hd : 4 * k + j < s.depth sp) :
    (peek s (BitVec.ofNat 16 (sp.base + k))).extractLsb' (8 * j) 8 = (s.buffer sp).read (4 * k + j) := by
  rw [peek_base s sp hk, extractLsb'_bufferWord _ _ _ hj]
  exact if_pos hd

/-- Settles O53: reading by the bytes of a word, writing by what `putBufferWord` does to each element. -/
theorem bufferWordsAreLittleEndian : Obligations.BufferWordsAreLittleEndian := by
  refine ⟨fun s k j hk hj => ⟨?_, ?_, ?_⟩, fun s k w hk => ⟨⟨_, poke_base s .ibuf hk w, ?_, fun h => ?_⟩,
    ⟨_, poke_base s .obuf hk w, ?_, fun h => ?_⟩⟩⟩
  · exact extractLsb'_peek_base s .ibuf hk hj
  · exact extractLsb'_peek_base s .obuf hk hj
  · exact extractLsb'_peek_base s .dbuf hk hj
  · exact putBufferWord_read _ _ k w
  · exact (peek_base _ .ibuf hk).trans (bufferWord_put _ _ k w h)
  · exact putBufferWord_read _ _ k w
  · exact (peek_base _ .obuf hk).trans (bufferWord_put _ _ k w h)

end Sys2Proof.Machine

/-! PROOFS. The host port while BUSY (spec/20_memory.md R72; spec/40_control.md R125). -/

namespace Sys2Proof.Machine

theorem startCommand_busy {s : State} (h : s.busy = true) (w : Word) : startCommand w s = { s with ovr := true } := by
  unfold startCommand; rw [h, if_pos rfl]; rfl

/-- Settles O54: both forms of a write are dropped. -/
theorem busyWriteOnlySetsOverrun : Obligations.BusyWriteOnlySetsOverrun := by
  intro s a w rest hb hp
  rcases hp with hp | hp <;> rw [step_event hp]
  · exact hostWrite_busy (s := { s with pending := rest }) hb a w
  · exact congrArg Host.Outcome.next (startCommand_busy (s := { s with pending := rest }) hb w)

/-- A place of R72 (a) is read as it is, idle or BUSY. -/
theorem hostRead_readable {a : WordAddr} (h : readableWhileBusy (locate a) = true) (s : State) :
    hostRead a s = { s with answers := .word (peek s a) :: s.answers } := by
  unfold hostRead; rw [h, Bool.not_true, Bool.and_false]; rfl

/-- Any other place answers the next free value while BUSY (R72 (b), U4). -/
theorem hostRead_unreadable {a : WordAddr} (h : readableWhileBusy (locate a) = false) {s : State} (hb : s.busy = true) :
    hostRead a s =
      { s with answers := .word (Config.busyWord s.freeReads) :: s.answers, freeReads := s.freeReads + 1 } := by
  unfold hostRead; rw [h, hb]; rfl

/-- The places of R72 (a): ID, STATUS, CTRL and the CAP registers. -/
theorem readableWhileBusy_locate {a : WordAddr}
    (h : a = 0#16 ∨ a = 2#16 ∨ a = 3#16 ∨ a = 16#16 ∨ a = 17#16 ∨ a = 18#16) :
    readableWhileBusy (locate a) = true := by
  rcases h with rfl | rfl | rfl | rfl | rfl | rfl <;> rfl

/-- Settles O55: a read is one of a place of R72 (a) or of another. -/
theorem busyReadsDoNotDisturb : Obligations.BusyReadsDoNotDisturb := by
  intro s a rest hb hp
  have hreadable : readableWhileBusy (locate a) = true →
      step s = .next { s with pending := rest, answers := .word (peek s a) :: s.answers } := fun hl =>
    (step_event hp).trans (congrArg Host.Outcome.next (hostRead_readable hl { s with pending := rest }))
  refine ⟨hreadable ∘ readableWhileBusy_locate, ?_⟩
  cases hl : readableWhileBusy (locate a) with
  | true => exact ⟨_, s.freeReads, hreadable hl⟩
  | false =>
    exact ⟨_, s.freeReads + 1,
      (step_event hp).trans (congrArg Host.Outcome.next (hostRead_unreadable hl (s := { s with pending := rest }) hb))⟩

end Sys2Proof.Machine

/-! PROOFS. The decoder (spec/30_encoding.md R94 to R96): it undoes the encoder, it rejects the words of R94 and no others,
and a rejected word completes with ILLEGAL_CMD. -/

namespace Sys2Proof

/-- Decoding undoes encoding, on each of the ten words (R95). -/
theorem decode_encode (i : Instr) : decode (encode i) = .ok i := by cases i <;> rfl

/-- Settles O2: `decode_encode` one way, `encode_of_decode` the other. -/
theorem decodeAndEncodeAgree : Obligations.DecodeAndEncodeAgree :=
  ⟨fun i _ => decode_encode i, fun _ _ => encode_of_decode⟩

/-- Settles O1: each word written out is the encoder's word of its command. -/
theorem commandWordsDecodeAsTabulated : Obligations.CommandWordsDecodeAsTabulated :=
  ⟨decode_encode .nop, decode_encode .clear, decode_encode .count, decode_encode .build, decode_encode .gencodes,
    decode_encode .encode, decode_encode .decodeT, decode_encode .decodeC, decode_encode .metrics,
    decode_encode .compress⟩

/-- The opcodes are 0 to 8 (R95). -/
theorem plainCommand_eq_none_iff {n : Nat} : plainCommand n = none ↔ 8 < n := by
  match n with
  | 0 | 1 | 2 | 3 | 4 | 5 | 6 | 7 | 8 => exact iff_of_false nofun (by omega)
  | _ + 9 => exact iff_of_true rfl (by omega)

/-- OP 0x06 is the one opcode of DECODE (R92, R95). -/
theorem plainCommand_eq_decodeT_iff {op : Byte} : plainCommand op.toNat = some .decodeT ↔ op = 0x06#8 :=
  ⟨fun h => (opcodeOf_of_plainCommand h).1.symm, fun h => h ▸ rfl⟩

/-- The decoder rejects a word by one of the three clauses of R94, and only so. -/
theorem decode_error_iff {w : Word} : (∃ e, decode w = .error e) ↔
    (zeroField w ≠ 0#23 ∨ 8 < (opField w).toNat ∨ (modeField w = true ∧ opField w ≠ 0x06#8)) := by
  rw [← plainCommand_eq_none_iff, ne_eq (opField w), ← plainCommand_eq_decodeT_iff]
  unfold decode
  by_cases hz : zeroField w = 0#23
  · cases hp : plainCommand (opField w).toNat with
    | none => simp [hz]
    | some i =>
      cases hm : modeField w with
      | false => simp [hz]
      | true => by_cases hi : i = .decodeT <;> simp [hz, hi]
  · simp [hz]

/-- Settles O3: the fields of `decode_error_iff` are the bits of the rule. -/
theorem illegalWordsAreThoseOfTheRule : Obligations.IllegalWordsAreThoseOfTheRule := fun _ => decode_error_iff

end Sys2Proof

namespace Sys2Proof.Machine

/-- A word that decodes to no command is handled as illegal (R96). -/
theorem execWord_of_illegal {w : Word} (h : ∀ i, decode w ≠ .ok i) (s : State) : execWord w s = .next (illegal w s) := by
  unfold execWord
  cases hd : decode w with
  | ok i => exact absurd hd (h i)
  | error e => rfl

/-- An illegal word's completion is that of a command whose body raised ILLEGAL_CMD and wrote nothing (R96, R275). -/
theorem illegal_eq_failed (w : Word) (s : State) : illegal w s = State.failed w .illegalCmd w.toNat s := by
  have hinfo : w = BitVec.ofNat 32 w.toNat := by rw [BitVec.ofNat_toNat, BitVec.setWidth_eq]
  calc illegal w s = complete (some ⟨.illegalCmd, w⟩) (accept w s) := command_raised rfl
    _ = State.failed w .illegalCmd w.toNat (accept w s) := failed_of rfl rfl hinfo
    _ = State.failed w .illegalCmd w.toNat s := rfl

/-- Settles O5: an idle write to CMD of a word that is rejected. -/
theorem illegalWordCompletesWithIllegalCmd : Obligations.IllegalWordCompletesWithIllegalCmd := by
  intro s w rest hb hp hd
  refine ⟨?_, rfl⟩
  rw [step_write_cmd hb hp, execWord_of_illegal hd, illegal_eq_failed]

end Sys2Proof.Machine

/-! PROOFS. The images of FT, NODE and CT on the host port (spec/30_encoding.md R98 to R100). -/

namespace Sys2Proof.Machine

/-! ### FT -/

theorem peek_ft (s : State) (x : Byte) : peek s (BitVec.ofNat 16 (256 + x.toNat)) = ftAt s.ft x := by
  unfold peek; rw [loc_ft]; rfl

theorem poke_ft (s : State) (x : Byte) (w : Word) :
    poke s (BitVec.ofNat 16 (256 + x.toNat)) w = { s with ft := ftSet s.ft x w } := by
  unfold poke; rw [loc_ft]; rfl

/-- Settles O50: the word is the entry, read and written. -/
theorem frequencyTableReadsBack : Obligations.FrequencyTableReadsBack := by
  refine fun s x w => ⟨peek_ft s x, ftSet s.ft x w, poke_ft s x w, ?_, fun y => ftAt_ftSet s.ft x y w⟩
  rw [poke_ft, peek_ft, ftAt_ftSet, if_pos rfl]

/-! ### CT -/

/-- Words 9 to 15 of an entry hold nothing (R99). -/
theorem Code.image_hole (c : Code) {k : Nat} (h : 9 ≤ k) : c.image k = 0#32 := by
  rw [Code.image, if_neg (by omega), if_neg (by omega)]

theorem Code.writeWord_hole (c : Code) {k : Nat} (h : 9 ≤ k) (w : Word) : c.writeWord k w = c := by
  rw [Code.writeWord, if_neg (by omega), if_neg (by omega)]

/-- Writing to an entry what it holds changes nothing. -/
theorem ctSet_ctAt (t : Vector Code 256) (x : Byte) : ctSet t x (ctAt t x) = t := by
  refine ct_ext fun y => ?_
  rw [ctAt_ctSet]
  split
  · next h => rw [h]
  · rfl

/-- The sixteen words of an entry are its image, the hole above word 8 included (R99). -/
theorem peek_ct (s : State) (x : Byte) {k : Nat} (hk : k < 16) :
    peek s (BitVec.ofNat 16 (4096 + 16 * x.toNat + k)) = (ctAt s.ct x).image k := by
  unfold peek
  rw [loc_ct x hk]
  split
  · rfl
  · exact (Code.image_hole _ (by omega)).symm

/-- A write to one of the sixteen words of an entry writes that word of that entry, in the hole too, where there is none
(R61, R99). -/
theorem poke_ct (s : State) (x : Byte) {k : Nat} (hk : k < 16) (w : Word) :
    poke s (BitVec.ofNat 16 (4096 + 16 * x.toNat + k)) w =
      { s with ct := ctSet s.ct x ((ctAt s.ct x).writeWord k w) } := by
  unfold poke
  rw [loc_ct x hk]
  split
  · rfl
  · rw [Code.writeWord_hole _ (by omega), ctSet_ctAt]; rfl

/-- `image_write` for all sixteen words of an entry. -/
theorem image_writeWord (c : Code) (k j : Nat) (w : Word) : (c.writeWord k w).image j =
    if k = j then
      (if k = 0 then w &&& 0x000000FF#32 else if k < 8 then w else if k = 8 then w &&& 0x7FFFFFFF#32 else 0#32)
    else c.image j := by
  by_cases hj : j < 9
  · by_cases hk : k < 9
    · rw [image_write c k j w hk hj]
      by_cases hk8 : k < 8
      · simp [hk8]
      · simp [show k = 8 by omega]
    · rw [Code.writeWord_hole c (by omega), if_neg (by omega)]
  · rw [Code.image_hole _ (by omega), Code.image_hole c (by omega)]
    by_cases hkj : k = j
    · rw [if_pos hkj, if_neg (by omega), if_neg (by omega), if_neg (by omega)]
    · rw [if_neg hkj]

/-- Settles O51: a read is the entry's image, a write one of `writeWord`. -/
theorem codeTableReadsBack : Obligations.CodeTableReadsBack := by
  refine ⟨fun s x => ⟨peek_ct s x (k := 0) (by omega), fun k b h1 h8 hb => ?_, fun k h9 h16 => ?_⟩,
    fun s x y k j w hk hj => ⟨⟨_, poke_ct s x hk w⟩, ?_⟩⟩
  · rw [peek_ct s x (by omega), image_bit _ (by omega) (by omega) hb]
  · rw [peek_ct s x h16, Code.image_hole _ h9]
  · rw [poke_ct s x hk, peek_ct _ y hj, peek_ct s y hj, ctAt_ctSet]
    by_cases hxy : y = x
    · subst hxy
      simp only [if_true, true_and]
      exact image_writeWord _ k j w
    · rw [if_neg hxy, if_neg (fun h => hxy h.1.symm)]

/-! ### NODE -/

theorem peek_node (s : State) {n : NodeIdx} (hn : n.toNat < 511) {k : Nat} (hk : k < 4) :
    peek s (BitVec.ofNat 16 (2048 + 4 * n.toNat + k)) = (nodeAt s.node n).image k := by
  unfold peek; rw [loc_node n hn hk]; rfl

/-- Word 0 of a NODE entry: LEAF, ACTIVE and SYM (R98). -/
theorem Node.image_flags (n : Node) :
    n.image 0 = BitVec.ofNat 32 (n.leaf.toNat + 2 * n.active.toNat + 256 * n.sym.toNat) := by
  apply BitVec.eq_of_toNat_eq
  simp only [Node.image, toNat_append_eq, BitVec.toNat_ofBool, BitVec.toNat_ofNat]
  have := n.sym.isLt
  have := n.leaf.toNat_lt
  have := n.active.toNat_lt
  omega

/-- Words 1 and 2 of a NODE entry: the 40 bits of WEIGHT (R98). -/
theorem Node.image_weight (n : Node) : (n.image 1).toNat + 2 ^ 32 * (n.image 2).toNat = n.weight.toNat := by
  have := n.weight.isLt
  simp only [Node.image, toNat_append_eq, BitVec.extractLsb'_toNat, BitVec.toNat_ofNat, Nat.shiftRight_eq_div_pow]
  omega

/-- Word 3 of a NODE entry: LEFT and RIGHT (R98). -/
theorem Node.image_children (n : Node) :
    n.image 3 = BitVec.ofNat 32 (n.left.toNat + 65536 * n.right.toNat) := by
  apply BitVec.eq_of_toNat_eq
  simp only [Node.image, toNat_append_eq, BitVec.toNat_ofNat]
  have := n.left.isLt
  have := n.right.isLt
  omega

/-- Settles O52: the four words are the node's image. -/
theorem nodeImageHasTheFields : Obligations.NodeImageHasTheFields := by
  intro s n hn
  refine ⟨?_, ?_, ?_⟩
  · exact (peek_node s hn (k := 0) (by omega)).trans (Node.image_flags _)
  · rw [peek_node s hn (k := 1) (by omega), peek_node s hn (k := 2) (by omega)]
    exact Node.image_weight _
  · exact (peek_node s hn (k := 3) (by omega)).trans (Node.image_children _)

end Sys2Proof.Machine

/-! PROOFS. The life of a command (spec/40_control.md R120 to R126): what NOP and CLEAR leave, what every completion
shows, and that no event stops the machine (R121, R270). -/

namespace Sys2Proof.Machine

/-! ### NOP and CLEAR -/

/-- A command whose body raises nothing and keeps the status of acceptance completes over what the body left (R126). -/
theorem command_eq_completed {w : Word} {body : Body} {s t : State} (h : body (accept w s) = (t, none))
    (he : t.err = none) (hi : t.errInfo = 0#32) (ho : t.op = opField w) (hs : t.stage = 0#3) :
    command w body s = State.completed w t :=
  (command_ok h).trans (completed_of he hi ho hs)

/-- Settles O9: NOP's body does nothing, and completion overwrites all that acceptance wrote. -/
theorem nopWritesOnlyStatus : Obligations.NopWritesOnlyStatus := fun s =>
  congrArg Host.Outcome.next (command_eq_completed (t := accept 0x00000000#32 s) rfl rfl rfl rfl rfl)

/-- Settles O10: CLEAR's body is these assignments, and it raises nothing. -/
theorem clearRestoresResetValues : Obligations.ClearRestoresResetValues := fun s =>
  congrArg Host.Outcome.next
    (command_eq_completed (t := (clearBody (accept 0x00000001#32 s)).1) rfl rfl rfl rfl rfl)

/-! ### Every command -/

/-- OP of a command's word is its opcode (R95). -/
theorem opField_encode (i : Instr) : opField (encode i) = opcodeOf i := by
  obtain ⟨-, -, hop⟩ := fields_of_decode (decode_encode i)
  exact hop

/-- The status of `u` is still what the acceptance of command `i` in `s` made it (R120), but for STAGE, which COMPRESS
writes (R261), and for SERR, OVR and IE, which CLEAR writes (R124). -/
structure ShowsAcceptance (i : Instr) (s u : State) : Prop where
  op : u.op = opcodeOf i
  err : u.err = none
  errInfo : u.errInfo = 0#32
  stage : i ≠ .compress → u.stage = 0#3
  sticky : i ≠ .clear → u.serr = s.serr ∧ u.ovr = s.ovr ∧ u.ie = s.ie

theorem showsAcceptance_accept (i : Instr) (s : State) : ShowsAcceptance i s (accept (encode i) s) :=
  ⟨opField_encode i, rfl, rfl, fun _ => rfl, fun _ => ⟨rfl, rfl, rfl⟩⟩

/-- No body of the command changes that (R122). -/
theorem ShowsAcceptance.body {i : Instr} {s u : State} (h : ShowsAcceptance i s u) {b : Body} (hb : b ∈ phasesOf i) :
    ShowsAcceptance i s (b u).1 := by
  obtain ⟨hop, -, herr, hinfo, -, -, -, -, hstage, hsticky, -⟩ := body_status i b hb u
  refine ⟨hop.trans h.op, herr.trans h.err, hinfo.trans h.errInfo, fun hi => (hstage hi).trans (h.stage hi),
    fun hi => ?_⟩
  obtain ⟨hserr, hovr, hie⟩ := hsticky hi
  rw [hserr, hovr, hie]
  exact h.sticky hi

/-- What each body of a sequence preserves, the sequence preserves, wherever it stops. -/
theorem runBodies_preserves {P : State → Prop} {bs : List Body} (hbs : ∀ b ∈ bs, ∀ s, P s → P (b s).1)
    {s : State} (h : P s) : P (runBodies bs s).1 := by
  induction bs generalizing s with
  | nil => exact h
  | cons b bs ih =>
    have hb : P (b s).1 := hbs b List.mem_cons_self s h
    unfold runBodies
    split
    · next hbs' => rwa [hbs'] at hb
    · next hbs' =>
      rw [hbs'] at hb
      exact ih (fun b' hb' => hbs b' (List.mem_cons_of_mem b hb')) hb

/-- R126: a command answers a completion, over a state whose status is that of acceptance. -/
theorem exec_eq_complete (i : Instr) (s : State) :
    ∃ (r : Option Raise) (u : State), exec i s = .next (complete r u) ∧ ShowsAcceptance i s u :=
  ⟨_, _, exec_eq i s, runBodies_preserves (fun _ hb _ h => h.body hb) (showsAcceptance_accept i s)⟩

/-- ERR after a completion is the kind of what was raised (R122). -/
theorem complete_err_eq_map {r : Option Raise} {s : State} (h : s.err = none) :
    (complete r s).err = r.map Raise.kind := by
  cases r with
  | none => exact h
  | some r => rfl

/-- Settles O7: the completion sets DONE and clears BUSY, and the rest is the status of acceptance. -/
theorem everyCommandCompletes : Obligations.EveryCommandCompletes := by
  intro i s
  obtain ⟨r, u, hexec, hu⟩ := exec_eq_complete i s
  refine ⟨complete r u, hexec, rfl, rfl, ?_, fun hi => ?_, fun herr => ?_, Bool.and_true _⟩
  · rw [complete_op, hu.op]
  · rw [complete_stage, hu.stage hi]
  · obtain rfl := raised_eq_none_of_complete_err herr
    exact hu.errInfo

/-- Settles O8: only a completion with an error sets SERR, and CLEAR, which clears it, raises none. -/
theorem stickyErrorFlag : Obligations.StickyErrorFlag := by
  refine ⟨fun i s t hi h => ?_, fun s t h => ?_⟩
  · obtain ⟨r, u, hexec, hu⟩ := exec_eq_complete i s
    obtain rfl := Host.Outcome.next.inj (hexec.symm.trans h)
    obtain ⟨hserr, hovr, hie⟩ := hu.sticky hi
    refine ⟨?_, (complete_ovr r u).trans hovr, (complete_ie r u).trans hie⟩
    rw [complete_serr, complete_err_eq_map hu.err, Option.isSome_map, hserr]
  · obtain rfl := Host.Outcome.next.inj ((clearRestoresResetValues s).symm.trans h)
    exact ⟨rfl, rfl⟩

/-! ### Every step -/

/-- A host write is dropped, runs its word, or is stored: each answers a next state (R72, R121). -/
theorem exists_hostWrite_eq_next (a : WordAddr) (w : Word) (s : State) : ∃ t, hostWrite a w s = .next t := by
  cases hb : s.busy with
  | true => exact ⟨_, hostWrite_busy hb a w⟩
  | false =>
    by_cases ha : a = cmdAddr
    · obtain ⟨k, hk⟩ := execWord_eq_advanceMany w s
      exact ⟨_, ha ▸ (hostWrite_cmd hb w).trans hk⟩
    · exact ⟨_, hostWrite_idle hb ha w⟩

/-- Every event but a host write is a next state by its meaning (R57). -/
theorem exists_handle_eq_next (e : Event) (s : State) : ∃ t, handle e s = .next t := by
  cases e with
  | write a w => exact exists_hostWrite_eq_next a w s
  | reset | read | observeIrq | start | engine => exact ⟨_, rfl⟩

/-- Settles O6: a step is an action of the engine or the handling of an event. -/
theorem everyStepAnswersNext : Obligations.EveryStepAnswersNext := by
  intro s
  cases hp : s.pending with
  | nil => exact ⟨_, step_empty hp⟩
  | cons e rest =>
    rw [step_event hp]
    exact exists_handle_eq_next e _

end Sys2Proof.Machine

/-! PROOFS. COUNT tabulates the symbols of IBUF (spec/41_count.md R140, R142). -/

namespace Sys2Proof.Machine

theorem countBody_ok {s : State} (h : s.inLen.toNat ≤ s.depths.ibuf.val) :
    countBody s = ({ s with ft := countTable s.ibuf s.inLen.toNat }, none) := if_neg (Nat.not_lt.mpr h)

theorem countBody_bad {s : State} (h : s.depths.ibuf.val < s.inLen.toNat) :
    countBody s = (s, some ⟨.badParam, s.inLen.setWidth 32⟩) := if_pos h

/-- COUNT of an input that fits IBUF leaves the table of that input in FT, and raises nothing (R140). -/
theorem exec_count_ok {s : State} (h : s.inLen.toNat ≤ s.depths.ibuf.val) :
    exec .count s =
      .next (State.completed 0x00000002#32 { s with ft := countTable s.ibuf s.inLen.toNat }) :=
  have hcompleted := command_eq_completed (countBody_ok (s := accept 0x00000002#32 s) h) rfl rfl rfl rfl
  congrArg Host.Outcome.next hcompleted

/-- COUNT of an input too long for IBUF raises BAD_PARAM and changes nothing but the status (R140, R274). -/
theorem exec_count_bad {s : State} (h : s.depths.ibuf.val < s.inLen.toNat) :
    exec .count s = .next (State.failed 0x00000002#32 .badParam s.inLen.toNat s) :=
  have hraised := command_raised (countBody_bad (s := accept 0x00000002#32 s) h)
  congrArg Host.Outcome.next (hraised.trans (failed_of rfl rfl (BitVec.ofNat_toNat 32 s.inLen).symm))

/-- IN_LEN has 17 bits, so no count of 32 bits overflows (R142 (b)). -/
theorem inLen_lt_count_range (s : State) : s.inLen.toNat < 2 ^ 32 := by
  have := s.inLen.isLt
  omega

/-- Settles O12: `countTable` is the table FT is left with, and its entries are the numbers of occurrences. -/
theorem countTabulatesOccurrences : Obligations.CountTabulatesOccurrences :=
  ⟨fun s h => ⟨countTable s.ibuf s.inLen.toNat, exec_count_ok h, countTable_spec s.ibuf (inLen_lt_count_range s)⟩,
    fun _ h => exec_count_bad h⟩

/-- Settles O13: a COUNT with ERR = 0 was of an input that fits IBUF, and every symbol of it added 1 to one entry. -/
theorem countSumsToInputLength : Obligations.CountSumsToInputLength := by
  intro s t hexec herr
  by_cases hlen : s.inLen.toNat ≤ s.depths.ibuf.val
  · obtain rfl := Host.Outcome.next.inj ((exec_count_ok hlen).symm.trans hexec)
    exact totalCount_countTable s.ibuf (inLen_lt_count_range s)
  · obtain rfl := Host.Outcome.next.inj ((exec_count_bad (Nat.lt_of_not_le hlen)).symm.trans hexec)
    cases herr

end Sys2Proof.Machine

/-! PROOFS. The leaves of BUILD, its tables of zero and of one symbol, and the order of its internal nodes
(spec/42_build.md R150 to R158, R164). -/

namespace Sys2Proof.Machine

/-! ### One leaf per symbol -/

/-- R152: each of the first NLEAF entries is the leaf of a symbol with a non-zero count. -/
theorem nodeAt_treeOf_leaf {ft : Vector Word 256} {n : NodeIdx} (h : n.toNat < (leavesOf ft).length) :
    (nodeAt (nodeMemory (treeOf ft)) n).leaf = true ∧
      (nodeAt (nodeMemory (treeOf ft)) n).weight =
        (ftAt ft (nodeAt (nodeMemory (treeOf ft)) n).sym).setWidth 40 ∧
      ftAt ft (nodeAt (nodeMemory (treeOf ft)) n).sym ≠ 0#32 := by
  obtain ⟨x, hx, hnode⟩ := nd_leaf ft h
  have hleaf : (nd (treeOf ft) n.toNat).leaf = true := congrArg Node.leaf hnode
  have hsym : (nd (treeOf ft) n.toNat).sym = x := congrArg Node.sym hnode
  have hweight : (nd (treeOf ft) n.toNat).weight = (ftAt ft x).setWidth 40 := congrArg Node.weight hnode
  rw [nodeAt_treeOf, hsym]
  exact ⟨hleaf, hweight, hx⟩

/-- Settles O14: merging keeps the leaves of phase 2, which are those of the symbols with a non-zero count. -/
theorem buildMakesOneLeafPerSymbol : Obligations.BuildMakesOneLeafPerSymbol := by
  intro s
  refine ⟨nodeMemory (treeOf s.ft), BitVec.ofNat 9 (treeOf s.ft).length, BitVec.ofNat 9 (leavesOf s.ft).length,
    rootOf (treeOf s.ft), exec_build s, ?_⟩
  rw [leavesOf_length_toNat]
  exact ⟨leavesOf_length s.ft, fun _ h => nodeAt_treeOf_leaf h, fun x => (exists_leaf_iff s.ft x).mp⟩

/-! ### A table of zeros -/

theorem leavesOf_eq_nil {ft : Vector Word 256} (h : ∀ x : Byte, ftAt ft x = 0#32) : leavesOf ft = [] := by
  refine List.eq_nil_iff_forall_not_mem.mpr fun n hn => ?_
  obtain ⟨x, hx, -⟩ := mem_leavesOf.mp hn
  exact hx (h x)

/-- Settles O15: without leaves the tree is the empty list of nodes. -/
theorem buildOfEmptyTableLeavesNoTree : Obligations.BuildOfEmptyTableLeavesNoTree := by
  intro s hft
  have hleaves : leavesOf s.ft = [] := leavesOf_eq_nil hft
  have htree : treeOf s.ft = [] := treeOf_nil (congrArg List.length hleaves)
  rw [exec_build, buildBody, hleaves, htree, nodeMemory_nil]
  rfl

/-! ### A table of one symbol -/

/-- R152: the leaves are created in ascending symbol value. -/
theorem leavesOf_ascending (ft : Vector Word 256) :
    (leavesOf ft).Pairwise fun a b => a.sym.toNat < b.sym.toNat := by
  rw [leavesOf_eq]
  exact leavesFrom_ascending (by rw [Vector.length_toList])

/-- With one non-zero count there is one leaf: two would stand in ascending order and have the same symbol. -/
theorem leavesOf_eq_singleton {ft : Vector Word 256} {x : Byte} (hx : ftAt ft x ≠ 0#32)
    (hzero : ∀ y : Byte, y ≠ x → ftAt ft y = 0#32) : leavesOf ft = [Node.newLeaf x (ftAt ft x)] := by
  have hall : ∀ n ∈ leavesOf ft, n = Node.newLeaf x (ftAt ft x) := by
    intro n hn
    obtain ⟨y, hy, rfl⟩ := mem_leavesOf.mp hn
    obtain rfl : y = x := by_contra fun hne => hy (hzero y hne)
    rfl
  have hmem : Node.newLeaf x (ftAt ft x) ∈ leavesOf ft := mem_leavesOf.mpr ⟨x, hx, rfl⟩
  match leavesOf ft, hall, hmem, leavesOf_ascending ft with
  | [a], hall, _, _ => rw [hall a List.mem_cons_self]
  | a :: b :: _, hall, _, hasc =>
    have hlt := List.rel_of_pairwise_cons hasc List.mem_cons_self
    rw [hall a (by simp), hall b (by simp)] at hlt
    exact absurd hlt (lt_irrefl _)

/-- R157: one node alone is not merged. -/
theorem mergeAll_singleton (fuel : Nat) (n : Node) : mergeAll fuel [n] = [n] := by
  have hnone : mergeOnce [n] = none := by
    refine Option.eq_none_iff_forall_ne_some.mpr fun ns hns => ?_
    obtain ⟨a, b, ha, hb, -, -, hab, -⟩ := mergeOnce_spec hns
    have halt := (List.getElem?_eq_some_iff.mp ha).1
    have hblt := (List.getElem?_eq_some_iff.mp hb).1
    rw [List.length_singleton] at halt hblt
    omega
  cases fuel with
  | zero => rfl
  | succ fuel => rw [mergeAll, hnone]

theorem nodeAt_nodeMemory_singleton (a : Node) (n : NodeIdx) :
    nodeAt (nodeMemory [a]) n = if n = 0#9 then a else Node.empty := by
  rw [nodeAt_nodeMemory (by simp)]
  split
  · next h => rw [h]; rfl
  · next h =>
    have hpos : 1 ≤ n.toNat := Nat.one_le_iff_ne_zero.mpr fun h0 => h (BitVec.eq_of_toNat_eq h0)
    rw [List.getElem?_eq_none (by simpa using hpos), Option.getD_none]

/-- Settles O16: phase 2 makes the one leaf, phase 3 does not run, and phase 4 finds the leaf active. -/
theorem buildOfOneSymbolIsSingleLeaf : Obligations.BuildOfOneSymbolIsSingleLeaf := by
  intro s x hx hzero
  have hleaves : leavesOf s.ft = [Node.newLeaf x (ftAt s.ft x)] := leavesOf_eq_singleton hx hzero
  have htree : treeOf s.ft = [Node.newLeaf x (ftAt s.ft x)] := by rw [treeOf, hleaves, mergeAll_singleton]
  refine ⟨nodeMemory [Node.newLeaf x (ftAt s.ft x)], ?_, ?_, fun n hn => ?_⟩
  · rw [exec_build, buildBody, hleaves, htree]
    rfl
  · exact nodeAt_nodeMemory_singleton _ 0#9
  · rw [nodeAt_nodeMemory_singleton, if_neg hn]
    rfl

/-! ### The order of the internal nodes -/

/-- Settles O18: the forest of BUILD's merges keeps the weights of the internal nodes in order (`Forest.rise`). -/
theorem internalWeightsRiseInCreationOrder : Obligations.InternalWeightsRiseInCreationOrder := by
  intro s t h m n hm hmn hn
  obtain rfl := eq_completed_of_exec_build h
  have hleaf : (leavesOf s.ft).length ≤ m.toNat := leavesOf_length_toNat s.ft ▸ hm
  have hcnt : n.toNat < (treeOf s.ft).length := treeOf_length_toNat s.ft ▸ hn
  have hrise := (forest_treeOf s.ft).rise m.toNat n.toNat hleaf (by omega) hcnt
  rwa [← nodeAt_treeOf, ← nodeAt_treeOf] at hrise

end Sys2Proof.Machine

/-! PROOFS. The lengths of the codes GENCODES makes of a full tree (spec/42_build.md R161; spec/43_gencodes.md R185). -/

namespace Sys2Proof.Machine

/-- GENCODES completes over the code table of the tree, and raises nothing (R180). -/
theorem exec_gencodes (s : State) : exec .gencodes s =
    .next (State.completed 0x00000004#32 { s with ct := codeTable s.node s.root }) :=
  congrArg Host.Outcome.next
    (command_eq_completed (t := (gencodesBody (accept 0x00000004#32 s)).1) rfl rfl rfl rfl rfl)

/-- With two leaves or more the root is no leaf, so a path to a leaf has a turn (R161). -/
theorem TreeShape.path_ne_nil {s : State} (h : TreeShape s) (hl : 2 ≤ s.nleaf.toNat) {n : NodeIdx} {p : Bits}
    (hn : n.toNat < s.nleaf.toNat) (hp : descend s.node s.root p = some n) : p ≠ [] := by
  rintro rfl
  obtain rfl : s.root = n := Option.some.inj hp
  have hlast := h.rootLast (by omega)
  have hcount := h.count
  omega

/-- Settles O23: the code is the path to the leaf, whose nodes but the last are different internal nodes. -/
theorem codeLengthsAreBounded : Obligations.CodeLengthsAreBounded := by
  intro s t hshape hl hexec n hn
  have hct : t.ct = codeTable s.node s.root := by
    obtain rfl := Host.Outcome.next.inj ((exec_gencodes s).symm.trans hexec)
    rfl
  have hcount := hshape.count
  obtain ⟨p, hp⟩ := hshape.path_exists (n := n) (by omega)
  rw [hct, hshape.codeOf_eq hl hn hp]
  exact ⟨List.length_pos_iff.mpr (hshape.path_ne_nil hl hn hp), hshape.path_length (by omega) hp⟩

end Sys2Proof.Machine

/-! PROOFS. The code table GENCODES makes: of a tree of no leaf or one, of a full tree, and which symbols have an entry
(spec/43_gencodes.md R180 to R185). -/

namespace Sys2Proof.Machine

theorem ct_of_exec_gencodes {s t : State} (h : exec .gencodes s = .next t) : t.ct = codeTable s.node s.root := by
  obtain rfl := Host.Outcome.next.inj ((exec_gencodes s).symm.trans h)
  rfl

/-! ### The entries of a table -/

theorem codeTable_nullIdx (node : Vector Node 511) :
    codeTable node Config.nullIdx = Vector.replicate 256 Code.empty := by
  unfold codeTable
  rw [if_pos rfl]

/-- `TreeShape.codeTable_single` for every NODE memory: R182 asks only that the root is a leaf. -/
theorem ctAt_codeTable_of_leaf {node : Vector Node 511} {root : NodeIdx} (hne : root ≠ Config.nullIdx)
    (hleaf : (nodeAt node root).leaf = true) (x : Byte) : ctAt (codeTable node root) x =
      if x = (nodeAt node root).sym then Code.ofBits [false] else Code.empty := by
  unfold codeTable
  rw [if_neg hne, if_pos hleaf, ctAt_ctSet, ctAt_replicate]

/-- Settles O21: the two `if`s of R180 in front of the walk. -/
theorem gencodesOfSmallTrees : Obligations.GencodesOfSmallTrees := by
  refine ⟨fun s hroot => ?_, fun s hroot hleaf => ?_⟩
  · rw [exec_gencodes, show s.root = Config.nullIdx from hroot, codeTable_nullIdx]
    rfl
  · have hentry := ctAt_codeTable_of_leaf hroot hleaf
    exact ⟨codeTable s.node s.root, exec_gencodes s, (hentry _).trans (if_pos rfl),
      fun y hy => (hentry y).trans (if_neg hy)⟩

/-- On a full tree the code of a leaf's symbol leads from the root to that leaf (R180). -/
theorem TreeShape.descend_codeOf {s : State} (h : TreeShape s) (hl : 2 ≤ s.nleaf.toNat) {n : NodeIdx}
    (hn : n.toNat < s.nleaf.toNat) :
    descend s.node s.root (codeOf (codeTable s.node s.root) (nodeAt s.node n).sym) = some n := by
  have hcount := h.count
  obtain ⟨p, hp⟩ := h.path_exists (n := n) (by omega)
  rwa [h.codeOf_eq hl hn hp]

/-- Settles O22: the codes of the leaves' symbols are paths, and the walk writes no other entry. -/
theorem gencodesRecordsPathsToLeaves : Obligations.GencodesRecordsPathsToLeaves := fun s hshape hl =>
  ⟨codeTable s.node s.root, exec_gencodes s, fun _ hn => hshape.descend_codeOf hl hn,
    fun _ hx => hshape.codeTable_absent hl hx⟩

/-! ### Which symbols have an entry -/

/-- A single leaf is the root (R154). -/
theorem TreeShape.leaf_iff_eq_root {s : State} (h : TreeShape s) (hl : s.nleaf.toNat = 1) {n : NodeIdx} :
    n.toNat < s.nleaf.toNat ↔ n = s.root := by
  have hlast := h.rootLast (by omega)
  have hcount := h.count
  rw [← BitVec.toNat_inj]
  omega

/-- The symbols with an entry are those of the leaves (R181, R185 (e)). -/
theorem TreeShape.codeTable_len_ne_zero_iff {s : State} (h : TreeShape s) (x : Byte) :
    (ctAt (codeTable s.node s.root) x).len ≠ 0#8 ↔
      ∃ n : NodeIdx, n.toNat < s.nleaf.toNat ∧ (nodeAt s.node n).sym = x := by
  obtain hl | hl | hl : s.nleaf.toNat = 0 ∨ s.nleaf.toNat = 1 ∨ 2 ≤ s.nleaf.toNat := by omega
  · rw [h.codeTable_none hl, ctAt_replicate]
    exact iff_of_false (fun hne => hne rfl) (by rintro ⟨n, hn, -⟩; omega)
  · simp only [h.codeTable_single hl, h.leaf_iff_eq_root hl, exists_eq_left]
    split
    · next hx => exact iff_of_true (by decide) hx.symm
    · next hx => exact iff_of_false (fun hne => hne rfl) (Ne.symm hx)
  · constructor
    · intro hne
      by_contra hno
      rw [h.codeTable_absent hl fun n hn hs => hno ⟨n, hn, hs⟩] at hne
      exact hne rfl
    · rintro ⟨n, hn, rfl⟩ hzero
      exact h.path_ne_nil hl hn (h.descend_codeOf hl hn) (Code.str_eq_nil.mpr hzero)

/-- Settles O25: the leaves of the tree BUILD leaves are those of the symbols with a count. -/
theorem entryExactlyForCountedSymbols : Obligations.EntryExactlyForCountedSymbols := by
  intro s t u hbuild hgen x
  obtain ⟨t', ht', hshape, hleaves, -⟩ := buildLeavesStrictlyBinaryTree s
  obtain rfl := Host.Outcome.next.inj (ht'.symm.trans hbuild)
  rw [ct_of_exec_gencodes hgen, hshape.codeTable_len_ne_zero_iff, hleaves]

/-! ### No code is a prefix of another -/

theorem eq_of_descend_leaf {node : Vector Node 511} {n m : NodeIdx} {p : Bits} (hleaf : (nodeAt node n).leaf = true)
    (h : descend node n p = some m) : n = m := by
  cases p with
  | nil => exact Option.some.inj h
  | cons b p => rw [descend, if_pos hleaf] at h; cases h

/-- A path that ends at a leaf goes no further. -/
theorem eq_of_path_prefix {node : Vector Node 511} {r n m : NodeIdx} {p q : Bits} (hp : descend node r p = some n)
    (hq : descend node r q = some m) (hleaf : (nodeAt node n).leaf = true) (hpq : p <+: q) : n = m := by
  obtain ⟨rest, rfl⟩ := hpq
  rw [descend_append, hp, Option.bind_some] at hq
  exact eq_of_descend_leaf hleaf hq

/-- Settles O24: symbols with entries have leaves; two different leaves make a full tree, whose codes are paths to leaves,
and a path to one leaf does not go on to another. -/
theorem generatedCodesArePrefixFree : Obligations.GeneratedCodesArePrefixFree := by
  intro s t hshape hgen a b hab ha hb hprefix
  rw [ct_of_exec_gencodes hgen] at ha hb hprefix
  obtain ⟨n, hn, rfl⟩ := (hshape.codeTable_len_ne_zero_iff a).mp ha
  obtain ⟨m, hm, rfl⟩ := (hshape.codeTable_len_ne_zero_iff b).mp hb
  have hnm : n.toNat ≠ m.toNat := fun he => hab (by rw [BitVec.eq_of_toNat_eq he])
  have hl : 2 ≤ s.nleaf.toNat := by omega
  have hsame : n = m := eq_of_path_prefix (hshape.descend_codeOf hl hn) (hshape.descend_codeOf hl hm)
    (hshape.leaves n hn).1 hprefix
  exact hnm (congrArg BitVec.toNat hsame)

end Sys2Proof.Machine

/-! PROOFS. ENCODE packs the stream into OBUF, and where it stops when an entry is missing or OBUF is full
(spec/44_encode.md R200 to R202). -/

namespace Sys2Proof.Machine

/-! ### An ENCODE that raises nothing -/

/-- A length that fits OBUF fits the 20 bits of BIT_LEN (R29). -/
theorem toNat_ofNat_bitLen {d : Config.Depths} {n : Nat} (h : n ≤ 8 * d.obuf.val) : (BitVec.ofNat 20 n).toNat = n := by
  rw [BitVec.toNat_ofNat]
  exact Nat.mod_eq_of_lt (by have := d.obuf.isLt; omega)

/-- Settles O26: the packer holds the stream (`packed_symbols`), and the flush pads and writes its last chunk. -/
theorem encodePacksTheStream : Obligations.EncodePacksTheStream := by
  intro s hlen hcodes hfit
  have hp := packed_symbols (obuf := s.obuf) hcodes hfit
  have hexec := command_eq_completed (encodeBody_ok (s := accept 0x00000005#32 s) hlen hp.ok) rfl rfl rfl rfl
  have hnb := toNat_ofNat_bitLen hfit
  refine ⟨_, _, congrArg Host.Outcome.next hexec, ?_⟩
  dsimp only [accept_depths, accept_ct, accept_ibuf, accept_obuf, accept_inLen]
  rw [hp.nb, hnb]
  refine ⟨rfl, packedBits_eq fun k hk => hp.flushed_bit (by omega), fun k hk hk' => ?_, fun j hj => hp.flushed_rest hj⟩
  rw [hp.flushed_bit hk', List.getD_eq_default _ _ hk]

/-! ### An ENCODE that stops -/

theorem symbolError_eq_missing {d i nb : Nat} {ct : Vector Code 256} {x : Byte} (h : (ctAt ct x).len = 0#8) :
    symbolError d ct i x nb = some ⟨.invariantViolation, BitVec.ofNat 32 i⟩ := if_pos h

theorem symbolError_eq_overflow {d i : Nat} {ct : Vector Code 256} {ibuf : Buffer}
    (h : (ctAt ct (symbolAt ibuf i)).len ≠ 0#8) (ho : 8 * d < (streamOf ct (symbolsOf ibuf (i + 1))).length) :
    symbolError d ct i (symbolAt ibuf i) (streamOf ct (symbolsOf ibuf i)).length =
      some ⟨.overflow, BitVec.ofNat 32 i⟩ := by
  rw [streamOf_succ, List.length_append, codeOf_length] at ho
  exact (if_neg h).trans (if_pos ho)

/-- What ENCODE has in OBUF after the bits `σ`: their complete bytes, over the contents `old` (R202). -/
def HoldsCompleteBytes (old obuf : Buffer) (σ : Bits) : Prop :=
  (∀ k, k < 8 * (σ.length / 8) → some (streamBit obuf k) = σ[k]?) ∧
    ∀ j, σ.length / 8 ≤ j → obuf.read j = old.read j

theorem Packed.holdsCompleteBytes {old : Buffer} {σ : Bits} {p : Pack} (h : Packed old σ p) :
    HoldsCompleteBytes old p.obuf σ := by
  refine ⟨fun k hk => ?_, h.rest⟩
  have hlt : k < σ.length := by omega
  rw [h.full k hk, List.getD_eq_getElem _ _ hlt, List.getElem?_eq_getElem hlt]

/-- ENCODE of the input of `s` comes to symbol `i`, whose tests raise `r`: the symbols before it have entries, and their
stream fits (R202). -/
structure StopsAt (s : State) (i : Nat) (r : Raise) : Prop where
  input : s.inLen.toNat ≤ s.depths.ibuf.val
  index : i < s.inLen.toNat
  entries : ∀ j, j < i → (ctAt s.ct (symbolAt s.ibuf j)).len ≠ 0#8
  fits : (streamOf s.ct (symbolsOf s.ibuf i)).length ≤ 8 * s.depths.obuf.val
  error : symbolError s.depths.obuf.val s.ct i (symbolAt s.ibuf i) (streamOf s.ct (symbolsOf s.ibuf i)).length = some r

/-- The packer stays as it was before symbol `i` (R202, R276). -/
theorem StopsAt.packSymbols_eq {s : State} {i : Nat} {r : Raise} (h : StopsAt s i r) :
    packSymbols s.depths.obuf.val s.ct s.ibuf s.obuf s.inLen.toNat =
      { packSymbols s.depths.obuf.val s.ct s.ibuf s.obuf i with raised := some r } := by
  have hp := packed_symbols (obuf := s.obuf) h.entries h.fits
  have hnext : packSymbols s.depths.obuf.val s.ct s.ibuf s.obuf (i + 1) =
      { packSymbols s.depths.obuf.val s.ct s.ibuf s.obuf i with raised := some r } := by
    have herror := h.error
    rw [← hp.nb] at herror
    rw [packSymbols, packSymbol, hp.ok, herror]
    rfl
  rw [packSymbols_raised h.index (by rw [hnext]; rfl), hnext]

/-- So ENCODE raises `r` and leaves BIT_LEN 0 and the complete bytes it had written (R202). -/
theorem StopsAt.encodeBody_eq {s : State} {i : Nat} {r : Raise} (h : StopsAt s i r) :
    ∃ obuf : Buffer, encodeBody s = ({ s with obuf := obuf, bitLen := 0#20 }, some r) ∧
      HoldsCompleteBytes s.obuf obuf (streamOf s.ct (symbolsOf s.ibuf i)) := by
  have hraised := encodeBody_raised (r := r) h.input (by rw [h.packSymbols_eq])
  rw [h.packSymbols_eq] at hraised
  exact ⟨_, hraised, (packed_symbols h.entries h.fits).holdsCompleteBytes⟩

theorem StopsAt.exec_encode {s : State} {i : Nat} {kind : ErrKind} (h : StopsAt s i ⟨kind, BitVec.ofNat 32 i⟩) :
    ∃ obuf : Buffer,
      exec .encode s = .next (State.failed 0x00000005#32 kind i { s with obuf := obuf, bitLen := 0#20 }) ∧
      HoldsCompleteBytes s.obuf obuf (streamOf s.ct (symbolsOf s.ibuf i)) := by
  have haccepted : StopsAt (accept 0x00000005#32 s) i ⟨kind, BitVec.ofNat 32 i⟩ :=
    ⟨h.input, h.index, h.entries, h.fits, h.error⟩
  obtain ⟨obuf, hbody, hbytes⟩ := haccepted.encodeBody_eq
  exact ⟨obuf, congrArg Host.Outcome.next ((command_raised hbody).trans (failed_of rfl rfl rfl)), hbytes⟩

/-- Settles O27: the first of the two tests before symbol `i` raises. -/
theorem encodeStopsAtMissingEntry : Obligations.EncodeStopsAtMissingEntry :=
  fun _ _ hlen hi hcodes hfit hmissing =>
    StopsAt.exec_encode ⟨hlen, hi, hcodes, hfit, symbolError_eq_missing hmissing⟩

/-- Settles O28: the second of the two tests before symbol `i` raises. -/
theorem encodeStopsWhereTheStreamOverflows : Obligations.EncodeStopsWhereTheStreamOverflows :=
  fun _ i hlen hi hcodes hfit hover =>
    StopsAt.exec_encode ⟨hlen, hi, fun j hj => hcodes j hj.le, hfit, symbolError_eq_overflow (hcodes i le_rfl) hover⟩

end Sys2Proof.Machine

/-! PROOFS. The length register of an ENCODE or DECODE that fails on its data (spec/60_exceptions.md R277). -/

namespace Sys2Proof.Machine

/-- A command that shows an error raised it in its bodies (R122, R276). -/
theorem raised_of_exec {i : Instr} {s t : State} (h : exec i s = .next t) (herr : t.err ≠ none) :
    ∃ r : Raise, (runBodies (phasesOf i) (accept (encode i) s)).2 = some r ∧
      t = complete (some r) (runBodies (phasesOf i) (accept (encode i) s)).1 := by
  obtain rfl := Host.Outcome.next.inj ((exec_eq i s).symm.trans h)
  have hshows : ShowsAcceptance i s (runBodies (phasesOf i) (accept (encode i) s)).1 :=
    runBodies_preserves (fun _ hb _ h => h.body hb) (showsAcceptance_accept i s)
  cases hr : (runBodies (phasesOf i) (accept (encode i) s)).2 with
  | none => exact absurd (by rw [command, hr, complete_err_eq_map hshows.err]; rfl) herr
  | some r => exact ⟨r, rfl, by rw [command, hr]⟩

/-- The length register `len` is 0 after every error of the body but BAD_PARAM (R277). -/
def EmptiesOnError {n : Nat} (len : State → BitVec n) (b : Body) : Prop :=
  ∀ (s : State) (r : Raise), (b s).2 = some r → r.kind ≠ .badParam → len (b s).1 = 0#n

/-- An error of ENCODE other than BAD_PARAM is the packer's, and leaves BIT_LEN 0 (R202). -/
theorem raised_of_encodeBody {s : State} {r : Raise} (h : (encodeBody s).2 = some r) (hkind : r.kind ≠ .badParam) :
    (packSymbols s.depths.obuf.val s.ct s.ibuf s.obuf s.inLen.toNat).raised = some r ∧
      (encodeBody s).1.bitLen = 0#20 := by
  by_cases hlen : s.inLen.toNat ≤ s.depths.ibuf.val
  · rcases he : (packSymbols s.depths.obuf.val s.ct s.ibuf s.obuf s.inLen.toNat).raised with _ | e
    · rw [encodeBody_ok hlen he] at h
      cases h
    · rw [encodeBody_raised hlen he] at h ⊢
      exact ⟨h, rfl⟩
  · rw [encodeBody_bad (Nat.lt_of_not_le hlen)] at h
    cases h
    exact absurd rfl hkind

theorem emptiesOnError_encodeBody : EmptiesOnError State.bitLen encodeBody :=
  fun _ _ hr hkind => (raised_of_encodeBody hr hkind).2

theorem emptiesOnError_unpackBody {γ : Type} (act : State → γ → Bool → Act γ) (init : State → γ)
    (mid : State → γ → Bool) : EmptiesOnError State.decLen (unpackBody act init mid) := by
  intro s r hr hkind
  by_cases hlen : s.bitLen.toNat ≤ 8 * s.depths.obuf.val
  · rcases he : (unpacked act init mid s).raised with _ | e
    · rw [unpackBody_ok hlen he] at hr
      cases hr
    · rw [unpackBody_raised hlen he]
  · rw [unpackBody_bad (Nat.lt_of_not_le hlen)] at hr
    cases hr
    exact absurd rfl hkind

/-- Completion keeps the length register, and ERR shows the kind of what the body raised. -/
theorem EmptiesOnError.exec {n : Nat} {len : State → BitVec n} {b : Body} (hb : EmptiesOnError len b)
    (hlen : ∀ r u, len (complete r u) = len u) {i : Instr} (hi : phasesOf i = [b]) (s t : State)
    (h : exec i s = .next t) (herr : t.err ≠ none) (hbad : t.err ≠ some .badParam) : len t = 0#n := by
  obtain ⟨r, hr, rfl⟩ := raised_of_exec h herr
  rw [hi, runBodies_one] at hr ⊢
  rw [hlen]
  exact hb _ r hr fun hk => hbad (congrArg some hk)

/-- Settles O36: ENCODE and the body both modes of DECODE share. -/
theorem failedResultIsEmpty : Obligations.FailedResultIsEmpty :=
  ⟨emptiesOnError_encodeBody.exec complete_bitLen (i := .encode) rfl,
    (emptiesOnError_unpackBody _ _ _).exec complete_decLen (i := .decodeT) rfl,
    (emptiesOnError_unpackBody _ _ _).exec complete_decLen (i := .decodeC) rfl⟩

end Sys2Proof.Machine

/-! PROOFS. ENCODE inside COMPRESS: the codes made of the input itself have an entry for every symbol of it, so only
OVERFLOW can stop it (spec/44_encode.md R203; spec/47_compress.md R262). -/

namespace Sys2Proof.Machine

/-- `s` at the start of stage 3 of COMPRESS: FT, the tree and CT are those of the input (R260). -/
def State.atEncodeStage (s : State) : State :=
  let ft := countTable s.ibuf s.inLen.toNat
  { s with
    stage := 3#3
    ft := ft
    node := nodeMemory (treeOf ft)
    nodeCnt := BitVec.ofNat 9 (treeOf ft).length
    nleaf := BitVec.ofNat 9 (leavesOf ft).length
    root := rootOf (treeOf ft)
    ct := s.ownCodes }

/-- The stages before ENCODE raise nothing on an input that fits IBUF (R260). -/
theorem runBodies_compressStages_ok {s : State} (h : s.inLen.toNat ≤ s.depths.ibuf.val) :
    runBodies compressStages s = runBodies [encodeBody, inStage 4#3 metricsBody] s.atEncodeStage := by
  rw [compressStages, runBodies, inStage, countBody_ok (s := { s with stage := 0#3 }) h]
  rfl

theorem runBodies_compressStages_bad {s : State} (h : s.depths.ibuf.val < s.inLen.toNat) :
    (runBodies compressStages s).2 = some ⟨.badParam, s.inLen.setWidth 32⟩ := by
  rw [compressStages, runBodies, inStage, countBody_bad (s := { s with stage := 0#3 }) h]

theorem treeShape_atEncodeStage (s : State) : TreeShape s.atEncodeStage :=
  treeShape_of_build (ft := countTable s.ibuf s.inLen.toNat) rfl rfl rfl rfl

theorem occurrences_symbolAt_pos (m : Buffer) {i n : Nat} (h : i < n) : 0 < occurrences m n (symbolAt m i) :=
  List.length_pos_of_mem (List.mem_filter.mpr ⟨List.mem_range.mpr h, decide_eq_true rfl⟩)

/-- R203 (c): the counted symbols have the leaves, and the leaves the entries. -/
theorem ownCodes_len_ne_zero (s : State) {i : Nat} (h : i < s.inLen.toNat) :
    (ctAt s.ownCodes (symbolAt s.ibuf i)).len ≠ 0#8 := by
  have hcount := countTable_spec s.ibuf (inLen_lt_count_range s) (symbolAt s.ibuf i)
  have hpos := occurrences_symbolAt_pos s.ibuf h
  have hft : ftAt (countTable s.ibuf s.inLen.toNat) (symbolAt s.ibuf i) ≠ 0#32 := by
    intro hzero
    rw [hzero] at hcount
    exact hpos.ne hcount
  obtain ⟨n, hn, hsym⟩ := (exists_leaf_iff _ _).mp hft
  have hleaf : n.toNat < s.atEncodeStage.nleaf.toNat := by rwa [State.atEncodeStage, leavesOf_length_toNat]
  exact ((treeShape_atEncodeStage s).codeTable_len_ne_zero_iff (symbolAt s.ibuf i)).mpr ⟨n, hleaf, hsym⟩

/-! ### No entry is missing -/

/-- INVARIANT_VIOLATION of ENCODE's body names a symbol of the input without an entry (R202 (2)). -/
theorem exists_missing_of_encodeBody {s : State} {r : Raise} (h : (encodeBody s).2 = some r)
    (hk : r.kind = .invariantViolation) :
    ∃ i, i < s.inLen.toNat ∧ (ctAt s.ct (symbolAt s.ibuf i)).len = 0#8 := by
  have hraised := (raised_of_encodeBody h (by rw [hk]; decide)).1
  rcases packSymbols_kind hraised with ⟨-, hmissing⟩ | hover
  · exact hmissing
  · rw [hk] at hover
    cases hover

/-- R262: the errors left to COMPRESS are BAD_PARAM of COUNT and OVERFLOW of ENCODE. -/
theorem compressStages_kind_ne {s : State} {r : Raise} (h : (runBodies compressStages s).2 = some r) :
    r.kind ≠ .invariantViolation := by
  intro hk
  by_cases hlen : s.inLen.toNat ≤ s.depths.ibuf.val
  · have henc : (encodeBody s.atEncodeStage).2 = some r := by
      rw [runBodies_compressStages_ok hlen, runBodies] at h
      split at h
      · next he => rw [he]; exact h
      · cases h
    obtain ⟨i, hi, hmissing⟩ := exists_missing_of_encodeBody henc hk
    exact ownCodes_len_ne_zero s hi hmissing
  · rw [runBodies_compressStages_bad (Nat.lt_of_not_le hlen)] at h
    cases h
    cases hk

/-- Settles O40: no stage raises INVARIANT_VIOLATION, and completion shows what a stage raised. -/
theorem compressNeverMissesAnEntry : Obligations.CompressNeverMissesAnEntry := by
  intro s t h hinv
  obtain ⟨r, hr, rfl⟩ := raised_of_exec h (by rw [hinv]; exact Option.some_ne_none _)
  exact compressStages_kind_ne hr (Option.some.inj hinv)

/-! ### Where the stream overflows -/

/-- An ENCODE that stops stops COMPRESS at stage 3 (R262). -/
theorem StopsAt.exec_compress {s : State} {i : Nat} {r : Raise}
    (h : StopsAt (accept 0x00000008#32 s).atEncodeStage i r) :
    ∃ obuf : Buffer,
      exec .compress s = .next
        (complete (some r) { (accept 0x00000008#32 s).atEncodeStage with obuf := obuf, bitLen := 0#20 }) ∧
      HoldsCompleteBytes s.obuf obuf (streamOf s.ownCodes (symbolsOf s.ibuf i)) := by
  obtain ⟨obuf, hbody, hbytes⟩ := h.encodeBody_eq
  have hrun : runBodies compressStages (accept 0x00000008#32 s) =
      ({ (accept 0x00000008#32 s).atEncodeStage with obuf := obuf, bitLen := 0#20 }, some r) := by
    rw [runBodies_compressStages_ok (s := accept 0x00000008#32 s) h.input, runBodies, hbody]
  exact ⟨obuf, congrArg Host.Outcome.next (command_raised hrun), hbytes⟩

/-- Settles O43: every symbol has an entry, so the test for room is what raises at symbol `i`. -/
theorem compressStopsWhereTheStreamOverflows : Obligations.CompressStopsWhereTheStreamOverflows := by
  intro s i hlen hi hfit hover
  have hstops : StopsAt (accept 0x00000008#32 s).atEncodeStage i ⟨.overflow, BitVec.ofNat 32 i⟩ :=
    ⟨hlen, hi, fun _ hj => ownCodes_len_ne_zero s (hj.trans hi), hfit,
      symbolError_eq_overflow (ownCodes_len_ne_zero s hi) hover⟩
  obtain ⟨obuf, hexec, hbits, hrest⟩ := hstops.exec_compress
  have hshape := treeShape_atEncodeStage (accept 0x00000008#32 s)
  exact ⟨_, hexec, rfl, rfl, rfl, countTable_spec s.ibuf (inLen_lt_count_range s), treeShape_congr hshape rfl rfl rfl rfl,
    rfl, rfl, hbits, hrest, rfl, rfl, rfl, rfl⟩

end Sys2Proof.Machine

/-! PROOFS. How a mode of DECODE reads a stream, and what it then leaves (spec/45_decode.md R220, R225): the stream is a
sequence of codes and what follows the last of them. -/

namespace Sys2Proof.Machine

section
variable {γ : Type}

/-- From the cursor `cur` the bits lead to no code: the first of them fails, or they end in mid-code (R220). -/
inductive Strands (act : γ → Bool → Act γ) (mid : γ → Bool) (cur : γ) : Bits → Prop
  | fails {b : Bool} (rest : Bits) : act cur b = .fail → Strands act mid cur (b :: rest)
  | midCode {q : Bits} {cur' : γ} : Wanders act cur q cur' → mid cur' = true → Strands act mid cur q

/-- The bits after the codes that were emitted end a DECODE with this error or with none, DBUF having room for `room`
symbols more (R225). -/
inductive Ends (act : γ → Bool → Act γ) (init : γ) (mid : γ → Bool) (room : Nat) : Bits → Option ErrKind → Prop
  | done : mid init = false → Ends act init mid room [] none
  | corrupt {q : Bits} : Strands act mid init q → Ends act init mid room q (some .corruptStream)
  | overflow {c : Bits} {x : Byte} (rest : Bits) : room = 0 → Spells act init c x →
      Ends act init mid room (c ++ rest) (some .overflow)

/-- A mode with a DBUF of `d` elements reads the stream `σ` as codes of the symbols `xs`, `n` bits in all, and then ends
with the error `e` or with none (R220, R225). -/
def Reads (act : γ → Bool → Act γ) (init : γ) (mid : γ → Bool) (d : Nat) (σ : Bits) (xs : List Byte) (n : Nat)
    (e : Option ErrKind) : Prop :=
  ∃ (l : List (Byte × Bits)) (q : Bits), (∀ f ∈ l, Spells act init f.2 f.1) ∧ xs = l.map Prod.fst ∧
    n = (l.flatMap Prod.snd).length ∧ l.length ≤ d ∧ σ = l.flatMap Prod.snd ++ q ∧
    Ends act init mid (d - l.length) q e

variable {act : γ → Bool → Act γ} {init : γ} {mid : γ → Bool} {d : Nat}

theorem spells_singleton {cur : γ} {b : Bool} {x : Byte} (h : act cur b = .emit x) : Spells act cur [b] x :=
  ⟨[], b, cur, rfl, rfl, h⟩

/-! ### Building a reading -/

theorem Ends.reads {σ : Bits} {e : Option ErrKind} (h : Ends act init mid d σ e) : Reads act init mid d σ [] 0 e :=
  ⟨[], σ, fun _ hf => absurd hf List.not_mem_nil, rfl, rfl, Nat.zero_le d, rfl, h⟩

theorem Reads.cons {σ c : Bits} {x : Byte} {xs : List Byte} {n : Nat} {e : Option ErrKind} (hc : Spells act init c x)
    (h : Reads act init mid d σ xs n e) : Reads act init mid (d + 1) (c ++ σ) (x :: xs) (c.length + n) e := by
  obtain ⟨l, q, hcodes, rfl, rfl, hfits, rfl, hends⟩ := h
  refine ⟨(x, c) :: l, q, List.forall_mem_cons.mpr ⟨hc, hcodes⟩, rfl, ?_, Nat.succ_le_succ hfits, ?_, ?_⟩
  · rw [List.flatMap_cons, List.length_append]
  · rw [List.flatMap_cons, List.append_assoc]
  · rwa [List.length_cons, Nat.add_sub_add_right]

/-- Items each of which has a symbol and a code of it: their codes in order, and what follows them. -/
theorem Ends.reads_map {ι : Type} {sym : ι → Byte} {code : ι → Bits} {xs : List ι} {q : Bits} {e : Option ErrKind}
    (h : Ends act init mid (d - xs.length) q e) (hcodes : ∀ x ∈ xs, Spells act init (code x) (sym x))
    (hfits : xs.length ≤ d) :
    Reads act init mid d (xs.flatMap code ++ q) (xs.map sym) (xs.flatMap code).length e := by
  refine ⟨xs.map fun x => (sym x, code x), q, fun f hf => ?_, by rw [List.map_map]; rfl, by rw [List.flatMap_map],
    by rwa [List.length_map], by rw [List.flatMap_map], by rwa [List.length_map]⟩
  obtain ⟨x, hx, rfl⟩ := List.mem_map.mp hf
  exact hcodes x hx

/-! ### The unpacker -/

/-- Bits that lead to no code raise CORRUPT_STREAM where they began, and emit nothing (R220, R225 (3)). -/
theorem Strands.run {q : Bits} {u : Unpack γ} (h : Strands act mid u.cur q) (hu : u.raised = none) (k : Nat) :
    ∃ cur', endOfStream mid (unpackRun d act init k q u) = failAt { u with cur := cur' } := by
  cases h with
  | @fails b rest hb =>
    refine ⟨u.cur, ?_⟩
    have hfail : unpackBit d act init k b u = failAt u := by
      rw [unpackBit, if_neg (by simp [hu]), hb]
    rw [unpackRun, hfail, unpackRun_raised rfl, endOfStream_raised mid rfl]
  | @midCode _ cur' hw hm =>
    rw [unpackRun_wanders hu hw]
    exact ⟨cur', endOfStream_mid mid hu hm⟩

/-- The unpacker emits the symbols of the codes it reads, and raises what their ending asks at the first bit after them
(R220, R225). -/
theorem Reads.run {σ : Bits} {xs : List Byte} {n : Nat} {e : Option ErrKind} (h : Reads act init mid d σ xs n e)
    (old : Buffer) :
    ∃ start cur, endOfStream mid (unpackRun d act init 0 σ ⟨0, 0, init, old, none⟩) =
      ⟨xs.length, start, cur, putSymbols old 0 xs, e.map fun kind => ⟨kind, BitVec.ofNat 32 n⟩⟩ := by
  obtain ⟨l, q, hcodes, rfl, rfl, hfits, rfl, hends⟩ := h
  rw [List.length_map]
  have hrun := unpackRun_codes (d := d) (u := ⟨0, 0, init, old, none⟩) rfl rfl (by simpa using hfits) hcodes 0 rfl
  simp only [Nat.zero_add] at hrun
  cases hends with
  | done hm =>
    rw [List.append_nil, hrun, endOfStream_done mid hm]
    exact ⟨_, _, rfl⟩
  | corrupt hq =>
    rw [unpackRun_append, hrun]
    obtain ⟨cur', hfail⟩ := hq.run (d := d) (init := init)
      (u := ⟨l.length, (l.flatMap Prod.snd).length, init, putSymbols old 0 (l.map Prod.fst), none⟩) rfl
      (0 + (l.flatMap Prod.snd).length)
    exact ⟨_, cur', hfail⟩
  | @overflow c x rest hroom hc =>
    have hfull : l.length = d := by omega
    have hall : ∀ f ∈ l ++ [(x, c)], Spells act init f.2 f.1 :=
      List.forall_mem_append.mpr ⟨hcodes, List.forall_mem_singleton.mpr hc⟩
    obtain ⟨cur', hover⟩ := unpackRun_codes_overflow (e := (x, c)) (rest := rest) (old := old) hfull hall
    rw [← List.append_assoc, hover, endOfStream_raised mid rfl, hfull]
    exact ⟨_, _, rfl⟩

end

/-! ### The command -/

/-- What DECODE with the word `w` leaves when it emits the symbols `xs`, whose codes have `n` bits in all, and then ends
with the error `e` or with none (R225). -/
def State.decoded (w : Word) (xs : List Byte) (n : Nat) (e : Option ErrKind) (s : State) : State :=
  match e with
  | none => State.completed w { s with dbuf := putSymbols s.dbuf 0 xs, decLen := BitVec.ofNat 17 xs.length }
  | some kind => State.failed w kind n { s with dbuf := putSymbols s.dbuf 0 xs, decLen := 0#17 }

/-- DECODE in any mode leaves what its reading of the stream says; the mode looks at the accepted state (R120). -/
theorem Reads.command_eq {γ : Type} {act : State → γ → Bool → Act γ} {init : State → γ} {mid : State → γ → Bool}
    {w : Word} {s : State} {xs : List Byte} {n : Nat} {e : Option ErrKind}
    (h : Reads (act (accept w s)) (init (accept w s)) (mid (accept w s)) s.depths.dbuf.val
      (packedBits s.obuf s.bitLen.toNat) xs n e)
    (hlen : s.bitLen.toNat ≤ 8 * s.depths.obuf.val) :
    command w (unpackBody act init mid) s = s.decoded w xs n e := by
  obtain ⟨start, cur, hrun⟩ := h.run s.dbuf
  have hu : unpacked act init mid (accept w s) = ⟨xs.length, start, cur, putSymbols s.dbuf 0 xs,
      e.map fun kind => ⟨kind, BitVec.ofNat 32 n⟩⟩ := by
    rw [unpacked, unpackBits_eq]
    exact hrun
  cases e with
  | none =>
    have hbody := unpackBody_ok (s := accept w s) hlen (by rw [hu]; rfl)
    rw [hu] at hbody
    exact (command_eq_completed hbody rfl rfl rfl rfl :)
  | some kind =>
    have hbody := unpackBody_raised (s := accept w s) (r := ⟨kind, BitVec.ofNat 32 n⟩) hlen (by rw [hu]; rfl)
    rw [hu] at hbody
    exact (command_raised hbody).trans (failed_of rfl rfl rfl)

/-- DECODE.T's reading (R221 to R223). -/
abbrev TreeReads (s : State) : Nat → Bits → List Byte → Nat → Option ErrKind → Prop :=
  Reads (treeAct s) s.root fun cur => decide (cur ≠ s.root)

/-- How DECODE.T's reading ends. -/
abbrev TreeEnds (s : State) : Nat → Bits → Option ErrKind → Prop :=
  Ends (treeAct s) s.root fun cur => decide (cur ≠ s.root)

/-- Bits that lead DECODE.T to no code. -/
abbrev TreeStrands (s : State) : Bits → Prop := Strands (treeAct s) (fun cur => decide (cur ≠ s.root)) s.root

/-- DECODE.C's reading (R224). -/
abbrev TableReads (s : State) : Nat → Bits → List Byte → Nat → Option ErrKind → Prop :=
  Reads (tableAct s) [] fun acc => !acc.isEmpty

/-- How DECODE.C's reading ends. -/
abbrev TableEnds (s : State) : Nat → Bits → Option ErrKind → Prop := Ends (tableAct s) [] fun acc => !acc.isEmpty

/-- Bits that lead DECODE.C to no code. -/
abbrev TableStrands (s : State) : Bits → Prop := Strands (tableAct s) (fun acc => !acc.isEmpty) []

section
variable {s : State} {σ : Bits} {xs : List Byte} {n : Nat} {e : Option ErrKind}

theorem exec_decodeT (h : TreeReads s s.depths.dbuf.val σ xs n e) (hσ : packedBits s.obuf s.bitLen.toNat = σ)
    (hlen : s.bitLen.toNat ≤ 8 * s.depths.obuf.val) : exec .decodeT s = .next (s.decoded 0x00000006#32 xs n e) := by
  subst hσ
  exact congrArg Host.Outcome.next (Reads.command_eq (act := treeAct) (init := State.root)
    (mid := fun s cur => decide (cur ≠ s.root)) h hlen)

theorem exec_decodeC (h : TableReads s s.depths.dbuf.val σ xs n e) (hσ : packedBits s.obuf s.bitLen.toNat = σ)
    (hlen : s.bitLen.toNat ≤ 8 * s.depths.obuf.val) : exec .decodeC s = .next (s.decoded 0x00000106#32 xs n e) := by
  subst hσ
  exact congrArg Host.Outcome.next (Reads.command_eq (act := tableAct) (init := fun _ => [])
    (mid := fun _ acc => !acc.isEmpty) h hlen)

/-- DECODE.T's cursor at the start of a code is not in mid-code (R221). -/
theorem Ends.tree_done (d : Nat) : TreeEnds s d [] none :=
  .done (decide_eq_false (not_not_intro rfl))

/-- Nor is DECODE.C's (R224). -/
theorem Ends.table_done (d : Nat) : TableEnds s d [] none := .done rfl

end

/-! ### DBUF after a DECODE -/

theorem putSymbols_zero_read_lt (m : Buffer) {xs : List Byte} {j : Nat} (h : j < xs.length) :
    some ((putSymbols m 0 xs).read j) = xs[j]? := by
  rw [putSymbols_read, if_pos (by omega), Nat.sub_zero, List.getD_eq_getElem _ _ h, List.getElem?_eq_getElem h]

theorem putSymbols_zero_read_ge (m : Buffer) {xs : List Byte} {j : Nat} (h : xs.length ≤ j) :
    (putSymbols m 0 xs).read j = m.read j := by
  rw [putSymbols_read, if_neg (by omega)]

end Sys2Proof.Machine

/-! PROOFS. DECODE with nothing to read, with nothing to match, and with a single leaf (spec/45_decode.md R222 to R224,
R228). -/

namespace Sys2Proof.Machine

/-! ### An empty stream -/

/-- Settles O30: both modes read no code in no bits, and their cursor is at its start. -/
theorem decodeOfEmptyStream : Obligations.DecodeOfEmptyStream := by
  intro s h
  have hlen : s.bitLen.toNat ≤ 8 * s.depths.obuf.val := by rw [h]; exact Nat.zero_le _
  have hstream : packedBits s.obuf s.bitLen.toNat = [] := by rw [h]; rfl
  exact ⟨exec_decodeT (Ends.tree_done _).reads hstream hlen, exec_decodeC (Ends.table_done _).reads hstream hlen⟩

/-! ### Nothing to match -/

theorem packedBits_ne_nil (m : Buffer) {n : Nat} (h : 1 ≤ n) : packedBits m n ≠ [] :=
  List.ne_nil_of_length_pos (by rwa [packedBits_length])

section
variable {s : State}

theorem treeAct_of_no_leaf (hl : s.nleaf = 0#9) (cur : NodeIdx) (b : Bool) : treeAct s cur b = .fail := if_pos hl

theorem treeAct_of_one_leaf (hl : s.nleaf = 1#9) (cur : NodeIdx) (b : Bool) :
    treeAct s cur b = if b then .fail else .emit (nodeAt s.node s.root).sym := by
  rw [treeAct, if_neg (by rw [hl]; decide), if_pos hl]

/-- Without a tree every bit fails (R223). -/
theorem tree_strands_of_no_leaf (hl : s.nleaf = 0#9) {q : Bits} (hq : q ≠ []) :
    TreeStrands s q := by
  obtain ⟨b, rest, rfl⟩ := List.exists_cons_of_ne_nil hq
  exact .fails rest (treeAct_of_no_leaf hl s.root b)

/-- Bits no prefix of which is a code are accumulated to the end of the stream (R224). -/
theorem table_strands {q : Bits} (hq : q ≠ []) (h : ∀ (r : Bits) (y : Byte), r ≠ [] → r <+: q → codeOf s.ct y ≠ r) :
    TableStrands s q := by
  refine .midCode (table_wanders fun r hr hp y => h r y hr hp) ?_
  simpa using hq

end

/-- Settles O31: neither mode has a code, so the whole stream leads to none from bit 0 on. -/
theorem decodeWithNothingToMatchIsCorrupt : Obligations.DecodeWithNothingToMatchIsCorrupt := by
  refine ⟨fun s hl hpos hlen => ?_, fun s hempty hpos hlen => ?_⟩
  · exact exec_decodeT (Ends.corrupt (tree_strands_of_no_leaf hl (packedBits_ne_nil s.obuf hpos))).reads rfl hlen
  · have hcodes : ∀ y : Byte, codeOf s.ct y = [] := fun y => Code.str_eq_nil.mpr (hempty y)
    have hends : TableStrands s (packedBits s.obuf s.bitLen.toNat) :=
      table_strands (packedBits_ne_nil s.obuf hpos) fun r y hr _ => by rw [hcodes y]; exact hr.symm
    exact exec_decodeC (Ends.corrupt hends).reads rfl hlen

/-! ### A single leaf -/

theorem packedBits_prefix (m : Buffer) {k n : Nat} (h : k ≤ n) : packedBits m k <+: packedBits m n := by
  induction h with
  | refl => exact List.prefix_rfl
  | step _ ih => rw [packedBits_succ]; exact ih.trans (List.prefix_append _ _)

/-- The stream from bit `k` on begins with bit `k`. -/
theorem packedBits_split (m : Buffer) {k n : Nat} (h : k < n) :
    ∃ rest, packedBits m n = packedBits m k ++ streamBit m k :: rest := by
  obtain ⟨rest, hrest⟩ := packedBits_prefix m (Nat.succ_le_of_lt h)
  refine ⟨rest, ?_⟩
  rw [← hrest, Nat.succ_eq_add_one, packedBits_succ, List.append_assoc, List.singleton_append]

theorem packedBits_eq_replicate {m : Buffer} {k : Nat} (h : ∀ j, j < k → streamBit m j = false) :
    packedBits m k = List.replicate k false :=
  List.eq_replicate_iff.mpr ⟨packedBits_length m k, by simpa [packedBits] using h⟩

theorem spells_of_one_leaf {s : State} (hl : s.nleaf = 1#9) :
    Spells (treeAct s) s.root [false] (nodeAt s.node s.root).sym :=
  spells_singleton (treeAct_of_one_leaf hl s.root false)

theorem tree_strands_of_one_leaf {s : State} (hl : s.nleaf = 1#9) (rest : Bits) :
    TreeStrands s (true :: rest) :=
  .fails rest (treeAct_of_one_leaf hl s.root true)

/-- With a single leaf, `k` bits 0 are `k` of its symbol (R222). -/
theorem treeReads_zeros {s : State} {d k : Nat} {q : Bits} {e : Option ErrKind} (hl : s.nleaf = 1#9) (hk : k ≤ d)
    (h : TreeEnds s (d - k) q e) :
    TreeReads s d (List.replicate k false ++ q) (List.replicate k (nodeAt s.node s.root).sym) k e := by
  have hcodes : ∀ x ∈ List.replicate k (nodeAt s.node s.root).sym, Spells (treeAct s) s.root [false] x := by
    intro x hx
    obtain rfl := List.eq_of_mem_replicate hx
    exact spells_of_one_leaf hl
  have hreads := Ends.reads_map (sym := id) (code := fun _ => [false]) (by rwa [List.length_replicate]) hcodes
    (by rwa [List.length_replicate])
  rwa [List.flatMap_replicate, List.flatten_replicate_singleton, List.length_replicate, List.map_id] at hreads

/-- Settles O32: the `k` bits 0 are codes, and the stream ends after them, goes on with a 1 bit, or with a 0 bit more. -/
theorem decodeOfSingleLeaf : Obligations.DecodeOfSingleLeaf := by
  intro s k hl hlen hkn hkd hzeros
  have hbits : packedBits s.obuf k = List.replicate k false := packedBits_eq_replicate hzeros
  have hlength : (List.replicate k (nodeAt s.node s.root).sym).length = k := List.length_replicate
  refine ⟨putSymbols s.dbuf 0 (List.replicate k (nodeAt s.node s.root).sym), fun j hj => ?_, fun j hj => ?_,
    fun hend => ?_, fun hlt hone => ?_, fun hlt hzero hfull => ?_⟩
  · have hread := putSymbols_zero_read_lt s.dbuf (hlength.symm ▸ hj)
    rw [List.getElem?_replicate_of_lt hj] at hread
    exact Option.some.inj hread
  · exact putSymbols_zero_read_ge s.dbuf (hlength.symm ▸ hj)
  · have hreads := treeReads_zeros hl hkd (Ends.tree_done _)
    rw [exec_decodeT hreads (by rw [← hend, hbits, List.append_nil]) hlen, State.decoded, hlength]
  · obtain ⟨rest, hrest⟩ := packedBits_split s.obuf hlt
    have hreads := treeReads_zeros hl hkd (.corrupt (tree_strands_of_one_leaf hl rest))
    exact exec_decodeT hreads (by rw [hrest, hbits, hone]) hlen
  · obtain ⟨rest, hrest⟩ := packedBits_split s.obuf hlt
    have hreads := treeReads_zeros hl hkd (.overflow rest (by omega) (spells_of_one_leaf hl))
    exact exec_decodeT hreads (by rw [hrest, hbits, hzero]; rfl) hlen

end Sys2Proof.Machine

/-! PROOFS. DECODE.T on a full tree and DECODE.C on any table (spec/45_decode.md R221, R224, R225). -/

namespace Sys2Proof.Machine

/-! ### DECODE.T -/

/-- On a full tree a path that stops at an internal node below the root ends in mid-code (R221). -/
theorem TreeShape.strands {s : State} (h : TreeShape s) (hl : 2 ≤ s.nleaf.toNat) {q : Bits} {m : NodeIdx} (hq : q ≠ [])
    (hd : descend s.node s.root q = some m) (hm : (nodeAt s.node m).leaf = false) :
    TreeStrands s q := by
  have hroot := h.root_lt (by omega)
  refine .midCode (h.wanders hl hroot hd hm) (decide_eq_true fun he => ?_)
  have hdown := (h.descend_le hroot hd).1
  have hpos := List.length_pos_iff.mpr hq
  rw [he] at hdown
  omega

/-- The leaves `ls` with the paths to them are read as their symbols (R221). -/
theorem TreeShape.reads_paths {s : State} (h : TreeShape s) (hl : 2 ≤ s.nleaf.toNat) {ls : List (NodeIdx × Bits)}
    {d : Nat} {q : Bits} {e : Option ErrKind}
    (hpaths : ∀ l ∈ ls, l.1.toNat < s.nleaf.toNat ∧ descend s.node s.root l.2 = some l.1) (hfits : ls.length ≤ d)
    (hends : TreeEnds s (d - ls.length) q e) :
    TreeReads s d (ls.flatMap Prod.snd ++ q) (ls.map fun l => (nodeAt s.node l.1).sym) (ls.flatMap Prod.snd).length e :=
  hends.reads_map (fun l hm => h.spells hl (hpaths l hm).1 (hpaths l hm).2) hfits

/-- Settles O33: the paths to leaves are codes of their symbols, and a path that stops short of a leaf is no code. -/
theorem decodeWalksTheTree : Obligations.DecodeWalksTheTree := by
  refine ⟨fun s ls q h hl hlen hfits hpaths ⟨m, hm, hinternal⟩ hstream => ?_,
    fun s ls l rest h hl hlen hfull hpaths hstream => ?_⟩ <;>
  refine ⟨putSymbols s.dbuf 0 (ls.map fun l => (nodeAt s.node l.1).sym),
    fun j hj => (putSymbols_zero_read_lt _ (by rwa [List.length_map])).trans List.getElem?_map,
    fun j hj => putSymbols_zero_read_ge _ (by rwa [List.length_map]), ?_⟩
  · refine ⟨fun hq => ?_, fun hq => ?_⟩
    · have hreads := h.reads_paths hl hpaths hfits (Ends.tree_done _)
      rw [exec_decodeT hreads (hq ▸ hstream) hlen, State.decoded, List.length_map]
    · have hends := h.strands hl hq hm hinternal
      exact exec_decodeT (h.reads_paths hl hpaths hfits (.corrupt hends)) hstream hlen
  · obtain ⟨hls, hlast⟩ := List.forall_mem_append.mp hpaths
    obtain ⟨hleaf, hpath⟩ := List.forall_mem_singleton.mp hlast
    rw [List.append_assoc] at hstream
    exact exec_decodeT (h.reads_paths hl hls hfull.le (.overflow rest (by omega) (h.spells hl hleaf hpath))) hstream hlen

/-! ### DECODE.C -/

/-- The first prefix of the code of `x` that is a code at all is that code, and `x` the least symbol that has it (R224). -/
def MatchesFirst (ct : Vector Code 256) (x : Byte) : Prop :=
  codeOf ct x ≠ [] ∧ ∀ (r : Bits) (y : Byte), r ≠ [] → r <+: codeOf ct x → codeOf ct y = r →
    r = codeOf ct x ∧ x.toNat ≤ y.toNat

theorem MatchesFirst.spells {s : State} {x : Byte} (h : MatchesFirst s.ct x) :
    Spells (tableAct s) [] (codeOf s.ct x) x := by
  obtain ⟨hne, hfirst⟩ := h
  refine table_spells hne (fun r hr hp hproper y hy => hproper (hfirst r y hr hp hy).1) fun y hlt hy => ?_
  have hle := (hfirst _ y hne List.prefix_rfl hy).2
  omega

/-- The codes of such symbols are read as the symbols (R224). -/
theorem tableReads_stream {s : State} {xs : List Byte} {d : Nat} {q : Bits} {e : Option ErrKind}
    (hxs : ∀ x ∈ xs, MatchesFirst s.ct x) (hfits : xs.length ≤ d)
    (hends : TableEnds s (d - xs.length) q e) :
    TableReads s d (streamOf s.ct xs ++ q) xs (streamOf s.ct xs).length e := by
  have hreads := hends.reads_map (sym := id) (fun x hx => (hxs x hx).spells) hfits
  rwa [List.map_id] at hreads

/-- Settles O34: the codes of `xs` are matched first, and of the bits after them no prefix is a code. -/
theorem decodeMatchesTheTable : Obligations.DecodeMatchesTheTable := by
  refine ⟨fun s xs q hxs hq hlen hfits hstream => ?_, fun s xs x rest hxs hlen hfull hstream => ?_⟩ <;>
  refine ⟨putSymbols s.dbuf 0 xs, fun j hj => putSymbols_zero_read_lt _ hj, fun j hj => putSymbols_zero_read_ge _ hj, ?_⟩
  · refine ⟨fun hnil => ?_, fun hne => ?_⟩
    · exact exec_decodeC (tableReads_stream hxs hfits (Ends.table_done _)) (hnil ▸ hstream) hlen
    · exact exec_decodeC (tableReads_stream hxs hfits (.corrupt (table_strands hne hq))) hstream hlen
  · obtain ⟨hcodes, hlast⟩ := List.forall_mem_append.mp hxs
    have hx : MatchesFirst s.ct x := List.forall_mem_singleton.mp hlast
    rw [List.append_assoc] at hstream
    exact exec_decodeC (tableReads_stream hcodes hfull.le (.overflow rest (by omega) hx.spells)) hstream hlen

end Sys2Proof.Machine

/-! PROOFS. The two modes agree on the table GENCODES makes of the tree, and the round trip (spec/45_decode.md R226,
R227). -/

namespace Sys2Proof.Machine

/-! ### The codes of a tree's table, in both modes -/

theorem codeOf_ne_nil_iff {ct : Vector Code 256} {x : Byte} : codeOf ct x ≠ [] ↔ (ctAt ct x).len ≠ 0#8 :=
  Code.str_eq_nil.not

/-- With no code a prefix of another symbol's, every code is matched first (R228 (f)). -/
theorem PrefixFree.matchesFirst {ct : Vector Code 256} (h : PrefixFree ct) {x : Byte} (hx : codeOf ct x ≠ []) :
    MatchesFirst ct x := by
  refine ⟨hx, fun r y hr hp hy => ?_⟩
  subst hy
  obtain rfl : y = x := by_contra fun hne =>
    h y x hne (codeOf_ne_nil_iff.mp hr) (codeOf_ne_nil_iff.mp hx) hp
  exact ⟨rfl, le_rfl⟩

/-- Where no prefix of the bits is a path to a leaf, they are a path to an internal node. -/
theorem exists_internal_of_no_leaf {node : Vector Node 511} {n : NodeIdx} {q : Bits}
    (h : ∀ p m, p <+: q → descend node n p = some m → (nodeAt node m).leaf = false) :
    ∃ m, descend node n q = some m ∧ (nodeAt node m).leaf = false := by
  induction q generalizing n with
  | nil => exact ⟨n, rfl, h [] n List.prefix_rfl rfl⟩
  | cons b q ih =>
    have hn : (nodeAt node n).leaf = false := h [] n List.nil_prefix rfl
    have hstep : ∀ p, descend node n (b :: p) = descend node (childOf node n b) p := fun p => by
      rw [descend, if_neg (by simp [hn])]
    rw [hstep]
    exact ih fun p m hp hm => h (b :: p) m (List.cons_prefix_cons.mpr ⟨rfl, hp⟩) ((hstep p).trans hm)

section
variable {s : State} (h : TreeShape s) (hct : s.ct = codeTable s.node s.root)
include h hct

/-- R185 (b) of a table that is the tree's. -/
theorem TreeShape.matchesFirst {x : Byte} (hx : codeOf s.ct x ≠ []) : MatchesFirst s.ct x := by
  have hfree : PrefixFree s.ct := hct ▸ generatedCodesArePrefixFree s _ h (exec_gencodes s)
  exact hfree.matchesFirst hx

/-- The code of a single leaf's symbol is the bit 0 (R182). -/
theorem TreeShape.codeOf_root (hl : s.nleaf.toNat = 1) : codeOf s.ct (nodeAt s.node s.root).sym = [false] := by
  rw [hct, codeOf, h.codeTable_single hl, if_pos rfl, Code.str_ofBits (by decide)]

/-- DECODE.T reads the code of a symbol as the symbol (R222, R221). -/
theorem TreeShape.spells_codeOf {x : Byte} (hx : codeOf s.ct x ≠ []) : Spells (treeAct s) s.root (codeOf s.ct x) x := by
  rw [codeOf_ne_nil_iff, hct, h.codeTable_len_ne_zero_iff] at hx
  obtain ⟨n, hn, rfl⟩ := hx
  by_cases hl : 2 ≤ s.nleaf.toNat
  · rw [hct]
    exact h.spells hl hn (h.descend_codeOf hl hn)
  · have hone : s.nleaf.toNat = 1 := by omega
    obtain rfl := (h.leaf_iff_eq_root hone).mp hn
    rw [h.codeOf_root hct hone]
    exact spells_of_one_leaf (BitVec.eq_of_toNat_eq hone)

/-- DECODE.T finds no code in bits no prefix of which is one (R221 to R223). -/
theorem TreeShape.strands_of_no_code {q : Bits} (hq : q ≠ []) (hno : ∀ x, codeOf s.ct x ≠ [] → ¬ codeOf s.ct x <+: q) :
    TreeStrands s q := by
  obtain hl | hl | hl : s.nleaf.toNat = 0 ∨ s.nleaf.toNat = 1 ∨ 2 ≤ s.nleaf.toNat := by omega
  · exact tree_strands_of_no_leaf (BitVec.eq_of_toNat_eq hl) hq
  · have hroot := h.codeOf_root hct hl
    have hzero := hno (nodeAt s.node s.root).sym (by rw [hroot]; decide)
    rw [hroot] at hzero
    obtain ⟨b, rest, rfl⟩ := List.exists_cons_of_ne_nil hq
    cases b with
    | false => exact absurd (List.prefix_append [false] rest) hzero
    | true => exact tree_strands_of_one_leaf (BitVec.eq_of_toNat_eq hl) rest
  · have hleafless : ∀ p m, p <+: q → descend s.node s.root p = some m → (nodeAt s.node m).leaf = false := by
      intro p m hp hm
      by_contra hleaf
      rw [Bool.not_eq_false] at hleaf
      have hn := (h.leaf_iff (h.descend_le (h.root_lt (by omega)) hm).2).mp hleaf
      have hcode : codeOf s.ct (nodeAt s.node m).sym = p := hct ▸ h.codeOf_eq hl hn hm
      exact hno _ (hcode ▸ h.path_ne_nil hl hn hm) (hcode ▸ hp)
    obtain ⟨m, hm, hinternal⟩ := exists_internal_of_no_leaf hleafless
    exact h.strands hl hq hm hinternal

/-- Bits begin with a code, or end a DECODE the same way in both modes (R226). -/
theorem TreeShape.code_or_end (q : Bits) : (∃ x rest, codeOf s.ct x ≠ [] ∧ q = codeOf s.ct x ++ rest) ∨
    ∃ e, ∀ d, TreeEnds s d q e ∧
      TableEnds s d q e := by
  by_cases hcode : ∃ x, codeOf s.ct x ≠ [] ∧ codeOf s.ct x <+: q
  · obtain ⟨x, hx, rest, hrest⟩ := hcode
    exact .inl ⟨x, rest, hx, hrest.symm⟩
  · have hno : ∀ x, codeOf s.ct x ≠ [] → ¬ codeOf s.ct x <+: q := fun x hx hp => hcode ⟨x, hx, hp⟩
    by_cases hq : q = []
    · subst hq
      exact .inr ⟨none, fun d => ⟨.tree_done d, .table_done d⟩⟩
    · have htable : TableStrands s q :=
        table_strands hq fun r y hr hp hy => hno y (hy ▸ hr) (hy ▸ hp)
      exact .inr ⟨some .corruptStream, fun d => ⟨.corrupt (h.strands_of_no_code hct hq hno), .corrupt htable⟩⟩

/-- Both modes read every stream as the same symbols, with the same ending (R226). -/
theorem TreeShape.both_read (d : Nat) (σ : Bits) : ∃ xs n e, TreeReads s d σ xs n e ∧ TableReads s d σ xs n e := by
  rcases h.code_or_end hct σ with ⟨x, rest, hx, rfl⟩ | ⟨e, hends⟩
  · have htree := h.spells_codeOf hct hx
    have htable := (h.matchesFirst hct hx).spells
    cases d with
    | zero => exact ⟨_, _, _, (Ends.overflow rest rfl htree).reads, (Ends.overflow rest rfl htable).reads⟩
    | succ d =>
      obtain ⟨xs, n, e, ht, hc⟩ := TreeShape.both_read d rest
      exact ⟨_, _, _, ht.cons htree, hc.cons htable⟩
  · exact ⟨_, _, e, (hends d).1.reads, (hends d).2.reads⟩

end

/-- Settles O35: a reading fixes what either mode leaves, and a stream too long for OBUF is BAD_PARAM in both. -/
theorem decodeModesAgree : Obligations.DecodeModesAgree := by
  intro s h hct
  by_cases hlen : s.bitLen.toNat ≤ 8 * s.depths.obuf.val
  · obtain ⟨xs, n, e, htree, htable⟩ := h.both_read hct s.depths.dbuf.val (packedBits s.obuf s.bitLen.toNat)
    refine ⟨_, _, exec_decodeT htree rfl hlen, exec_decodeC htable rfl hlen, ?_⟩
    cases e with
    | none => exact ⟨rfl, rfl, rfl, fun _ => rfl⟩
    | some kind => exact ⟨rfl, rfl, rfl, fun _ => rfl⟩
  · have hbad : ∀ w, 8 * (accept w s).depths.obuf.val < (accept w s).bitLen.toNat := fun _ => Nat.lt_of_not_le hlen
    exact ⟨_, _, congrArg Host.Outcome.next (command_raised (unpackBody_bad (hbad _))),
      congrArg Host.Outcome.next (command_raised (unpackBody_bad (hbad _))), rfl, rfl, rfl, fun _ => rfl⟩

/-! ### The round trip -/

/-- An ENCODE with ERR = 0 found every symbol in the table and room for the stream (R202). -/
theorem stream_fits_of_exec_encode {s t : State} (hin : s.inLen.toNat ≤ s.depths.ibuf.val)
    (hexec : exec .encode s = .next t) (herr : t.err = none) :
    (∀ i, i < s.inLen.toNat → (ctAt s.ct (symbolAt s.ibuf i)).len ≠ 0#8) ∧
      (streamOf s.ct (symbolsOf s.ibuf s.inLen.toNat)).length ≤ 8 * s.depths.obuf.val := by
  obtain rfl := Host.Outcome.next.inj ((exec_eq .encode s).symm.trans hexec)
  have hnone := raised_eq_none_of_complete_err herr
  rw [phasesOf, runBodies_one] at hnone
  rcases hraised : (packSymbols s.depths.obuf.val s.ct s.ibuf s.obuf s.inLen.toNat).raised with _ | r
  · exact packSymbols_ok hraised
  · rw [encodeBody_raised (s := accept _ s) hin hraised] at hnone
    cases hnone

/-- On the tree's own table both modes decode the codes of `xs` as `xs` (R226, R227). -/
theorem TreeShape.exec_decode_stream {s : State} (h : TreeShape s) (hct : s.ct = codeTable s.node s.root)
    {xs : List Byte} (hxs : ∀ x ∈ xs, codeOf s.ct x ≠ []) (hfits : xs.length ≤ s.depths.dbuf.val)
    (hlen : s.bitLen.toNat ≤ 8 * s.depths.obuf.val) (hstream : packedBits s.obuf s.bitLen.toNat = streamOf s.ct xs)
    {i : Instr} (hi : i = .decodeT ∨ i = .decodeC) :
    exec i s = .next (s.decoded (encode i) xs (streamOf s.ct xs).length none) := by
  rw [← List.append_nil (streamOf s.ct xs)] at hstream
  rcases hi with rfl | rfl
  · have hreads := (Ends.tree_done _).reads_map (sym := id) (fun x hx => h.spells_codeOf hct (hxs x hx)) hfits
    rw [List.map_id] at hreads
    exact exec_decodeT hreads hstream hlen
  · have hreads := tableReads_stream (fun x hx => h.matchesFirst hct (hxs x hx)) hfits (Ends.table_done _)
    exact exec_decodeC hreads hstream hlen

theorem symbolsOf_length (m : Buffer) (n : Nat) : (symbolsOf m n).length = n := by
  rw [symbolsOf, List.length_map, List.length_range]

theorem symbolsOf_getElem? (m : Buffer) {n j : Nat} (h : j < n) : (symbolsOf m n)[j]? = some (symbolAt m j) := by
  rw [symbolsOf, List.getElem?_map, List.getElem?_range h, Option.map_some]

/-- What ENCODE packs with the tree's own table, DECODE gives back (R227). -/
theorem exec_decode_of_exec_encode {s t : State} (hexec : exec .encode s = .next t) (herr : t.err = none)
    (h : TreeShape s) (hct : s.ct = codeTable s.node s.root) (hin : s.inLen.toNat ≤ s.depths.ibuf.val)
    (hout : s.inLen.toNat ≤ s.depths.dbuf.val) {i : Instr} (hi : i = .decodeT ∨ i = .decodeC) :
    ∃ u, exec i t = .next u ∧ u.err = none ∧ u.decLen = s.inLen ∧
      ∀ j, j < s.inLen.toNat → symbolAt u.dbuf j = symbolAt s.ibuf j := by
  obtain ⟨hcodes, hfit⟩ := stream_fits_of_exec_encode hin hexec herr
  obtain ⟨obuf, nb, hpacked, hnb, hbits, -⟩ := encodePacksTheStream s hin hcodes hfit
  obtain rfl := Host.Outcome.next.inj (hpacked.symm.trans hexec)
  have hlength := symbolsOf_length s.ibuf s.inLen.toNat
  have hxs : ∀ x ∈ symbolsOf s.ibuf s.inLen.toNat, codeOf s.ct x ≠ [] := by
    intro x hx
    obtain ⟨k, hk, rfl⟩ := List.mem_map.mp hx
    exact codeOf_ne_nil_iff.mpr (hcodes k (List.mem_range.mp hk))
  have hshape : TreeShape (State.completed 0x00000005#32 { s with obuf := obuf, bitLen := nb }) :=
    treeShape_congr h rfl rfl rfl rfl
  refine ⟨_, hshape.exec_decode_stream hct hxs (hlength.le.trans hout) (hnb.le.trans hfit) hbits hi, rfl, ?_,
    fun j hj => ?_⟩
  · show BitVec.ofNat 17 (symbolsOf s.ibuf s.inLen.toNat).length = s.inLen
    rw [hlength, BitVec.ofNat_toNat, BitVec.setWidth_eq]
  · have hread := putSymbols_zero_read_lt s.dbuf (hlength.symm ▸ hj)
    rw [symbolsOf_getElem? s.ibuf hj] at hread
    exact Option.some.inj hread

/-- Settles O37: BUILD leaves a tree and GENCODES the table of it, on which DECODE undoes ENCODE. -/
theorem roundTripRestoresTheInput : Obligations.RoundTripRestoresTheInput := by
  intro s a b c d hin hout hcount hbuild hgen hencode _ _ _ herr i hi
  obtain rfl := Host.Outcome.next.inj ((exec_count_ok hin).symm.trans hcount)
  obtain rfl := eq_completed_of_exec_build hbuild
  obtain rfl := Host.Outcome.next.inj ((exec_gencodes _).symm.trans hgen)
  exact (exec_decode_of_exec_encode hencode herr
    (treeShape_of_build (ft := countTable s.ibuf s.inLen.toNat) rfl rfl rfl rfl) rfl hin hout hi :)

end Sys2Proof.Machine

/-! PROOFS. METRICS reports the two sizes, their difference and the reduction, and every figure fits its register
(spec/46_metrics.md R250, R253, R254). -/

namespace Sys2Proof.Machine

/-- METRICS raises nothing, and its body writes none of what acceptance and completion do (R250, R256). -/
theorem exec_metrics (s : State) : exec .metrics s = .next (State.completed 0x00000007#32 (metricsBody s).1) :=
  have hcompleted := command_eq_completed (body := metricsBody)
    (t := (metricsBody (accept 0x00000007#32 s)).1) rfl rfl rfl rfl rfl
  congrArg Host.Outcome.next hcompleted

/-! ### The reduction -/

@[simp] theorem reduction_zero (eb : Nat) : reduction 0 eb = 0 := if_pos rfl

/-- The divisor is not negative, so rounding down is Euclidean division. -/
theorem reduction_eq_ediv {ob : Nat} (h : ob ≠ 0) (eb : Nat) :
    reduction ob eb = 100000 * reductionBits ob eb / ob :=
  (if_neg h).trans (Int.fdiv_eq_ediv_of_nonneg _ (Int.natCast_nonneg ob))

/-- R253: the reduction is the greatest integer not above the exact quotient. -/
theorem reduction_is_floor {ob : Nat} (h : ob ≠ 0) (eb : Nat) :
    reduction ob eb * ob ≤ 100000 * reductionBits ob eb ∧
      100000 * reductionBits ob eb < (reduction ob eb + 1) * ob := by
  rw [reduction_eq_ediv h]
  exact ⟨Int.ediv_mul_le _ (Int.natCast_ne_zero.mpr h),
    Int.lt_ediv_add_one_mul_self _ (Int.natCast_pos.mpr (Nat.pos_of_ne_zero h))⟩

/-- R253: the reduction is at most 100 %, so MET_RED needs no upper clip. -/
theorem reduction_le (ob eb : Nat) : reduction ob eb ≤ 100000 := by
  by_cases h : ob = 0
  · rw [h, reduction_zero]
    decide
  · rw [reduction_eq_ediv h]
    refine Int.ediv_le_of_le_mul (Int.natCast_pos.mpr (Nat.pos_of_ne_zero h)) ?_
    rw [reductionBits]
    omega

/-! ### What the MET registers hold -/

/-- IN_LEN has 17 bits, so eight times it fits the 20 bits of MET_ORIG_BITS. -/
theorem metricsBody_metOrigBits_toNat (s : State) : (metricsBody s).1.metOrigBits.toNat = s.inLen.toNat * 8 :=
  (BitVec.toNat_ofNat _ _).trans (Nat.mod_eq_of_lt (by have := s.inLen.isLt; omega))

/-- Both sizes have 20 bits, so their difference fits MET_DIFF. -/
theorem metricsBody_metDiff_toInt (s : State) :
    (metricsBody s).1.metDiff.toInt = reductionBits (s.inLen.toNat * 8) s.bitLen.toNat := by
  have hin := s.inLen.isLt
  have hbit := s.bitLen.isLt
  apply BitVec.toInt_ofInt_eq_self (by decide) <;> rw [reductionBits] <;> omega

/-- R253: MET_RED holds the reduction, clipped below only. -/
theorem metricsBody_metRed_toInt (s : State) :
    (metricsBody s).1.metRed.toInt = max (reduction (s.inLen.toNat * 8) s.bitLen.toNat) (-2147483648) := by
  have hle := reduction_le (s.inLen.toNat * 8) s.bitLen.toNat
  exact BitVec.toInt_ofInt_eq_self (by decide) (le_max_right _ _) (max_lt (by omega) (by decide))

/-- R254: an empty input reads as no reduction. -/
theorem metricsBody_metRed_of_empty {s : State} (h : s.inLen.toNat = 0) : (metricsBody s).1.metRed = 0#32 := by
  apply BitVec.eq_of_toInt_eq
  rw [metricsBody_metRed_toInt, h, Nat.zero_mul, reduction_zero]
  decide

/-- Settles O38: the registers are those `metricsBody` writes, and the quotient is `reduction`. -/
theorem metricsReportsTheReduction : Obligations.MetricsReportsTheReduction := by
  intro s
  have horig := metricsBody_metOrigBits_toNat s
  have hdiff := metricsBody_metDiff_toInt s
  refine ⟨(metricsBody s).1.metOrigBits, s.bitLen, (metricsBody s).1.metDiff, (metricsBody s).1.metRed,
    exec_metrics s, horig, rfl, ?_, fun hzero => ?_, fun hne => ?_⟩
  · rw [hdiff, horig, reductionBits]
  · exact metricsBody_metRed_of_empty (by omega)
  · rw [horig] at hne
    obtain ⟨hfloor, hlt⟩ := reduction_is_floor hne s.bitLen.toNat
    rw [horig, hdiff]
    exact ⟨_, hfloor, hlt, metricsBody_metRed_toInt s⟩

end Sys2Proof.Machine

/-! PROOFS. The length checks (spec/60_exceptions.md R274, R281): BAD_PARAM before any data is touched, and the commands
that raise nothing. -/

namespace Sys2Proof.Machine

/-- A body that refuses a length register outright leaves nothing changed but the status (R274, R276). -/
theorem command_eq_badParam {w : Word} {body : Body} {s : State} {n : Nat} {len : BitVec n}
    (h : body (accept w s) = (accept w s, some ⟨.badParam, len.setWidth 32⟩)) :
    command w body s = State.failed w .badParam len.toNat s :=
  (command_raised h).trans (failed_of rfl rfl (BitVec.ofNat_toNat 32 len).symm)

theorem exec_encode_bad {s : State} (h : s.depths.ibuf.val < s.inLen.toNat) :
    exec .encode s = .next (State.failed 0x00000005#32 .badParam s.inLen.toNat s) :=
  congrArg Host.Outcome.next (command_eq_badParam (encodeBody_bad (s := accept 0x00000005#32 s) h))

/-- COUNT, the first stage, refuses IN_LEN while STAGE is still the 0 of acceptance (R260, R261). -/
theorem exec_compress_bad {s : State} (h : s.depths.ibuf.val < s.inLen.toNat) :
    exec .compress s = .next (State.failed 0x00000008#32 .badParam s.inLen.toNat s) := by
  have hrun : runBodies compressStages (accept 0x00000008#32 s) =
      (accept 0x00000008#32 s, some ⟨.badParam, s.inLen.setWidth 32⟩) := by
    rw [compressStages, runBodies, inStage, countBody_bad (s := { accept 0x00000008#32 s with stage := 0#3 }) h]
    rfl
  exact congrArg Host.Outcome.next (command_eq_badParam hrun)

theorem command_unpackBody_bad {γ : Type} {act : State → γ → Bool → Act γ} {init : State → γ}
    {mid : State → γ → Bool} (w : Word) {s : State} (h : 8 * s.depths.obuf.val < s.bitLen.toNat) :
    command w (unpackBody act init mid) s = State.failed w .badParam s.bitLen.toNat s :=
  command_eq_badParam (unpackBody_bad (s := accept w s) h)

/-- A command whose bodies raise nothing shows no error (R122, R276). -/
theorem err_eq_none_of_no_raise {i : Instr} {s t : State} (hquiet : ∀ u, (runBodies (phasesOf i) u).2 = none)
    (h : exec i s = .next t) : t.err = none := by
  by_contra herr
  obtain ⟨r, hr, -⟩ := raised_of_exec h herr
  rw [hquiet] at hr
  cases hr

/-- Settles O11: the check is the first thing the bodies of COUNT, ENCODE and both modes of DECODE do. -/
theorem lengthAboveBufferIsBadParam : Obligations.LengthAboveBufferIsBadParam := by
  refine ⟨fun s h => ⟨exec_count_bad h, exec_encode_bad h, exec_compress_bad h⟩, fun s h => ⟨?_, ?_⟩,
    fun i s t hi hexec => err_eq_none_of_no_raise (fun u => ?_) hexec, rfl⟩
  · exact congrArg Host.Outcome.next (command_unpackBody_bad 0x00000006#32 h)
  · exact congrArg Host.Outcome.next (command_unpackBody_bad 0x00000106#32 h)
  · simp only [List.mem_cons, List.not_mem_nil, or_false] at hi
    obtain rfl | rfl | rfl | rfl | rfl := hi <;> rfl

end Sys2Proof.Machine

/-! PROOFS. What COMPRESS ends with (spec/47_compress.md R260 to R264): the packed stream at stage 4, the error of
ENCODE at stage 3, or BAD_PARAM at stage 0. -/

namespace Sys2Proof.Machine

/-- The packer of an ENCODE in the state `s`, after all symbols of the input (R200). -/
def State.packer (s : State) : Pack := packSymbols s.depths.obuf.val s.ct s.ibuf s.obuf s.inLen.toNat

/-- What an ENCODE that raises nothing makes of `s`: the stream in OBUF and its length in BIT_LEN (R200). -/
def State.encoded (s : State) : State :=
  { s with obuf := flushed s.packer, bitLen := BitVec.ofNat 20 s.packer.nb }

theorem exec_encode_ok {s : State} (h : s.inLen.toNat ≤ s.depths.ibuf.val) (hr : s.packer.raised = none) :
    exec .encode s = .next (State.completed 0x00000005#32 s.encoded) :=
  have hcompleted := command_eq_completed (encodeBody_ok (s := accept 0x00000005#32 s) h hr) rfl rfl rfl rfl
  congrArg Host.Outcome.next hcompleted

/-- `completed_of` for a command that has written STAGE, as COMPRESS does (R261). -/
theorem complete_none_eq {w : Word} {t : State} (he : t.err = none) (hi : t.errInfo = 0#32) (ho : t.op = opField w) :
    complete none t = { State.completed w t with stage := t.stage } :=
  congrArg (fun u : State => { u with stage := t.stage }) (completed_of (t := { t with stage := 0#3 }) he hi ho rfl)

/-- COMPRESS ends at stage 4 when its ENCODE raises nothing (R260, R261). -/
theorem exec_compress_ok {s : State} (h : s.inLen.toNat ≤ s.depths.ibuf.val)
    (hr : s.atEncodeStage.packer.raised = none) :
    exec .compress s =
      .next { State.completed 0x00000008#32 (metricsBody s.atEncodeStage.encoded).1 with stage := 4#3 } := by
  have hencode := encodeBody_ok (s := (accept 0x00000008#32 s).atEncodeStage) h hr
  have hrun : runBodies compressStages (accept 0x00000008#32 s) =
      ((inStage 4#3 metricsBody (accept 0x00000008#32 s).atEncodeStage.encoded).1, none) := by
    rw [runBodies_compressStages_ok (s := accept 0x00000008#32 s) h, runBodies, hencode]
    rfl
  exact congrArg Host.Outcome.next ((command_ok hrun).trans (complete_none_eq rfl rfl rfl))

/-- COMPRESS ends at stage 3 with the error its ENCODE raises (R261, R262). -/
theorem exec_compress_raised {s : State} {r : Raise} (h : s.inLen.toNat ≤ s.depths.ibuf.val)
    (hr : s.atEncodeStage.packer.raised = some r) :
    ∃ t, exec .compress s = .next t ∧ t.err = some r.kind ∧ t.stage = 3#3 := by
  have hencode := encodeBody_raised (s := (accept 0x00000008#32 s).atEncodeStage) h hr
  have hrun : runBodies compressStages (accept 0x00000008#32 s) =
      ({ (accept 0x00000008#32 s).atEncodeStage with obuf := s.atEncodeStage.packer.obuf, bitLen := 0#20 },
        some r) := by
    rw [runBodies_compressStages_ok (s := accept 0x00000008#32 s) h, runBodies, hencode]
    rfl
  exact ⟨_, congrArg Host.Outcome.next (command_raised hrun), rfl, rfl⟩

/-- Settles O39: the three ends of COMPRESS; the other commands by what every command shows. -/
theorem compressEndsAtANamedStage : Obligations.CompressEndsAtANamedStage := by
  refine ⟨fun s => ?_, fun i s t hi hexec => ?_⟩
  · by_cases hlen : s.inLen.toNat ≤ s.depths.ibuf.val
    · cases hr : s.atEncodeStage.packer.raised with
      | none => exact ⟨_, exec_compress_ok hlen hr, .inl ⟨rfl, rfl⟩⟩
      | some r =>
        obtain ⟨t, hexec, herr, hstage⟩ := exec_compress_raised hlen hr
        refine ⟨t, hexec, .inr (.inr ⟨?_, hstage⟩)⟩
        obtain ⟨hkind, -⟩ | hkind := packSymbols_kind hr
        · exact .inl (hkind ▸ herr)
        · exact .inr (hkind ▸ herr)
    · exact ⟨_, exec_compress_bad (Nat.lt_of_not_le hlen), .inr (.inl ⟨rfl, rfl⟩)⟩
  · obtain ⟨u, hu, -, -, -, hstage, -, -⟩ := everyCommandCompletes i s
    obtain rfl := Host.Outcome.next.inj (hu.symm.trans hexec)
    exact hstage hi

/-- A COMPRESS with ERR = 0 had an input that fits IBUF, and its ENCODE raised nothing (R261, R262). -/
theorem encode_ok_of_exec_compress {s t : State} (h : exec .compress s = .next t) (herr : t.err = none) :
    s.inLen.toNat ≤ s.depths.ibuf.val ∧ s.atEncodeStage.packer.raised = none := by
  by_cases hlen : s.inLen.toNat ≤ s.depths.ibuf.val
  · refine ⟨hlen, ?_⟩
    by_contra hne
    obtain ⟨r, hr⟩ := Option.ne_none_iff_exists'.mp hne
    obtain ⟨u, hexec, hkind, -⟩ := exec_compress_raised hlen hr
    obtain rfl := Host.Outcome.next.inj (hexec.symm.trans h)
    rw [herr] at hkind
    cases hkind
  · obtain rfl := Host.Outcome.next.inj ((exec_compress_bad (Nat.lt_of_not_le hlen)).symm.trans h)
    cases herr

/-- COUNT, BUILD and GENCODES leave the data COMPRESS has at the start of stage 3 (R260, R264). -/
theorem exec_count_build_gencodes {s : State} (h : s.inLen.toNat ≤ s.depths.ibuf.val) :
    ∃ a b, exec .count s = .next a ∧ exec .build a = .next b ∧
      exec .gencodes b = .next (State.completed 0x00000004#32 s.atEncodeStage) :=
  ⟨_, _, exec_count_ok h, exec_build _, exec_gencodes _⟩

/-- The packer reads no status. -/
theorem packer_completed (w : Word) (s : State) : (State.completed w s).packer = s.packer := rfl

/-- Settles O41: before ENCODE the data are those of stage 3, and ENCODE and METRICS do as the stages do. -/
theorem compressIsTheFiveCommands : Obligations.CompressIsTheFiveCommands := by
  intro s t h herr
  obtain ⟨hlen, hr⟩ := encode_ok_of_exec_compress h herr
  obtain rfl := Host.Outcome.next.inj ((exec_compress_ok hlen hr).symm.trans h)
  obtain ⟨a, b, hcount, hbuild, hgencodes⟩ := exec_count_build_gencodes hlen
  have hencode := exec_encode_ok (s := State.completed 0x00000004#32 s.atEncodeStage) hlen
    (by rw [packer_completed, hr])
  exact ⟨a, b, _, _, hcount, hbuild, hgencodes, hencode, exec_metrics _⟩

/-- The flushed packer holds its stream in OBUF, of the length BIT_LEN is given (R200, R201). -/
theorem Packed.packedBits_flushed {old : Buffer} {σ : Bits} {p : Pack} {d : Config.Depths} (h : Packed old σ p)
    (hfit : σ.length ≤ 8 * d.obuf.val) : packedBits (flushed p) (BitVec.ofNat 20 p.nb).toNat = σ := by
  rw [h.nb, toNat_ofNat_bitLen hfit]
  exact packedBits_eq fun k hk => h.flushed_bit (by omega)

/-- Settles O42: every symbol of the input has an entry, so a stream that fits is packed. -/
theorem compressCompletesWhenItFits : Obligations.CompressCompletesWhenItFits := by
  intro s hlen hfit
  have hpacked : Packed s.obuf (streamOf s.ownCodes (symbolsOf s.ibuf s.inLen.toNat)) s.atEncodeStage.packer :=
    packed_symbols (fun _ hi => ownCodes_len_ne_zero s hi) hfit
  exact ⟨_, exec_compress_ok hlen hpacked.ok, rfl, rfl, rfl, countTable_spec s.ibuf (inLen_lt_count_range s), rfl,
    hpacked.packedBits_flushed hfit, metricsBody_metOrigBits_toNat _, rfl⟩

end Sys2Proof.Machine

/-! PROOFS. The reset event (spec/70_reset_and_hazards.md R300, R301). -/

namespace Sys2Proof.Machine

/-- Settles O57: the step is the reset, whose state `State.afterReset` writes out; STATUS and CTRL are read by their fields,
the tables by their entries, the constants by their registers. -/
theorem resetReachesTheResetState : Obligations.ResetReachesTheResetState := by
  intro s i o b rest hpending
  obtain ⟨hid, hibuf, hobuf, hdbuf⟩ := peek_constants (resetTo i o b { s with pending := rest })
  have hstatus := BitVec.eq_of_toNat_eq (y := 0#32) (statusWord_toNat (resetTo i o b { s with pending := rest }))
  have hctrl := BitVec.eq_of_toNat_eq (y := 0#32) (ctrlWord_toNat (resetTo i o b { s with pending := rest }))
  exact ⟨_, step_event hpending, rfl, hstatus, hctrl, rfl, rfl, rfl, rfl, rfl, rfl, rfl, rfl, rfl, rfl, rfl, rfl,
    fun x => ⟨ftAt_replicate _ x, ctAt_replicate _ x⟩, nodeAt_replicate, rfl, rfl, rfl, hid, peek_reg (r := .cmd) rfl,
    hibuf, hobuf, hdbuf⟩

end Sys2Proof.Machine
